-- ==== Sys2Proof/Word.lean ====
section
/-! DEFINITION. The word and byte types of the engine (spec/00_scope.md section 6: `u64`, data bytes). -/

namespace Sys2Proof

/-- A 64-bit unsigned word, bit 0 the least significant: packet words, `M`, `K`, hash words, store words. -/
abbrev Word := BitVec 64

/-- An 8-bit byte: the elements of the data operand of PUT and QUERY (R20), and the `sid` field. -/
abbrev Byte := BitVec 8

end Sys2Proof
end

