-- ==== Sys2Proof/Config.lean ====
section
/-! DEFINITION. What an implementation fixes (spec/00_scope.md section 4). Every parameter the spec calls OPEN is an
opaque constant with no body: a claim holds whatever its value is. -/

namespace Sys2Proof

/-- The contract every HashStrategy must meet (R90): for a padded capacity `m` (`m ≥ 64`, a multiple of 64) and a
count `k ≥ 1`, exactly `k` indices, each in `[0, m)`. Determinism, purity and statelessness are what a function is. -/
structure Strategy where
  /-- The index function `(data, m, k) → k indices in [0, m)`. -/
  indexes : List Byte → Word → Word → List Word
  /-- Exactly `k` results. -/
  length_indexes : ∀ data m k, 64 ≤ m.toNat → m.toNat % 64 = 0 → 1 ≤ k.toNat → (indexes data m k).length = k.toNat
  /-- Each result below `m`. -/
  indexes_lt : ∀ data m k, 64 ≤ m.toNat → m.toNat % 64 = 0 → 1 ≤ k.toNat →
    ∀ b ∈ indexes data m k, b.toNat < m.toNat

/-- `H128`, the 128-bit hash primitive (R91, decision D22): a total function of the byte sequence that returns
`(h1, h2)`. Nothing else is assumed of it. Log 4. -/
opaque Config.h128 : List Byte → Word × Word

/-- The platform's largest capacity, as a word count less one: `M_MAX = 64 * (mMaxWords + 1)`. The bound is the
spec's `64 ≤ M_MAX ≤ 2^64 − 64` (00_scope.md section 4, decision D10). Log 5. -/
opaque Config.mMaxWords : Fin (2 ^ 58 - 2 + 1)

/-- `M_MAX`, the largest capacity in bits: a multiple of 64 with `64 ≤ M_MAX ≤ 2^64 − 64` (decision D10). -/
def Config.mMax : Nat := 64 * (Config.mMaxWords.val + 1)

/-- `STRATEGIES[s]` for `s ≠ 0` (R97, decision D11): which further strategies are implemented, and each one's
function with the proof of its contract (93_implementation_defined.md U5). The entry at 0 is not used: id 0 is
always the reference strategy (R59). Log 6. -/
opaque Config.otherStrategy : BitVec 8 → Option Strategy

/-- `PAR − 1`: how many store operations beyond one an implementation may issue at once (decisions D15, D16). Log 7. -/
opaque Config.parLessOne : Nat

/-- `PAR ≥ 1`. No rule's result depends on it (R105). -/
def Config.par : Nat := Config.parLessOne + 1

/-- `EST` (R74, U8): whether the host's bit count for `(n, p)` is the upper of the two integers that neighbour `x`,
where `x` lies within rounding error of an integer. Log 8. -/
opaque Config.estBitCountTakesUpper : ℤ → ℝ → Bool

/-- `EST` (R74, U8): the same for the floor of the hash count for `(n, m_raw)`, where `y` lies within rounding error of
a half-integer. Log 8. -/
opaque Config.estHashCountTakesUpper : ℤ → ℕ → Bool

end Sys2Proof
end

