-- ==== Sys2Proof/Syntax.lean ====
section
/-! DEFINITION. The instructions: the eight host commands of Table R56 and the six primitive-port operations of
Table R57 (spec/30_encoding.md), one constructor per row of spec/opcode_table.json; and what carries them, a command
packet or a port request. -/

namespace Sys2Proof

/-- One constructor per row of the opcode table. -/
inductive Instr where
  /-- CONFIG `m_raw, k, sid` (R100). -/
  | config (sid : BitVec 8) (mRaw k : Word)
  /-- RECONSTRUCT `words, k, sid` (R101); the count word `W` is the length of `words`. -/
  | reconstruct (sid : BitVec 8) (k : Word) (words : List Word)
  /-- SET_STRATEGY `sid` (R102). -/
  | setStrategy (sid : BitVec 8)
  /-- PUT `data` (R103); the count word `L` is the length of `data`. -/
  | put (data : List Byte)
  /-- QUERY `data` (R104), alias MIGHTCONTAIN. -/
  | query (data : List Byte)
  /-- READ_M (R106). -/
  | readM
  /-- READ_K (R107). -/
  | readK
  /-- EXPORT (R120). -/
  | exportBits
  /-- BS_ALLOC `m` at the BITSTORE port (R80): `addr` is the new length in bits, `wdata` is ignored. -/
  | bsAlloc (m : Word)
  /-- BS_SET `b` at the BITSTORE port (R81): `addr` is the bit address, `wdata` is ignored. -/
  | bsSet (b : Word)
  /-- BS_TEST `b` at the BITSTORE port (R82): `addr` is the bit address, `wdata` is ignored. -/
  | bsTest (b : Word)
  /-- BS_RDWORD `j` at the BITSTORE port (R83): `addr` is the word address, `wdata` is ignored. -/
  | bsRdWord (j : Word)
  /-- BS_WRWORD `j, w` at the BITSTORE port (R84): `addr` is the word address, `wdata` the word. -/
  | bsWrWord (j w : Word)
  /-- HASH128 `data` at the HASH port (R91). -/
  | hash128 (data : List Byte)
  deriving DecidableEq, Repr

/-- A request at a primitive port (R57). -/
inductive PortRequest where
  /-- `{op: 3 bits, addr: 64 bits, wdata: 64 bits}` at the BITSTORE port. -/
  | bitstore (op : BitVec 3) (addr wdata : Word)
  /-- A byte sequence at the HASH port, which has one operation and no op field. -/
  | hash (data : List Byte)
  deriving DecidableEq, Repr

/-- What carries an instruction: a command packet at the command port (R50) or a request at a primitive port (R57). -/
inductive Message where
  /-- A command packet, `w0` (the header) first. -/
  | command (packet : List Word)
  /-- A primitive-port request. -/
  | request (r : PortRequest)
  deriving DecidableEq, Repr

end Sys2Proof
end

