-- ==== Sys2Proof/WellFormed.lean ====
section
/-! DEFINITION. Well-formed instructions: the operands the encoding can carry (spec/30_encoding.md R52, R54). -/

namespace Sys2Proof

/-- A count the encoding can carry: it fits the 64-bit count word `W` or `L` (R52, R54; 10_state.md R20). -/
def fitsCountWord (n : Nat) : Bool := decide (n < 2 ^ 64)

/-- The encoding admits every operand value of every instruction, but for a sequence longer than its 64-bit count
word can say: RECONSTRUCT's word list and the data of PUT and QUERY. The HASH port has no count word (R57). -/
def WellFormed : Instr → Bool
  | .config _ _ _ => true
  | .reconstruct _ _ words => fitsCountWord words.length
  | .setStrategy _ => true
  | .put data => fitsCountWord data.length
  | .query data => fitsCountWord data.length
  | .readM => true
  | .readK => true
  | .exportBits => true
  | .bsAlloc _ => true
  | .bsSet _ => true
  | .bsTest _ => true
  | .bsRdWord _ => true
  | .bsWrWord _ _ => true
  | .hash128 _ => true

end Sys2Proof
end

