-- ==== Sys2Proof/Decode.lean ====
section
/-! DEFINITION. The decoder of command packets and port requests, total and rejecting by name, and after it the
encoder, both from spec/30_encoding.md R50 to R60. -/

namespace Sys2Proof

/-- Why a packet or request is not an instruction: the six clauses of R58, and R57's reserved port operations. -/
inductive DecodeError where
  /-- R58 clause (1): the packet is empty. -/
  | emptyPacket
  /-- R58 clause (2): `w0[63:16] ≠ 0`. -/
  | reservedHeaderBits
  /-- R58 clause (3): `opc` is not one of 0x01 to 0x08. -/
  | reservedOpcode
  /-- R58 clause (4): `sid ≠ 0` in a command that does not use it. -/
  | sidNotZero
  /-- R58 clause (5): the packet length does not fit the format. -/
  | lengthMismatch
  /-- R58 clause (6): a padding byte of the last data word is not 0. -/
  | nonzeroPadding
  /-- R57: BITSTORE op 0b101 to 0b111, reserved and never issued. -/
  | reservedPortOp
  deriving DecidableEq, Repr

/-- The eight host commands, in the order of Table R56. -/
inductive Opcode where
  | config | reconstruct | setStrategy | put | query | readM | readK | exportBits
  deriving DecidableEq, Repr

/-- The opcode numbers of Table R56. -/
def Opcode.code : Opcode → BitVec 8
  | .config => 0x01
  | .reconstruct => 0x02
  | .setStrategy => 0x03
  | .put => 0x04
  | .query => 0x05
  | .readM => 0x06
  | .readK => 0x07
  | .exportBits => 0x08

/-- The command an opcode number selects; 0x00 and 0x09 to 0xFF are reserved (R58 clause (3)). -/
def Opcode.ofCode (c : BitVec 8) : Option Opcode :=
  match c.toNat with
  | 1 => some .config
  | 2 => some .reconstruct
  | 3 => some .setStrategy
  | 4 => some .put
  | 5 => some .query
  | 6 => some .readM
  | 7 => some .readK
  | 8 => some .exportBits
  | _ => none

/-- Whether the command uses the `sid` field; in every other command it must be 0 (R51). -/
def Opcode.usesSid : Opcode → Bool
  | .config => true
  | .reconstruct => true
  | .setStrategy => true
  | .put => false
  | .query => false
  | .readM => false
  | .readK => false
  | .exportBits => false

/-- Header field `opc`, bits 7:0 (R51). -/
def headerOpc (w0 : Word) : BitVec 8 := w0.extractLsb' 0 8

/-- Header field `sid`, bits 15:8 (R51). -/
def headerSid (w0 : Word) : BitVec 8 := w0.extractLsb' 8 8

/-- Header field `rsv`, bits 63:16 (R51). -/
def headerRsv (w0 : Word) : BitVec 48 := w0.extractLsb' 16 48

/-- The eight bytes of a data word, first byte in bits 7:0 (R55). -/
def wordBytes (w : Word) : List Byte :=
  [w.extractLsb' 0 8, w.extractLsb' 8 8, w.extractLsb' 16 8, w.extractLsb' 24 8,
   w.extractLsb' 32 8, w.extractLsb' 40 8, w.extractLsb' 48 8, w.extractLsb' 56 8]

/-- The word that holds up to eight bytes, first byte in bits 7:0, the unused upper bytes 0 (R55). -/
def bytesWord : List Byte → Word
  | [] => 0
  | b :: bs => b.zeroExtend 64 ||| (bytesWord bs <<< 8)

/-- `ceil(L / 8)`, the number of data words of `L` bytes (R52). -/
def dataWordCount (len : Nat) : Nat := (len + 7) / 8

/-- The data words of a byte sequence: data byte `t` in byte `t mod 8` of data word `t div 8` (R55). -/
def packBytes (data : List Byte) : List Word :=
  (List.range (dataWordCount data.length)).map fun j => bytesWord ((data.drop (8 * j)).take 8)

/-- The operand of format FB, from the words after the header: the count word `L`, then the data words (R52, R55).
The length must fit and the bytes above the `L`-th must be 0 (R58 clauses (5), (6)). -/
def decodeBytes : List Word → Except DecodeError (List Byte)
  | [] => .error .lengthMismatch
  | len :: ws =>
    if ws.length ≠ dataWordCount len.toNat then .error .lengthMismatch
    else if ((ws.flatMap wordBytes).drop len.toNat).all (· == 0) then .ok ((ws.flatMap wordBytes).take len.toNat)
    else .error .nonzeroPadding

/-- Format F0: header only (R52). -/
def decodeF0 (i : Instr) : List Word → Except DecodeError Instr
  | [] => .ok i
  | _ :: _ => .error .lengthMismatch

/-- Format F2 of CONFIG: `m_raw` and `k` (R52). -/
def decodeF2 (sid : BitVec 8) : List Word → Except DecodeError Instr
  | [mRaw, k] => .ok (.config sid mRaw k)
  | _ => .error .lengthMismatch

/-- Format FW of RECONSTRUCT: `W`, `k`, then exactly `W` words (R52, R60). -/
def decodeFW (sid : BitVec 8) : List Word → Except DecodeError Instr
  | w :: k :: words => if words.length = w.toNat then .ok (.reconstruct sid k words) else .error .lengthMismatch
  | _ => .error .lengthMismatch

/-- The operands of a command, from the words after the header, by its format (R52). -/
def decodeOperands (op : Opcode) (sid : BitVec 8) (ws : List Word) : Except DecodeError Instr :=
  match op with
  | .config => decodeF2 sid ws
  | .reconstruct => decodeFW sid ws
  | .setStrategy => decodeF0 (.setStrategy sid) ws
  | .put => (decodeBytes ws).map .put
  | .query => (decodeBytes ws).map .query
  | .readM => decodeF0 .readM ws
  | .readK => decodeF0 .readK ws
  | .exportBits => decodeF0 .exportBits ws

/-- The command a packet is, or the clause of R58 that makes it malformed. -/
def decodePacket : List Word → Except DecodeError Instr
  | [] => .error .emptyPacket
  | w0 :: ws =>
    if headerRsv w0 ≠ 0 then .error .reservedHeaderBits
    else
      match Opcode.ofCode (headerOpc w0) with
      | none => .error .reservedOpcode
      | some op =>
        if op.usesSid = false ∧ headerSid w0 ≠ 0 then .error .sidNotZero
        else decodeOperands op (headerSid w0) ws

/-- The port operation a request is (Table R57). -/
def decodeRequest : PortRequest → Except DecodeError Instr
  | .bitstore op addr wdata =>
    match op.toNat with
    | 0 => .ok (.bsAlloc addr)
    | 1 => .ok (.bsSet addr)
    | 2 => .ok (.bsTest addr)
    | 3 => .ok (.bsRdWord addr)
    | 4 => .ok (.bsWrWord addr wdata)
    | _ => .error .reservedPortOp
  | .hash data => .ok (.hash128 data)

/-- The instruction a packet or request carries. -/
def decode : Message → Except DecodeError Instr
  | .command packet => decodePacket packet
  | .request r => decodeRequest r

/-- The opcode echo of a response: bits 7:0 of the command header, 0 when the packet was empty (R53). -/
def opcEcho : List Word → BitVec 8
  | [] => 0
  | w0 :: _ => headerOpc w0

/-- A command header: `opc` in bits 7:0, `sid` in bits 15:8, `rsv` 0 (R51). -/
def commandHeader (op : Opcode) (sid : BitVec 8) : Word := op.code.zeroExtend 64 ||| (sid.zeroExtend 64 <<< 8)

/-- The words of an FB packet after the header: `L` and the packed bytes (R52, R55). -/
def encodeBytes (data : List Byte) : List Word := BitVec.ofNat 64 data.length :: packBytes data

/-- The packet or request of an instruction (R52, R55, R57). `wdata` is 0 where the port ignores it (log 23). -/
def encode : Instr → Message
  | .config sid mRaw k => .command [commandHeader .config sid, mRaw, k]
  | .reconstruct sid k words =>
    .command (commandHeader .reconstruct sid :: BitVec.ofNat 64 words.length :: k :: words)
  | .setStrategy sid => .command [commandHeader .setStrategy sid]
  | .put data => .command (commandHeader .put 0 :: encodeBytes data)
  | .query data => .command (commandHeader .query 0 :: encodeBytes data)
  | .readM => .command [commandHeader .readM 0]
  | .readK => .command [commandHeader .readK 0]
  | .exportBits => .command [commandHeader .exportBits 0]
  | .bsAlloc m => .request (.bitstore 0b000 m 0)
  | .bsSet b => .request (.bitstore 0b001 b 0)
  | .bsTest b => .request (.bitstore 0b010 b 0)
  | .bsRdWord j => .request (.bitstore 0b011 j 0)
  | .bsWrWord j w => .request (.bitstore 0b100 j w)
  | .hash128 data => .request (.hash data)

/-- The packet length `N` the header and count word ask for (R52); 1 for a reserved opcode. -/
def packetLength (w0 w1 : Word) : Nat :=
  match Opcode.ofCode (headerOpc w0) with
  | some .config => 3
  | some .reconstruct => 3 + w1.toNat
  | some .put => 2 + dataWordCount w1.toNat
  | some .query => 2 + dataWordCount w1.toNat
  | some .setStrategy => 1
  | some .readM => 1
  | some .readK => 1
  | some .exportBits => 1
  | none => 1

/-- Word `j` of a number whose bit 0 is the least significant bit of the first word. -/
def tableWord (w j : Nat) : Word := BitVec.ofNat 64 (w / 2 ^ (64 * j))

/-- The message that the low `nbits` bits of `w` stand for, every bit above them 0. A table row of whole 64-bit words
is a command packet, lengthened with zero words to the length its own header and count word ask for. A row of 0 bits
is a request on the HASH port, which has no op field. Any other width is a BITSTORE request, `op` in bits 2:0, `addr`
in bits 66:3, `wdata` in bits 130:67. Log 18. -/
def tableMessage (nbits w : Nat) : Message :=
  let v := w % 2 ^ nbits
  if nbits = 0 then .request (.hash [])
  else if nbits % 64 = 0 then
    .command ((List.range (max (nbits / 64) (packetLength (tableWord v 0) (tableWord v 1)))).map (tableWord v))
  else .request (.bitstore (BitVec.ofNat 3 v) (BitVec.ofNat 64 (v / 2 ^ 3)) (BitVec.ofNat 64 (v / 2 ^ 67)))

/-- The instruction the decoder reads from bits numbered as spec/opcode_table.json numbers them. -/
def decodeTableWord (nbits w : Nat) : Option Instr :=
  match decode (tableMessage nbits w) with
  | .ok i => some i
  | .error _ => none

end Sys2Proof
end

