-- ==== Sys2Proof/Machine/State.lean ====
section
/-! DEFINITION. The state of the engine (spec/10_state.md), its primitive ports and the host's side of the command
port, all plain data; the ways a step can stop; and the state after reset (spec/70_reset_and_hazards.md R151). -/

namespace Sys2Proof.Machine

/-- The cells of the bit store, by word address: only words that are not 0 are listed, addresses strictly rising
(`Memory.wf`). The store's unit is the 64-bit word; it is never accessed by bytes (R19, R32). An unlisted word reads
0, which is what a newly allocated word holds (R80). Log 9. -/
abbrev Memory := List (Nat × Word)

/-- The bit store `BITS` (R19): `len` words, of which `mem` lists those that are not 0. Its length is the store's
own, set by BS_ALLOC (R80); on a configured engine it is `M div 64` (R23). Log 10. -/
structure BitStore where
  len : Nat
  mem : Memory
  deriving DecidableEq, Repr

/-- The working registers of the index generator (R10, R12). They are not architectural: no command reads what an
earlier one left in them (R22). Log 1, log 2. -/
structure Work where
  /-- `C`, the running combined hash value. -/
  c : Word
  /-- `H2`, the stride. -/
  h2 : Word
  /-- `I`, the iteration counter. -/
  i : Word
  /-- `ACC`, QUERY's conjunction so far. -/
  acc : Bool
  deriving DecidableEq, Repr

/-- What the host does next (70_reset_and_hazards.md section 5): it sends a command packet, or asserts reset, which
it may do only between commands (R150). -/
inductive HostEvent where
  | packet (ws : List Word)
  | reset
  deriving DecidableEq, Repr

/-- What a primitive answers to a request (Table R57). -/
inductive PortAnswer where
  /-- BS_ALLOC, BS_SET, BS_WRWORD: no rdata. -/
  | done
  /-- BS_TEST, BS_RDWORD: the `rdata` word. -/
  | rdata (w : Word)
  /-- HASH128: `{h1, h2}`. -/
  | hash (h1 h2 : Word)
  deriving DecidableEq, Repr

/-- The whole state. There is no program counter, register file, interrupt, privilege or timer state (R10, R11, R17,
R18, R137, R140, R142). -/
structure State where
  /-- `CFG`: a filter exists (R16). -/
  cfg : Bool
  /-- `M`, the padded capacity in bits (R13). -/
  m : Word
  /-- `K`, the index count (R14). -/
  k : Word
  /-- `SID`, the selected HashStrategy (R15). -/
  sid : BitVec 8
  /-- `BITS` (R19). -/
  bits : BitStore
  /-- `C`, `H2`, `I`, `ACC` (R10, R12). -/
  work : Work
  /-- What the host has still to send, oldest first: one command at a time, in order (R40, R154). Log 13. -/
  inbox : List HostEvent
  /-- The response packets delivered to the host, oldest first (R53, R154). Log 13. -/
  outbox : List (List Word)
  /-- Requests on the primitive ports that are not answered yet, oldest first (R21, R57): none between commands, and
  none at level T. Log 15. -/
  requests : List PortRequest
  /-- The answers the primitives have given at the ports, oldest first (R57). Log 15. -/
  answers : List PortAnswer
  deriving DecidableEq, Repr

/-- Why the machine stops with a fault. Every one is safe: the spec gives the case no effect. -/
inductive Fault where
  /-- A bit address at or above the store's length: BS_SET and BS_TEST at the port; PUT and QUERY only in a state no
  run reaches (R34, "a model must not give such an access a value"). Safe. -/
  | bitAddressOutOfRange
  /-- A word address at or above the store's word count: BS_RDWORD and BS_WRWORD at the port; EXPORT only in a state
  no run reaches (R34). Safe. -/
  | wordAddressOutOfRange
  /-- BS_ALLOC with a length that is not a multiple of 64 between 64 and `M_MAX` (R80, "the engine never issues it
  otherwise"; log 11). Safe. -/
  | allocOutOfContract
  /-- BITSTORE op 0b101 to 0b111 on the port: "reserved and never issued" (R57). Raised by the port, not by an
  instruction (log 12). Safe. -/
  | reservedPortOp
  /-- PUT or QUERY in a configured state whose `SID` names no implemented strategy, which no run reaches (R23; log 22).
  Safe. -/
  | strategyAbsent
  deriving DecidableEq, Repr

/-- Why an instruction has no meaning in the model. -/
inductive Refusal where
  /-- The instruction's arm of `exec` has no meaning yet; raised by `exec` alone, by no instruction now. Safe. -/
  | notModelled (mnemonic : String)
  deriving DecidableEq, Repr

/-- The state after reset (R151, R152): `CFG`, `M`, `K`, `SID` 0, the store of length 0. The working registers have
no reset value in the spec and are 0 here (log 1); nothing is pending at the ports (log 13, log 15). -/
def State.reset : State where
  cfg := false
  m := 0
  k := 0
  sid := 0
  bits := { len := 0, mem := [] }
  work := { c := 0, h2 := 0, i := 0, acc := false }
  inbox := []
  outbox := []
  requests := []
  answers := []

end Sys2Proof.Machine
end

