-- ==== Sys2Proof/Machine/Ops.lean ====
section
/-! DEFINITION. The named operations over the bit store and the registers, responses, and the one shared operation
that raises an error response (spec/41_bitstore.md, spec/60_exceptions.md, spec/30_encoding.md R53). -/

namespace Sys2Proof.Machine

/-! ### Memory: the word cells -/

/-- The word at address `j`; an unlisted word is 0. -/
def Memory.read : Memory → Nat → Word
  | [], _ => 0
  | (a, v) :: rest, j => if j = a then v else Memory.read rest j

/-- A cell in front of a memory, left out when its word is 0: an unlisted word already reads 0. -/
def Memory.cons (j : Nat) (w : Word) (rest : Memory) : Memory :=
  if w = 0 then rest else (j, w) :: rest

/-- The memory with word `w` at address `j`, canonical form kept. -/
def Memory.write : Memory → Nat → Word → Memory
  | [], j, w => Memory.cons j w []
  | (a, v) :: rest, j, w =>
    if j < a then Memory.cons j w ((a, v) :: rest)
    else if j = a then Memory.cons j w rest
    else (a, v) :: Memory.write rest j w

/-- Canonical form from address `lo` on: addresses strictly rising, no word 0. -/
def Memory.wfFrom : Nat → Memory → Bool
  | _, [] => true
  | lo, (a, v) :: rest => decide (lo ≤ a) && (v != 0) && Memory.wfFrom (a + 1) rest

/-- Canonical form: addresses strictly rising, no listed word 0. -/
def Memory.wf (mem : Memory) : Bool := Memory.wfFrom 0 mem

/-! ### The bit store (spec/41_bitstore.md) -/

/-- Canonical form, and no cell above the store's length. -/
def BitStore.wf (st : BitStore) : Bool := st.mem.wf && st.mem.all fun c => decide (c.1 < st.len)

/-- The unconfigured store: the empty word sequence (R152). -/
def BitStore.empty : BitStore := { len := 0, mem := [] }

/-- `Alloc(m)`: the store has `m div 64` words, every one 0 (R80). -/
def BitStore.alloc (m : Nat) : BitStore := { len := m / 64, mem := [] }

/-- Whether `b` is a bit address of the store: `0 ≤ b < M` (R34, R81, R82). -/
def BitStore.hasBit (st : BitStore) (b : Nat) : Bool := decide (b < 64 * st.len)

/-- Whether `j` is a word address of the store: `0 ≤ j < M div 64` (R34, R83, R84). -/
def BitStore.hasWord (st : BitStore) (j : Nat) : Bool := decide (j < st.len)

/-- `WordRead(j)` (R83). -/
def BitStore.wordRead (st : BitStore) (j : Nat) : Word := st.mem.read j

/-- `WordWrite(j, w)`: all 64 bits are replaced (R84). -/
def BitStore.wordWrite (st : BitStore) (j : Nat) (w : Word) : BitStore := { st with mem := st.mem.write j w }

/-- The word with only bit `b mod 64` set (R30, R81). -/
def bitMask (b : Nat) : Word := (1 : Word) <<< (b % 64)

/-- `BitSet(b)`: `BITS[b div 64] <- BITS[b div 64] | (1 << (b mod 64))` (R81). -/
def BitStore.bitSet (st : BitStore) (b : Nat) : BitStore :=
  st.wordWrite (b / 64) (st.wordRead (b / 64) ||| bitMask b)

/-- `BitTest(b) = (BITS[b div 64] >> (b mod 64)) & 1` (R82). -/
def BitStore.bitTest (st : BitStore) (b : Nat) : Word := (st.wordRead (b / 64) >>> (b % 64)) &&& 1

/-- The sets of one PUT, in the reference order, ascending `i` (R103). -/
def BitStore.setAll (st : BitStore) : List Word → BitStore
  | [] => st
  | b :: bs => (st.bitSet b.toNat).setAll bs

/-- The word writes of `importWords` from word address `j` on, ascending (R84). -/
def BitStore.writeFrom (st : BitStore) : Nat → List Word → BitStore
  | _, [] => st
  | j, w :: ws => (st.wordWrite j w).writeFrom (j + 1) ws

/-- `importWords(sequence)`: capacity `64 * len(sequence)`, then every word written (R84). -/
def BitStore.importWords (ws : List Word) : BitStore := (BitStore.alloc (64 * ws.length)).writeFrom 0 ws

/-- The first `n` words in ascending order: `exportWords()` for `n = M div 64` (R83, R31). -/
def BitStore.exportWords (st : BitStore) (n : Nat) : List Word := (List.range n).map st.wordRead

/-! ### Registers and ports: one named update each -/

/-- Write the bit store. -/
def State.setBits (s : State) (st : BitStore) : State := { s with bits := st }

/-- Write `SID` (R102). -/
def State.setSid (s : State) (sid : BitVec 8) : State := { s with sid := sid }

/-- Write the working registers. -/
def State.setWork (s : State) (w : Work) : State := { s with work := w }

/-- What is left of the host's events. -/
def State.setInbox (s : State) (es : List HostEvent) : State := { s with inbox := es }

/-- What is left of the requests on the primitive ports. -/
def State.setRequests (s : State) (rs : List PortRequest) : State := { s with requests := rs }

/-- The answers given at the primitive ports. -/
def State.setAnswers (s : State) (as : List PortAnswer) : State := { s with answers := as }

/-- A primitive answers at its port (R57). -/
def State.answer (s : State) (a : PortAnswer) : State := { s with answers := s.answers ++ [a] }

/-- A response packet is delivered to the host (R50). -/
def State.deliver (s : State) (packet : List Word) : State := { s with outbox := s.outbox ++ [packet] }

/-- A successful CONFIG or RECONSTRUCT: the new store, `M <- m; K <- k; SID <- sid; CFG <- 1` (R100, R101). -/
def State.install (s : State) (st : BitStore) (m k : Word) (sid : BitVec 8) : State :=
  { s with bits := st, m := m, k := k, sid := sid, cfg := true }

/-- The reset event (R150, R151): everything is as after reset, but for what the host has still to send and what has
been delivered already. Log 14. -/
def State.resetEvent (s : State) : State :=
  { State.reset with inbox := s.inbox, outbox := s.outbox, answers := s.answers }

/-! ### Responses and error responses -/

/-- The five status codes (R130). -/
inductive Status where
  | ok | malformed | invalidParam | notConfigured | capacity
  deriving DecidableEq, Repr

/-- The numbers of Table R130. -/
def Status.code : Status → BitVec 8
  | .ok => 0x00
  | .malformed => 0x01
  | .invalidParam => 0x02
  | .notConfigured => 0x03
  | .capacity => 0x04

/-- The response header: opcode echo in bits 7:0, status in bits 15:8, bits 63:16 zero (R53). -/
def responseHeader (echo : BitVec 8) (st : Status) : Word := echo.zeroExtend 64 ||| (st.code.zeroExtend 64 <<< 8)

/-- The OK response to a command, with its payload (R53). -/
def State.respondOk (s : State) (op : Opcode) (payload : List Word) : State :=
  s.deliver (responseHeader op.code .ok :: payload)

/-- Taking an exception, which on this hardware is the sending of an error response (R138): the header alone, and no
change to `CFG`, `M`, `K`, `SID`, `BITS` (R131). There is no handler, nothing is saved, and no return from it exists:
the engine takes any next command (R139). -/
def State.respondError (s : State) (echo : BitVec 8) (st : Status) : State :=
  s.deliver [responseHeader echo st]

/-- A command ends with an error response. -/
def raise (op : Opcode) (st : Status) (s : State) : Host.Outcome State Fault Refusal :=
  .next (s.respondError op.code st)

/-- The check every command but CONFIG and RECONSTRUCT makes first: `ERR_NOT_CONFIGURED` while `CFG` = 0 (R135). -/
def whenConfigured (op : Opcode) (s : State) (run : Host.Outcome State Fault Refusal) :
    Host.Outcome State Fault Refusal :=
  if s.cfg then run else raise op .notConfigured s

end Sys2Proof.Machine
end

