-- ==== Sys2Proof/Machine/Accessors.lean ====
section
/-! DEFINITION. The commands that read the filter out: READ_M, READ_K (spec/43_filter_ops.md section 3) and EXPORT
(spec/44_serialize.md R120). -/

namespace Sys2Proof.Machine

/-- READ_M (R106): the padded capacity. -/
def execReadM (s : State) : Host.Outcome State Fault Refusal :=
  whenConfigured .readM s (.next (s.respondOk .readM [s.m]))

/-- READ_K (R107). -/
def execReadK (s : State) : Host.Outcome State Fault Refusal :=
  whenConfigured .readK s (.next (s.respondOk .readK [s.k]))

/-- EXPORT (R120): `WordRead(0)` to `WordRead(M div 64 − 1)`. In a state no run reaches the store may be shorter than
`M` says (R34): a fault. -/
def execExport (s : State) : Host.Outcome State Fault Refusal :=
  whenConfigured .exportBits s
    (if s.m.toNat / 64 ≤ s.bits.len then .next (s.respondOk .exportBits (s.bits.exportWords (s.m.toNat / 64)))
     else .fault .wordAddressOutOfRange)

end Sys2Proof.Machine
end

