-- ==== Sys2Proof/Machine/Operands.lean ====
section
/-! DEFINITION. Operand values (spec/30_encoding.md R54): the padded capacity and the capacity of a word list, both in
unbounded integers. Every other operand is the unsigned value of its whole word, and the byte operand is assembled by
the decoder (R55). -/

namespace Sys2Proof.Machine

/-- `pad64(x) = 64 * ceil(x / 64)`, in unbounded integers (R85). -/
def pad64 (x : Nat) : Nat := 64 * ((x + 63) / 64)

/-- The capacity CONFIG asks for: `pad64(m_raw)`, in unbounded integers (R54, R100). -/
def configCapacity (mRaw : Word) : Nat := pad64 mRaw.toNat

/-- The capacity RECONSTRUCT asks for: `64 * W`, in unbounded integers (R54, R101). -/
def wordsCapacity (words : List Word) : Nat := 64 * words.length

/-- Whether a capacity fits the store; if not the answer is `ERR_CAPACITY` (R136). -/
def fitsCapacity (m : Nat) : Bool := decide (m ≤ Config.mMax)

end Sys2Proof.Machine
end

