-- ==== Sys2Proof/Machine/BitStorePort.lean ====
section
/-! DEFINITION. The five operations of the BITSTORE port (spec/41_bitstore.md R80 to R84). They act on the store alone
and answer at the port; outside their contract the spec gives them no effect (R34): a fault. -/

namespace Sys2Proof.Machine

/-- BS_ALLOC `m` (R80): `m` a multiple of 64 with `64 ≤ m ≤ M_MAX`. The old content and length are lost. -/
def execBsAlloc (m : Word) (s : State) : Host.Outcome State Fault Refusal :=
  if m.toNat % 64 = 0 ∧ 64 ≤ m.toNat ∧ fitsCapacity m.toNat then
    .next ((s.setBits (BitStore.alloc m.toNat)).answer .done)
  else .fault .allocOutOfContract

/-- BS_SET `b` (R81): one bit becomes 1; no result. -/
def execBsSet (b : Word) (s : State) : Host.Outcome State Fault Refusal :=
  if s.bits.hasBit b.toNat then .next ((s.setBits (s.bits.bitSet b.toNat)).answer .done)
  else .fault .bitAddressOutOfRange

/-- BS_TEST `b` (R82): `rdata` bit 0 is the bit, bits 63:1 are 0; no state is written. -/
def execBsTest (b : Word) (s : State) : Host.Outcome State Fault Refusal :=
  if s.bits.hasBit b.toNat then .next (s.answer (.rdata (s.bits.bitTest b.toNat)))
  else .fault .bitAddressOutOfRange

/-- BS_RDWORD `j` (R83): `rdata` is `BITS[j]`; no state is written. -/
def execBsRdWord (j : Word) (s : State) : Host.Outcome State Fault Refusal :=
  if s.bits.hasWord j.toNat then .next (s.answer (.rdata (s.bits.wordRead j.toNat)))
  else .fault .wordAddressOutOfRange

/-- BS_WRWORD `j, w` (R84): `BITS[j] <- w`, all 64 bits. -/
def execBsWrWord (j w : Word) (s : State) : Host.Outcome State Fault Refusal :=
  if s.bits.hasWord j.toNat then .next ((s.setBits (s.bits.wordWrite j.toNat w)).answer .done)
  else .fault .wordAddressOutOfRange

end Sys2Proof.Machine
end

