-- ==== Sys2Proof/Machine/Indexes.lean ====
section
/-! DEFINITION. HashStrategy, the double-hash index generator (spec/42_index_generation.md R90 to R97). -/

namespace Sys2Proof.Machine

/-- `0x7fffffffffffffff`, the mask that clears bit 63 before the modulo (R93). -/
def mask63 : Word := 0x7fffffffffffffff

/-- `C <- h1; H2 <- h2; I <- 0` (R92); `ACC` is not the generator's. -/
def Work.start (w : Work) (h : Word × Word) : Work := { w with c := h.1, h2 := h.2, i := 0 }

/-- `(C & 0x7fffffffffffffff) mod m`, unsigned, on full-width values (R93, R95). -/
def Work.index (w : Work) (m : Word) : Word := (w.c &&& mask63) % m

/-- `C <- C +64 H2; I <- I + 1`: unsigned wraparound addition, the carry discarded (R94). -/
def Work.advance (w : Work) : Work := { w with c := w.c + w.h2, i := w.i + 1 }

/-- `n` iterations of the loop of R92 from working registers `w`: the indices in order, and the registers left. -/
def generate (m : Word) : Nat → Work → List Word × Work
  | 0, w => ([], w)
  | n + 1, w =>
    let rest := generate m n w.advance
    (w.index m :: rest.1, rest.2)

/-- The loop of R92 makes exactly one index per iteration. -/
theorem length_generate (m : Word) (n : Nat) : ∀ w, (generate m n w).1.length = n := by
  induction n with
  | zero => intro w; rfl
  | succ n ih => intro w; simp [generate, ih]

/-- Every index is a residue modulo `m` (R95). -/
theorem generate_lt (m : Word) (hm : 0 < m.toNat) (n : Nat) :
    ∀ w, ∀ b ∈ (generate m n w).1, b.toNat < m.toNat := by
  induction n with
  | zero => intro w b hb; simp [generate] at hb
  | succ n ih =>
    intro w b hb
    simp only [generate, List.mem_cons] at hb
    rcases hb with rfl | hb
    · simpa [Work.index, BitVec.toNat_umod] using Nat.mod_lt _ hm
    · exact ih _ b hb

/-- The working registers before the loop, for the reference strategy on `data`: the hash is requested once (R91). -/
def referenceStart (data : List Byte) (w : Work) : Work := w.start (Config.h128 data)

/-- The reference `Indexes(data, m, k)`: double hashing over `H128` (R92). What the registers hold before the loop
does not matter, since it starts them (R22). -/
def referenceIndexes (data : List Byte) (m k : Word) : List Word :=
  (generate m k.toNat (referenceStart data { c := 0, h2 := 0, i := 0, acc := false })).1

/-- The reference strategy with its contract (R90, R92). -/
def referenceStrategy : Strategy where
  indexes := referenceIndexes
  length_indexes := by intro data m k _ _ _; exact length_generate m k.toNat _
  indexes_lt := by intro data m k hm _ _; exact generate_lt m (by omega) k.toNat _

/-- `STRATEGIES`: id 0 is always the reference strategy; the others are the implementation's (R59, R97). -/
def strategies (sid : BitVec 8) : Option Strategy :=
  if sid = 0 then some referenceStrategy else Config.otherStrategy sid

/-- Whether `STRATEGIES[sid]` is implemented; if not CONFIG, RECONSTRUCT and SET_STRATEGY answer
`ERR_INVALID_PARAM` (R59, R134). -/
def implemented (sid : BitVec 8) : Bool := (strategies sid).isSome

/-- `Indexes(sid, data, m, k) = STRATEGIES[sid](data, m, k)`, where the strategy is implemented. -/
def indexes (sid : BitVec 8) (data : List Byte) (m k : Word) : Option (List Word) :=
  (strategies sid).map fun st => st.indexes data m k

/-- What `C`, `H2`, `I` hold after the indices are made: the reference loop's last values, its final addition
included (log 2); another strategy writes no engine state (R90; log 3). -/
def workAfter (sid : BitVec 8) (data : List Byte) (m k : Word) (w : Work) : Work :=
  if sid = 0 then (generate m k.toNat (referenceStart data w)).2 else w

/-- The indices of PUT and QUERY in a configured state, `Indexes(SID, data, M, K)` (R103, R104), given to `run`. In a
state no run reaches they may not exist or may lie outside the store (R34): a fault. -/
def withIndexes (data : List Byte) (s : State) (run : List Word → Host.Outcome State Fault Refusal) :
    Host.Outcome State Fault Refusal :=
  match indexes s.sid data s.m s.k with
  | none => .fault .strategyAbsent
  | some idx => if idx.all fun b => s.bits.hasBit b.toNat then run idx else .fault .bitAddressOutOfRange

end Sys2Proof.Machine
end

