-- ==== Sys2Proof/Machine/Create.lean ====
section
/-! DEFINITION. The commands that write control registers: CONFIG, RECONSTRUCT, SET_STRATEGY
(spec/43_filter_ops.md section 1). All checks precede all writes (R131); priority R133. -/

namespace Sys2Proof.Machine

/-- CONFIG `m_raw, k, sid` (R100): legal whether or not a filter exists; a failed one leaves the old filter. -/
def execConfig (sid : BitVec 8) (mRaw k : Word) (s : State) : Host.Outcome State Fault Refusal :=
  if mRaw = 0 ∨ k = 0 ∨ implemented sid = false then raise .config .invalidParam s
  else if fitsCapacity (configCapacity mRaw) then
    .next ((s.install (BitStore.alloc (configCapacity mRaw)) (BitVec.ofNat 64 (configCapacity mRaw)) k sid).respondOk
      .config [])
  else raise .config .capacity s

/-- RECONSTRUCT `words, k, sid` (R101): `M` is always `64 * W`; every word value is accepted. -/
def execReconstruct (sid : BitVec 8) (k : Word) (words : List Word) (s : State) : Host.Outcome State Fault Refusal :=
  if words.length = 0 ∨ k = 0 ∨ implemented sid = false then raise .reconstruct .invalidParam s
  else if fitsCapacity (wordsCapacity words) then
    .next ((s.install (BitStore.importWords words) (BitVec.ofNat 64 (wordsCapacity words)) k sid).respondOk
      .reconstruct [])
  else raise .reconstruct .capacity s

/-- SET_STRATEGY `sid` (R102): `M`, `K` and `BITS` are unchanged, and a late change is not refused (R157). -/
def execSetStrategy (sid : BitVec 8) (s : State) : Host.Outcome State Fault Refusal :=
  whenConfigured .setStrategy s
    (if implemented sid then .next ((s.setSid sid).respondOk .setStrategy []) else raise .setStrategy .invalidParam s)

end Sys2Proof.Machine
end

