-- ==== Sys2Proof/Machine/HashPort.lean ====
section
/-! DEFINITION. The one operation of the HASH port (spec/42_index_generation.md R91). -/

namespace Sys2Proof.Machine

/-- HASH128 `data` (R91): answers `(h1, h2)`, total, and writes no engine state. -/
def execHash128 (data : List Byte) (s : State) : Host.Outcome State Fault Refusal :=
  .next (s.answer (.hash (Config.h128 data).1 (Config.h128 data).2))

end Sys2Proof.Machine
end

