-- ==== Sys2Proof/Machine/Flags.lean ====
section
/-! DEFINITION. The one condition flag, `ACC`, local to QUERY (spec/10_state.md R12; spec/43_filter_ops.md R104). -/

namespace Sys2Proof.Machine

/-- `ACC` after QUERY's loop: 1 at the start, 0 at the first tested bit that reads 0, where the loop breaks (R104).
It is the conjunction of the tests, since a test has no side effect (R105). -/
def accOf (st : BitStore) : List Word → Bool
  | [] => true
  | b :: bs => if st.bitTest b.toNat = 0 then false else accOf st bs

/-- `ACC` as QUERY's payload word: 1 or 0 (R53, R104). -/
def accWord (acc : Bool) : Word := if acc then 1 else 0

end Sys2Proof.Machine
end

