-- ==== Sys2Proof/Machine/Membership.lean ====
section
/-! DEFINITION. PUT and QUERY (spec/43_filter_ops.md section 2). -/

namespace Sys2Proof.Machine

/-- PUT `data` (R103): every indexed bit is set, nothing else changes, and no payload is sent. -/
def execPut (data : List Byte) (s : State) : Host.Outcome State Fault Refusal :=
  whenConfigured .put s <| withIndexes data s fun idx =>
    .next (((s.setBits (s.bits.setAll idx)).setWork (workAfter s.sid data s.m s.k s.work)).respondOk .put [])

/-- QUERY `data` (R104): the payload is `ACC`, 1 when every indexed bit is 1, else 0. `ACC` is the only register it
leaves a value in, beside the generator's. -/
def execQuery (data : List Byte) (s : State) : Host.Outcome State Fault Refusal :=
  whenConfigured .query s <| withIndexes data s fun idx =>
    .next ((s.setWork { workAfter s.sid data s.m s.k s.work with acc := accOf s.bits idx }).respondOk .query
      [accWord (accOf s.bits idx)])

end Sys2Proof.Machine
end

