-- ==== Sys2Proof/Machine/Dispatch.lean ====
section
/-! DEFINITION. What an instruction does: one arm per constructor of `Instr`. -/

namespace Sys2Proof.Machine

def exec (i : Instr) (s : State) : Host.Outcome State Fault Refusal :=
  match i with
  | .config sid mRaw k => Sys2Proof.Machine.execConfig sid mRaw k s
  | .reconstruct sid k words => Sys2Proof.Machine.execReconstruct sid k words s
  | .setStrategy sid => Sys2Proof.Machine.execSetStrategy sid s
  | .put data => Sys2Proof.Machine.execPut data s
  | .query data => Sys2Proof.Machine.execQuery data s
  | .readM => Sys2Proof.Machine.execReadM s
  | .readK => Sys2Proof.Machine.execReadK s
  | .exportBits => Sys2Proof.Machine.execExport s
  | .bsAlloc m => Sys2Proof.Machine.execBsAlloc m s
  | .bsSet b => Sys2Proof.Machine.execBsSet b s
  | .bsTest b => Sys2Proof.Machine.execBsTest b s
  | .bsRdWord j => Sys2Proof.Machine.execBsRdWord j s
  | .bsWrWord j w => Sys2Proof.Machine.execBsWrWord j w s
  | .hash128 data => Sys2Proof.Machine.execHash128 data s

end Sys2Proof.Machine
end

