-- ==== Sys2Proof/Machine/Arrival.lean ====
section
/-! DEFINITION. What the machine does with what arrives at its ports: a command packet, a reset event, a request at a
primitive port (spec/30_encoding.md R50, R57, R58; spec/70_reset_and_hazards.md R150). -/

namespace Sys2Proof.Machine

/-- A command packet: executed as one atomic step if it decodes (R6), else answered `ERR_MALFORMED` with the opcode
echo and no state change (R58, R132). -/
def acceptPacket (packet : List Word) (s : State) : Host.Outcome State Fault Refusal :=
  match decode (.command packet) with
  | .ok i => exec i s
  | .error _ => .next (s.respondError (opcEcho packet) .malformed)

/-- A request at a primitive port: the primitive executes it and answers (R57); a reserved op has no meaning. -/
def serveRequest (r : PortRequest) (s : State) : Host.Outcome State Fault Refusal :=
  match decode (.request r) with
  | .ok i => exec i s
  | .error _ => .fault .reservedPortOp

/-- What the host does next: a packet, or reset between commands (R150). -/
def acceptHostEvent (e : HostEvent) (s : State) : Host.Outcome State Fault Refusal :=
  match e with
  | .packet ws => acceptPacket ws s
  | .reset => .next s.resetEvent

/-- A message put where the next step takes it: a packet as the host's next event, with no port request before it; a
request as the oldest of its port. -/
def State.arrive (s : State) (msg : Message) : State :=
  match msg with
  | .command packet => (s.setRequests []).setInbox (.packet packet :: s.inbox)
  | .request r => s.setRequests (r :: s.requests)

end Sys2Proof.Machine
end

