-- ==== Sys2Proof/Machine/Step.lean ====
section
/-! DEFINITION. One step of the machine: one command at level T (spec/00_scope.md R6; spec/20_memory.md R40), or one
primitive request where requests stand at the ports (level P). -/

namespace Sys2Proof.Machine

/-- One step. A request on a primitive port is served first, since a command ends before the next one is accepted
(R40 clause (4)); then the host's next event; with nothing to do the engine waits, and never sends an unsolicited
packet (70_reset_and_hazards.md section 5; log 13). -/
def step (s : State) : Host.Outcome State Fault Refusal :=
  match s.requests with
  | r :: rs => serveRequest r (s.setRequests rs)
  | [] =>
    match s.inbox with
    | [] => .next s
    | e :: es => acceptHostEvent e (s.setInbox es)

/-- `s` with the instruction of a table word where the next step takes it (log 13, log 18). -/
def State.withFetchWord (s : State) (nbits w : Nat) : State := s.arrive (tableMessage nbits w)

end Sys2Proof.Machine
end

