-- ==== Sys2Proof/Machine/Assembly.lean ====
section
/-! DEFINITION. The textual syntax of spec/30_encoding.md R61: an assembler for one command line, and the text of a
response. Numbers are decimal or 0x hexadecimal, data is a quoted ASCII string or x"..." with two hexadecimal digits a
byte, a word list stands in square brackets, MIGHTCONTAIN is QUERY's alias, a semicolon starts a comment. Log 24. -/

namespace Sys2Proof.Machine

/-- The pieces of a command line. -/
inductive Token where
  | name (cs : List Char)
  | number (n : Nat)
  | data (bs : List Byte)
  | comma
  | openList
  | closeList
  deriving DecidableEq, Repr

/-- The value of a hexadecimal digit. -/
def hexDigit (c : Char) : Option Nat :=
  if '0' ≤ c ∧ c ≤ '9' then some (c.toNat - '0'.toNat)
  else if 'a' ≤ c ∧ c ≤ 'f' then some (c.toNat - 'a'.toNat + 10)
  else if 'A' ≤ c ∧ c ≤ 'F' then some (c.toNat - 'A'.toNat + 10)
  else none

/-- The value of a decimal digit. -/
def decDigit (c : Char) : Option Nat := if '0' ≤ c ∧ c ≤ '9' then some (c.toNat - '0'.toNat) else none

/-- A number's digits in a base, all of them digits. -/
def digitsValue (digit : Char → Option Nat) (base : Nat) : Nat → List Char → Option Nat
  | acc, [] => some acc
  | acc, c :: cs =>
    match digit c with
    | some d => digitsValue digit base (acc * base + d) cs
    | none => none

/-- A run of letters, digits and underscores: a number if it starts with a digit, else a name. -/
def wordToken : List Char → Option Token
  | [] => none
  | '0' :: 'x' :: c :: cs => (digitsValue hexDigit 16 0 (c :: cs)).map .number
  | c :: cs => if c.isDigit then (digitsValue decDigit 10 0 (c :: cs)).map .number else some (.name (c :: cs))

/-- The bytes of a quoted ASCII string. -/
def asciiBytes : List Char → Option (List Byte)
  | [] => some []
  | c :: cs => if c.toNat < 128 then (asciiBytes cs).map (BitVec.ofNat 8 c.toNat :: ·) else none

/-- The bytes of x"...": an even number of hexadecimal digits, two a byte, in sequence order. -/
def hexBytes : List Char → Option (List Byte)
  | [] => some []
  | [_] => none
  | a :: b :: cs =>
    match hexDigit a, hexDigit b, hexBytes cs with
    | some h, some l, some bs => some (BitVec.ofNat 8 (16 * h + l) :: bs)
    | _, _, _ => none

/-- Whether a character belongs to a name or number. -/
def isWordChar (c : Char) : Bool := c.isAlphanum || c == '_'

/-- The pieces of a line; `fuel` bounds their number. -/
def tokens : Nat → List Char → Option (List Token)
  | 0, [] => some []
  | 0, _ :: _ => none
  | _ + 1, [] => some []
  | _ + 1, ';' :: _ => some []
  | fuel + 1, ' ' :: cs => tokens fuel cs
  | fuel + 1, ',' :: cs => (tokens fuel cs).map (.comma :: ·)
  | fuel + 1, '[' :: cs => (tokens fuel cs).map (.openList :: ·)
  | fuel + 1, ']' :: cs => (tokens fuel cs).map (.closeList :: ·)
  | fuel + 1, '"' :: cs =>
    match asciiBytes (cs.takeWhile (· != '"')), cs.dropWhile (· != '"') with
    | some bs, _ :: rest => (tokens fuel rest).map (.data bs :: ·)
    | _, _ => none
  | fuel + 1, 'x' :: '"' :: cs =>
    match hexBytes (cs.takeWhile (· != '"')), cs.dropWhile (· != '"') with
    | some bs, _ :: rest => (tokens fuel rest).map (.data bs :: ·)
    | _, _ => none
  | fuel + 1, c :: cs =>
    if isWordChar c then
      match wordToken (c :: cs.takeWhile isWordChar) with
      | some t => (tokens fuel (cs.dropWhile isWordChar)).map (t :: ·)
      | none => none
    else none

/-- A 64-bit operand. -/
def asmWord (n : Nat) : Option Word := if n < 2 ^ 64 then some (BitVec.ofNat 64 n) else none

/-- A strategy id. -/
def asmSid (n : Nat) : Option (BitVec 8) := if n < 2 ^ 8 then some (BitVec.ofNat 8 n) else none

/-- The elements of a word list after its first, up to the closing bracket, and what follows it. -/
def asmListTail : List Token → Option (List Word × List Token)
  | .closeList :: rest => some ([], rest)
  | .comma :: .number n :: rest =>
    match asmWord n, asmListTail rest with
    | some w, some (ws, r) => some (w :: ws, r)
    | _, _ => none
  | _ => none

/-- A word list after its opening bracket. -/
def asmList : List Token → Option (List Word × List Token)
  | .closeList :: rest => some ([], rest)
  | .number n :: rest =>
    match asmWord n, asmListTail rest with
    | some w, some (ws, r) => some (w :: ws, r)
    | _, _ => none
  | _ => none

/-- The trailing operands `k [, sid]` of CONFIG and RECONSTRUCT; sid defaults to 0. -/
def asmKSid : List Token → Option (Word × BitVec 8)
  | [.number k] => (asmWord k).map fun k => (k, 0)
  | [.number k, .comma, .number sid] =>
    match asmWord k, asmSid sid with
    | some k, some sid => some (k, sid)
    | _, _ => none
  | _ => none

/-- CONFIG's operands `m_raw, k [, sid]`. -/
def asmConfig : List Token → Option Instr
  | .number m :: .comma :: rest =>
    match asmWord m, asmKSid rest with
    | some m, some (k, sid) => some (.config sid m k)
    | _, _ => none
  | _ => none

/-- RECONSTRUCT's operands `[w0, w1, ...], k [, sid]`. -/
def asmReconstruct : List Token → Option Instr
  | .openList :: rest =>
    match asmList rest with
    | some (ws, .comma :: rest) => (asmKSid rest).map fun p => .reconstruct p.2 p.1 ws
    | _ => none
  | _ => none

/-- PUT's and QUERY's operand. -/
def asmData (make : List Byte → Instr) : List Token → Option Instr
  | [.data bs] => some (make bs)
  | _ => none

/-- SET_STRATEGY's operand. -/
def asmSetStrategy : List Token → Option Instr
  | [.number n] => (asmSid n).map .setStrategy
  | _ => none

/-- A command without operands. -/
def asmBare (i : Instr) : List Token → Option Instr
  | [] => some i
  | _ :: _ => none

/-- The command a mnemonic and its operand pieces stand for (R61). -/
def asmCommand (mnemonic : List Char) (operands : List Token) : Option Instr :=
  if mnemonic = "CONFIG".toList then asmConfig operands
  else if mnemonic = "RECONSTRUCT".toList then asmReconstruct operands
  else if mnemonic = "SET_STRATEGY".toList then asmSetStrategy operands
  else if mnemonic = "PUT".toList then asmData .put operands
  else if mnemonic = "QUERY".toList then asmData .query operands
  else if mnemonic = "MIGHTCONTAIN".toList then asmData .query operands
  else if mnemonic = "READ_M".toList then asmBare .readM operands
  else if mnemonic = "READ_K".toList then asmBare .readK operands
  else if mnemonic = "EXPORT".toList then asmBare .exportBits operands
  else none

/-- The command one line of text stands for (R61); `none` where it is no command line. -/
def assemble (line : List Char) : Option Instr :=
  match tokens line.length line with
  | some (.name mnemonic :: operands) => asmCommand mnemonic operands
  | _ => none

/-- The status a code names; 0x05 to 0xFF are reserved and never produced (R130). -/
def Status.ofCode (c : BitVec 8) : Option Status :=
  match c.toNat with
  | 0 => some .ok
  | 1 => some .malformed
  | 2 => some .invalidParam
  | 3 => some .notConfigured
  | 4 => some .capacity
  | _ => none

/-- A word list as text. -/
def wordListText (ws : List Word) : String := "[" ++ String.intercalate ", " (ws.map fun w => toString w.toNat) ++ "]"

/-- A response packet as text (R61): `-> OK`, `-> OK value`, `-> OK [w0, w1, ...]` (EXPORT) or `-> ERR_<name>`. -/
def responseText : List Word → Option String
  | [] => none
  | r0 :: payload =>
    match Status.ofCode (r0.extractLsb' 8 8) with
    | some .ok =>
      if headerOpc r0 = Opcode.exportBits.code then some ("-> OK " ++ wordListText payload)
      else
        match payload with
        | [] => some "-> OK"
        | [w] => some ("-> OK " ++ toString w.toNat)
        | _ => none
    | some .malformed => some "-> ERR_MALFORMED"
    | some .invalidParam => some "-> ERR_INVALID_PARAM"
    | some .notConfigured => some "-> ERR_NOT_CONFIGURED"
    | some .capacity => some "-> ERR_CAPACITY"
    | none => none

end Sys2Proof.Machine
end

