-- ==== Sys2Proof/Machine/Binary64.lean ====
section
/-! DEFINITION. IEEE 754 binary64 values as real numbers, each operation rounded to nearest, for the estimator's
floating-point evaluation `EST` (spec/40_estimate.md R74). Overflow is left out: the exponent has no upper bound
(log 8). No step uses this file. -/

namespace Sys2Proof.Machine

/-- The integer nearest to a real number, the even one of two equally near. -/
noncomputable def roundEven (z : ℝ) : ℤ :=
  if z - ⌊z⌋ < 1 / 2 then ⌊z⌋
  else if 1 / 2 < z - ⌊z⌋ then ⌊z⌋ + 1
  else if Even ⌊z⌋ then ⌊z⌋ else ⌊z⌋ + 1

/-- The distance of neighbouring binary64 values at `z`: 53 significant bits, and a smallest exponent of −1022. -/
noncomputable def binary64Ulp (z : ℝ) : ℝ := (2 : ℝ) ^ (max (Int.log 2 |z|) (-1022) - 52)

/-- `z` rounded to the nearest binary64 value. -/
noncomputable def binary64 (z : ℝ) : ℝ := roundEven (z / binary64Ulp z) * binary64Ulp z

end Sys2Proof.Machine
end

