-- ==== Sys2Proof/Machine/Estimate.lean ====
section
/-! DEFINITION. ParameterEstimator, the host-side function ESTIMATE (spec/40_estimate.md): the real-number formulas,
which are the normative definition (R74), and the floating-point evaluation `EST`, which agrees with them away from
rounding boundaries. No rule of the engine depends on it (R70), and nothing of the step does. -/

namespace Sys2Proof.Machine

/-- The host-side errors: InvalidParameter (R73) and MalformedSerializedInput (R125), and that a step of SERIALIZE
answered an error, so that there is no record to emit (R122). -/
inductive HostError where
  | invalidParameter
  | malformedSerializedInput
  | noRecord
  deriving DecidableEq, Repr

/-- `x = -n * ln(p) / (ln 2)^2` (R71). -/
noncomputable def estimateX (n : ℤ) (p : ℝ) : ℝ := -(n : ℝ) * Real.log p / Real.log 2 ^ 2

/-- `m_raw = ceil(x)` (R71; 90_conflicts.md C1). -/
noncomputable def bitCount (n : ℤ) (p : ℝ) : ℕ := ⌈estimateX n p⌉₊

/-- `y = (m_raw / n) * ln 2`, of the unpadded `m_raw` (R72; 90_conflicts.md C2). -/
noncomputable def estimateY (n : ℤ) (mRaw : ℕ) : ℝ := (mRaw : ℝ) / (n : ℝ) * Real.log 2

/-- `k = max(1, floor(0.5 + y))` (R72). -/
noncomputable def hashCount (n : ℤ) (mRaw : ℕ) : ℕ := max 1 ⌊1 / 2 + estimateY n mRaw⌋₊

open Classical in
/-- `ESTIMATE n, p` (R71, R72): `(m_raw, k)`, or InvalidParameter where `n < 1`, `p ≤ 0`, `p ≥ 1`, `p` is not a number
(`none`), or `m_raw` does not fit in 64 bits (R73; log 21). -/
noncomputable def estimate (n : ℤ) (p : Option ℝ) : Except HostError (ℕ × ℕ) :=
  match p with
  | none => .error .invalidParameter
  | some p =>
    if 1 ≤ n ∧ 0 < p ∧ p < 1 ∧ bitCount n p < 2 ^ 64 then .ok (bitCount n p, hashCount n (bitCount n p))
    else .error .invalidParameter

/-! ### The floating-point evaluation `EST` (R74) -/

/-- `x` in binary64, `((-1 * n) * ln(p)) / (ln(2) * ln(2))`, each operation rounded to nearest. -/
noncomputable def estX (n : ℤ) (p : ℝ) : ℝ :=
  binary64 (binary64 (binary64 (-1 * (n : ℝ)) * binary64 (Real.log p)) /
    binary64 (binary64 (Real.log 2) * binary64 (Real.log 2)))

/-- `y` in binary64, `(m_raw / n) * ln(2)`, each operation rounded to nearest. -/
noncomputable def estY (n : ℤ) (mRaw : ℕ) : ℝ := binary64 (binary64 ((mRaw : ℝ) / (n : ℝ)) * binary64 (Real.log 2))

/-- The rounding error of `x`. -/
noncomputable def estXError (n : ℤ) (p : ℝ) : ℝ := |estX n p - estimateX n p|

/-- The rounding error of `0.5 + y`: that of `y`, and that of the addition. -/
noncomputable def estYError (n : ℤ) (mRaw : ℕ) : ℝ :=
  |estY n mRaw - estimateY n mRaw| + |binary64 (1 / 2 + estY n mRaw) - (1 / 2 + estY n mRaw)|

/-- A real number lies within a rounding error, which is not 0, of an integer. -/
def NearInteger (z err : ℝ) : Prop := 0 < err ∧ |z - round z| ≤ err

open Classical in
/-- `m_raw` by `EST` (R74): the normative one, but where `x` lies within rounding error of the integer `r`, `r` or
`r + 1` as the implementation has it (U8; log 8). DESIGN CHOICE (log 8): R75's guarantee `m_raw ≥ 1` is taken to bind the
normative estimate only, so where `r` is 0, as for a real `p` so near 1 that the binary64 `x` underflows, `EST` may
answer 0. -/
noncomputable def estBitCount (n : ℤ) (p : ℝ) : ℕ :=
  if NearInteger (estimateX n p) (estXError n p) then
    (if Config.estBitCountTakesUpper n p then (round (estimateX n p) + 1).toNat else (round (estimateX n p)).toNat)
  else bitCount n p

open Classical in
/-- `k` by `EST` (R74): the normative one, but where `0.5 + y` lies within rounding error of the integer `r`, with the
floor `r - 1` or `r` as the implementation has it (U8; log 8). -/
noncomputable def estHashCount (n : ℤ) (mRaw : ℕ) : ℕ :=
  if NearInteger (1 / 2 + estimateY n mRaw) (estYError n mRaw) then
    max 1 (if Config.estHashCountTakesUpper n mRaw then (round (1 / 2 + estimateY n mRaw)).toNat
      else (round (1 / 2 + estimateY n mRaw) - 1).toNat)
  else hashCount n mRaw

open Classical in
/-- ESTIMATE by the floating-point evaluation `EST` (R74), with the refusals of R73. -/
noncomputable def estimateEst (n : ℤ) (p : Option ℝ) : Except HostError (ℕ × ℕ) :=
  match p with
  | none => .error .invalidParameter
  | some p =>
    if 1 ≤ n ∧ 0 < p ∧ p < 1 ∧ estBitCount n p < 2 ^ 64 then
      .ok (estBitCount n p, estHashCount n (estBitCount n p))
    else .error .invalidParameter

end Sys2Proof.Machine
end

