-- ==== Sys2Proof/Machine/HostSide.lean ====
section
/-! DEFINITION. The host's sequences (spec/30_encoding.md R62; spec/44_serialize.md): NEW, NEW_S, FROM, FROM_S,
MIGHTCONTAIN, SERIALIZE, DESERIALIZE, over an abstract record (its textual syntax is out of scope, R5 clause (f)). -/

namespace Sys2Proof.Machine

/-- A sequence of commands, one after another, stopping at the first fault or refusal (R40, R154). -/
def execAll : List Instr → State → Host.Outcome State Fault Refusal
  | [], s => .next s
  | i :: is, s =>
    match exec i s with
    | .next t => execAll is t
    | .fault f => .fault f
    | .refused r => .refused r

/-- `NEW_S n, p, sid = ESTIMATE n, p ; CONFIG m_raw, k, sid` (R62): the commands the host sends, none where ESTIMATE
refuses (R73). -/
noncomputable def newWithStrategy (n : ℤ) (p : Option ℝ) (sid : BitVec 8) : Except HostError (List Instr) :=
  (estimate n p).map fun e => [.config sid (BitVec.ofNat 64 e.1) (BitVec.ofNat 64 e.2)]

/-- `NEW n, p` (R62): sid 0. -/
noncomputable def newFilter (n : ℤ) (p : Option ℝ) : Except HostError (List Instr) := newWithStrategy n p 0

/-- `FROM_S [words], k, sid = RECONSTRUCT [words], k, sid` (R62). -/
def fromWithStrategy (words : List Word) (k : Word) (sid : BitVec 8) : List Instr := [.reconstruct sid k words]

/-- `FROM [words], k = RECONSTRUCT [words], k, 0` (R62). -/
def fromWords (words : List Word) (k : Word) : List Instr := fromWithStrategy words k 0

/-- `MIGHTCONTAIN data = QUERY data` (R62). -/
def mightContain (data : List Byte) : List Instr := [.query data]

/-- The serialized record `{m, k, bits}` (R121): no strategy, no `n`, no `p`, no `m_raw`. -/
structure Record where
  m : Nat
  k : Nat
  bits : List Nat
  deriving DecidableEq, Repr

/-- A field's value in a parsed record that may not have the expected shape (R125): an unsigned integer, a sequence
whose elements are unsigned integers or not (`none`), or anything else. Log 19. -/
inductive FieldValue where
  | uint (n : Nat)
  | seq (elements : List (Option Nat))
  | other
  deriving DecidableEq, Repr

/-- A parsed record: a field that is missing is `none`. -/
structure RawRecord where
  m : Option FieldValue
  k : Option FieldValue
  bits : Option FieldValue
  deriving DecidableEq, Repr

/-- A well-shaped record as the parser sees it. -/
def Record.raw (r : Record) : RawRecord where
  m := some (.uint r.m)
  k := some (.uint r.k)
  bits := some (.seq (r.bits.map some))

/-- An element of `bits` or a `k`: an unsigned integer below 2^64 (R125). -/
def wordOfNat (n : Nat) : Option Word := if n < 2 ^ 64 then some (BitVec.ofNat 64 n) else none

/-- The words of `bits`, if every element is an unsigned integer below 2^64 (R125). -/
def wordsOfSeq : List (Option Nat) → Option (List Word)
  | [] => some []
  | none :: _ => none
  | some n :: rest =>
    match wordOfNat n, wordsOfSeq rest with
    | some w, some ws => some (w :: ws)
    | _, _ => none

/-- `k` and `bits` of a record of the expected shape (R125). The `m` field must be an unsigned integer and is then
ignored: `M` is always `64 * len(bits)` (R123; 90_conflicts.md C6). -/
def parseRecord (r : RawRecord) : Except HostError (Word × List Word) :=
  match r.m, r.k, r.bits with
  | some (.uint _), some (.uint k), some (.seq elements) =>
    match wordOfNat k, wordsOfSeq elements with
    | some k, some ws => .ok (k, ws)
    | _, _ => .error .malformedSerializedInput
  | _, _, _ => .error .malformedSerializedInput

/-- `DESERIALIZE record = RECONSTRUCT bits, k, 0`: the commands sent, none where the record is malformed (R62, R123,
R125). After it `SID` = 0 (R124). -/
def deserialize (r : RawRecord) : Except HostError (List Instr) :=
  (parseRecord r).map fun kb => fromWords kb.2 kb.1

/-- The commands of SERIALIZE (R62, R122). -/
def serializeCommands : List Instr := [.readM, .readK, .exportBits]

/-- The record the host builds from the three responses, if each is OK (R122). -/
def buildRecord : List (List Word) → Except HostError Record
  | [[hm, m], [hk, k], he :: bits] =>
    if hm = responseHeader Opcode.readM.code .ok ∧ hk = responseHeader Opcode.readK.code .ok ∧
        he = responseHeader Opcode.exportBits.code .ok then
      .ok { m := m.toNat, k := k.toNat, bits := bits.map BitVec.toNat }
    else .error .noRecord
  | _ => .error .noRecord

/-- `SERIALIZE` from a state, nothing interleaved (R122): the record built from the responses. -/
def serialize (s : State) : Except HostError Record :=
  match execAll serializeCommands s with
  | .next t => buildRecord (t.outbox.drop s.outbox.length)
  | .fault _ => .error .noRecord
  | .refused _ => .error .noRecord

end Sys2Proof.Machine
end

