-- ==== Sys2Proof/Machine/Parallel.lean ====
section
/-! DEFINITION. Parallel evaluation (spec/43_filter_ops.md R105; spec/70_reset_and_hazards.md R156): the sets and tests
of one command issued up to `PAR` at a time, sets in one word merged into one OR mask. No result depends on it; the
meanings of PUT and QUERY are the sequential ones. -/

namespace Sys2Proof.Machine

/-- A sequence cut into groups of at most `par`; `fuel` bounds the number of groups. -/
def groupsFuel (par : Nat) : Nat → List Word → List (List Word)
  | 0, _ => []
  | _ + 1, [] => []
  | fuel + 1, b :: bs => (b :: bs).take par :: groupsFuel par fuel ((b :: bs).drop par)

/-- The groups of at most `par ≥ 1` requests, in order. -/
def groups (par : Nat) (idx : List Word) : List (List Word) := groupsFuel par idx.length idx

/-- The OR mask of the sets of one group that fall in word `j` (R156). -/
def groupMask (j : Nat) : List Word → Word
  | [] => 0
  | b :: bs => if b.toNat / 64 = j then bitMask b.toNat ||| groupMask j bs else groupMask j bs

/-- The sets of one group done at once: every word touched is read before any is written, and gets its whole OR mask
(R156). `before` is the store all the reads see, `bs` the sets still to write. -/
def setGroupFrom (before : BitStore) (group : List Word) : List Word → BitStore → BitStore
  | [], st => st
  | b :: bs, st =>
    setGroupFrom before group bs
      (st.wordWrite (b.toNat / 64) (before.wordRead (b.toNat / 64) ||| groupMask (b.toNat / 64) group))

/-- One parallel step of sets. -/
def setGroup (st : BitStore) (group : List Word) : BitStore := setGroupFrom st group group st

/-- The store after PUT's sets, a group at a time. -/
def setGroups (st : BitStore) : List (List Word) → BitStore
  | [] => st
  | g :: gs => setGroups (setGroup st g) gs

/-- PUT's sets, up to `par` at a time (R103, R105). -/
def parallelPut (par : Nat) (st : BitStore) (idx : List Word) : BitStore := setGroups st (groups par idx)

/-- `ACC` over groups of tests: all of a group are tested, and the loop stops after a group with a 0 (R105). -/
def accOfGroups (st : BitStore) : List (List Word) → Bool
  | [] => true
  | g :: gs => if g.any fun b => st.bitTest b.toNat == 0 then false else accOfGroups st gs

/-- QUERY's tests, up to `par` at a time (R105). -/
def parallelQuery (par : Nat) (st : BitStore) (idx : List Word) : Bool := accOfGroups st (groups par idx)

end Sys2Proof.Machine
end

