-- ==== Sys2Proof/Machine/Ports.lean ====
section
/-! DEFINITION. Level P: the ordered primitive requests a command issues, its reference port trace, as a function of
the state before it (spec/00_scope.md R6; the port trace of each rule R100 to R107, R120), and what the answers make
of the response. The step relation is level T; this file is what level P refines it by. -/

namespace Sys2Proof.Machine

/-- `BS_ALLOC m` (Table R57). -/
def allocRequest (m : Nat) : PortRequest := .bitstore 0b000 (BitVec.ofNat 64 m) 0

/-- `BS_SET b` (Table R57). -/
def setRequest (b : Word) : PortRequest := .bitstore 0b001 b 0

/-- `BS_TEST b` (Table R57). -/
def testRequest (b : Word) : PortRequest := .bitstore 0b010 b 0

/-- `BS_RDWORD j` (Table R57). -/
def readRequest (j : Nat) : PortRequest := .bitstore 0b011 (BitVec.ofNat 64 j) 0

/-- `BS_WRWORD j, w` (Table R57). -/
def writeRequest (j : Nat) (w : Word) : PortRequest := .bitstore 0b100 (BitVec.ofNat 64 j) w

/-- `BS_WRWORD j, w` for the words of a sequence, ascending from `j` (R101). -/
def writeTrace : Nat → List Word → List PortRequest
  | _, [] => []
  | j, w :: ws => writeRequest j w :: writeTrace (j + 1) ws

/-- The tests of QUERY: up to and including the first that returns 0, or all (R104). -/
def testTrace (st : BitStore) : List Word → List PortRequest
  | [] => []
  | b :: bs => testRequest b :: (if st.bitTest b.toNat = 0 then [] else testTrace st bs)

/-- Exactly one HASH128 request under the reference strategy (R91); what another strategy asks of the HASH port is not
in the spec, and none is listed for it (R97; log 20). -/
def hashTrace (sid : BitVec 8) (data : List Byte) : List PortRequest := if sid = 0 then [.hash data] else []

/-- The indices PUT and QUERY use, empty where the strategy is absent. -/
def indexList (data : List Byte) (s : State) : List Word := (indexes s.sid data s.m s.k).getD []

/-- The reference port trace of an instruction from a state: nothing for a command answered with an error (R131), and
for a port operation its own request. -/
def portTrace (i : Instr) (s : State) : List PortRequest :=
  match i with
  | .config sid mRaw k =>
    if mRaw = 0 ∨ k = 0 ∨ implemented sid = false ∨ fitsCapacity (configCapacity mRaw) = false then []
    else [allocRequest (configCapacity mRaw)]
  | .reconstruct sid k words =>
    if words.length = 0 ∨ k = 0 ∨ implemented sid = false ∨ fitsCapacity (wordsCapacity words) = false then []
    else allocRequest (wordsCapacity words) :: writeTrace 0 words
  | .setStrategy _ => []
  | .put data => if s.cfg then hashTrace s.sid data ++ (indexList data s).map setRequest else []
  | .query data => if s.cfg then hashTrace s.sid data ++ testTrace s.bits (indexList data s) else []
  | .readM => []
  | .readK => []
  | .exportBits => if s.cfg then (List.range (s.m.toNat / 64)).map readRequest else []
  | .bsAlloc m => [.bitstore 0b000 m 0]
  | .bsSet b => [.bitstore 0b001 b 0]
  | .bsTest b => [.bitstore 0b010 b 0]
  | .bsRdWord j => [.bitstore 0b011 j 0]
  | .bsWrWord j w => [.bitstore 0b100 j w]
  | .hash128 data => [.hash data]

/-- The `rdata` words among the answers, in order. -/
def rdataWords : List PortAnswer → List Word
  | [] => []
  | .done :: as => rdataWords as
  | .rdata w :: as => w :: rdataWords as
  | .hash _ _ :: as => rdataWords as

/-- QUERY's `ACC` from the answers to its tests: 0 when one of them is 0 (R104, R105). -/
def accOfAnswers (as : List PortAnswer) : Bool := (rdataWords as).all fun w => w != 0

end Sys2Proof.Machine
end

