-- ==== Sys2Proof/Safety.lean ====
section
/-! DEFINITION. The terms claims use: the invariant of spec/10_state.md R23, what two states share as a filter, what a
malformed packet is by the clauses of R58, and which commands keep a filter (R108). -/

namespace Sys2Proof

open Sys2Proof.Machine

/-- The invariant of every reachable state (R23), with the canonical form of the store, and no primitive request
pending, as between commands (R21, R40). -/
structure EngineInv (s : State) : Prop where
  /-- The store is in canonical form and has no cell above its length. -/
  store_wf : s.bits.wf = true
  /-- No primitive request is pending. -/
  no_request : s.requests = []
  /-- `CFG` = 0: no filter exists, and `M`, `K`, `SID` are 0 and the store is empty. -/
  unconfigured : s.cfg = false → s.m = 0 ∧ s.k = 0 ∧ s.sid = 0 ∧ s.bits.len = 0
  /-- `CFG` = 1: `M mod 64` = 0, `64 ≤ M ≤ M_MAX`, `K ≥ 1`, the strategy is implemented, `M div 64` words. -/
  configured : s.cfg = true → s.m.toNat % 64 = 0 ∧ 64 ≤ s.m.toNat ∧ s.m.toNat ≤ Config.mMax ∧ 1 ≤ s.k.toNat ∧
    implemented s.sid = true ∧ s.bits.len = s.m.toNat / 64

/-- The architectural state of two states is the same: `CFG`, `M`, `K`, `SID`, `BITS` (10_state.md section 1). -/
def SameFilter (s t : State) : Prop :=
  t.cfg = s.cfg ∧ t.m = s.m ∧ t.k = s.k ∧ t.sid = s.sid ∧ t.bits = s.bits

/-- Everything a command leaves alone but the response it delivers: the host's events and the primitive ports. -/
def SamePorts (s t : State) : Prop := t.inbox = s.inbox ∧ t.requests = s.requests ∧ t.answers = s.answers

/-- A run that does not stop: the step from this state answers a next state. -/
def Safe (s : State) : Prop := ∃ t, step s = .next t

/-- The eight host commands; the other six constructors are port operations. -/
def Instr.isCommand : Instr → Bool
  | .config _ _ _ => true
  | .reconstruct _ _ _ => true
  | .setStrategy _ => true
  | .put _ => true
  | .query _ => true
  | .readM => true
  | .readK => true
  | .exportBits => true
  | .bsAlloc _ => false
  | .bsSet _ => false
  | .bsTest _ => false
  | .bsRdWord _ => false
  | .bsWrWord _ _ => false
  | .hash128 _ => false

/-- The opcode of a host command (Table R56). -/
def Instr.opcode : Instr → Option Opcode
  | .config _ _ _ => some .config
  | .reconstruct _ _ _ => some .reconstruct
  | .setStrategy _ => some .setStrategy
  | .put _ => some .put
  | .query _ => some .query
  | .readM => some .readM
  | .readK => some .readK
  | .exportBits => some .exportBits
  | .bsAlloc _ => none
  | .bsSet _ => none
  | .bsTest _ => none
  | .bsRdWord _ => none
  | .bsWrWord _ _ => none
  | .hash128 _ => none

/-- The `mask` column of Table R56: it leaves out the `sid` field for the three commands that use it. -/
def Opcode.mask : Opcode → Word
  | .config => 0xFFFFFFFFFFFF00FF
  | .reconstruct => 0xFFFFFFFFFFFF00FF
  | .setStrategy => 0xFFFFFFFFFFFF00FF
  | .put => 0xFFFFFFFFFFFFFFFF
  | .query => 0xFFFFFFFFFFFFFFFF
  | .readM => 0xFFFFFFFFFFFFFFFF
  | .readK => 0xFFFFFFFFFFFFFFFF
  | .exportBits => 0xFFFFFFFFFFFFFFFF

/-- The `match` column of Table R56. -/
def Opcode.matchWord : Opcode → Word
  | .config => 0x0000000000000001
  | .reconstruct => 0x0000000000000002
  | .setStrategy => 0x0000000000000003
  | .put => 0x0000000000000004
  | .query => 0x0000000000000005
  | .readM => 0x0000000000000006
  | .readK => 0x0000000000000007
  | .exportBits => 0x0000000000000008

/-- The status code of a response header: its bits 15:8 (R53, R130). -/
def statusOf (r0 : Word) : Nat := r0.toNat / 2 ^ 8 % 2 ^ 8

/-- The commands that need a filter: all but CONFIG and RECONSTRUCT (R135). -/
def NeedsFilter : Instr → Prop
  | .config _ _ _ => False
  | .reconstruct _ _ _ => False
  | .setStrategy _ => True
  | .put _ => True
  | .query _ => True
  | .readM => True
  | .readK => True
  | .exportBits => True
  | .bsAlloc _ => False
  | .bsSet _ => False
  | .bsTest _ => False
  | .bsRdWord _ => False
  | .bsWrWord _ _ => False
  | .hash128 _ => False

/-- The causes of `ERR_INVALID_PARAM` (R134): CONFIG with `m_raw` = 0 or `k` = 0, RECONSTRUCT with `W` = 0 or `k` = 0,
any of the three with a `sid` that is not implemented. -/
def InvalidParam : Instr → Prop
  | .config sid mRaw k => mRaw = 0 ∨ k = 0 ∨ implemented sid = false
  | .reconstruct sid k words => words.length = 0 ∨ k = 0 ∨ implemented sid = false
  | .setStrategy sid => implemented sid = false
  | .put _ => False
  | .query _ => False
  | .readM => False
  | .readK => False
  | .exportBits => False
  | .bsAlloc _ => False
  | .bsSet _ => False
  | .bsTest _ => False
  | .bsRdWord _ => False
  | .bsWrWord _ _ => False
  | .hash128 _ => False

/-- The causes of `ERR_CAPACITY` (R136): `pad64(m_raw) > M_MAX` or `64 * W > M_MAX`, in unbounded integers. -/
def OverCapacity : Instr → Prop
  | .config _ mRaw _ => Config.mMax < 64 * ((mRaw.toNat + 63) / 64)
  | .reconstruct _ _ words => Config.mMax < 64 * words.length
  | .setStrategy _ => False
  | .put _ => False
  | .query _ => False
  | .readM => False
  | .readK => False
  | .exportBits => False
  | .bsAlloc _ => False
  | .bsSet _ => False
  | .bsTest _ => False
  | .bsRdWord _ => False
  | .bsWrWord _ _ => False
  | .hash128 _ => False

/-- A record of the expected shape (R125): `m` an unsigned integer, `k` an unsigned integer below 2^64, `bits` a
sequence of unsigned integers below 2^64. -/
def WellShaped (r : RawRecord) : Prop :=
  ∃ m k elements, r = { m := some (.uint m), k := some (.uint k), bits := some (.seq elements) } ∧ k < 2 ^ 64 ∧
    ∀ e ∈ elements, ∃ n, e = some n ∧ n < 2 ^ 64

/-- The packet length a format allows (R58 clause (5)): `N` = 1 for F0, 3 for F2, `3 + w1` for FW, `2 + ceil(w1/8)` for
FB, in unbounded integers. -/
def FitsFormat (op : Opcode) (packet : List Word) : Prop :=
  match op with
  | .config => packet.length = 3
  | .reconstruct => 3 ≤ packet.length ∧ packet.length = 3 + (packet.getD 1 0).toNat
  | .put => 2 ≤ packet.length ∧ packet.length = 2 + ((packet.getD 1 0).toNat + 7) / 8
  | .query => 2 ≤ packet.length ∧ packet.length = 2 + ((packet.getD 1 0).toNat + 7) / 8
  | .setStrategy => packet.length = 1
  | .readM => packet.length = 1
  | .readK => packet.length = 1
  | .exportBits => packet.length = 1

/-- Data byte `t` of an FB packet: bits `8*(t mod 8)+7 : 8*(t mod 8)` of word `w(2 + t div 8)` (R55). -/
def packetByte (packet : List Word) (t : Nat) : Byte := (packet.getD (2 + t / 8) 0).extractLsb' (8 * (t % 8)) 8

/-- A packet of data has a padding byte that is not 0 (R58 clause (6)): a byte at or above `L` in the last data word. -/
def PaddingSet (packet : List Word) : Prop :=
  ∃ t, (packet.getD 1 0).toNat ≤ t ∧ t < 8 * (packet.length - 2) ∧ packetByte packet t ≠ 0

/-- A packet is malformed by one of the six clauses of R58, read off its words. -/
inductive Malformed : List Word → Prop where
  | empty : Malformed []
  | reservedBits (w0 : Word) (ws : List Word) : w0.toNat / 2 ^ 16 ≠ 0 → Malformed (w0 :: ws)
  | reservedOpcode (w0 : Word) (ws : List Word) : w0.toNat % 2 ^ 8 = 0 ∨ 8 < w0.toNat % 2 ^ 8 → Malformed (w0 :: ws)
  | sidSet (w0 : Word) (ws : List Word) : 4 ≤ w0.toNat % 2 ^ 8 → w0.toNat / 2 ^ 8 % 2 ^ 8 ≠ 0 → Malformed (w0 :: ws)
  | length (w0 : Word) (ws : List Word) (op : Opcode) :
    w0.toNat % 2 ^ 8 = op.code.toNat → ¬ FitsFormat op (w0 :: ws) → Malformed (w0 :: ws)
  | padding (w0 : Word) (ws : List Word) :
    w0.toNat % 2 ^ 8 = 4 ∨ w0.toNat % 2 ^ 8 = 5 → PaddingSet (w0 :: ws) → Malformed (w0 :: ws)

/-- The commands after which data put under strategy `sid` is still found (R108): no CONFIG, no RECONSTRUCT, and a
SET_STRATEGY only if it leaves `SID` unchanged (it names the current strategy, or none that is implemented). -/
def KeepsFilter (sid : BitVec 8) : Instr → Prop
  | .config _ _ _ => False
  | .reconstruct _ _ _ => False
  | .setStrategy new => new = sid ∨ implemented new = false
  | .put _ => True
  | .query _ => True
  | .readM => True
  | .readK => True
  | .exportBits => True
  | .bsAlloc _ => False
  | .bsSet _ => False
  | .bsTest _ => False
  | .bsRdWord _ => False
  | .bsWrWord _ _ => False
  | .hash128 _ => False

end Sys2Proof
end

