-- ==== Sys2Proof/Certificates/Slice0/Obligations.lean ====
section
/-! DEFINITION. The statements for the provers: what the rules of spec/ say the engine does. `OBLIGATIONS.json` lists
them. A response packet is written out as its words (R53): the header is `status * 0x100 + opcode`. -/

open Sys2Proof Sys2Proof.Machine

/-! ### Encoding -/

/-- Decode and encode agree on every well-formed instruction, every operand at every value the encoding admits
(R51, R52, R54, R55, R57). -/
def Obligations.DecodeEncodeRoundTrip : Prop :=
  ∀ i : Instr, WellFormed i = true → decode (encode i) = .ok i

/-- Every command packet that decodes is the one packet of its command (decision D7), and the command is well
formed. -/
def Obligations.PacketEncodingIsCanonical : Prop :=
  ∀ (ws : List Word) (i : Instr), decode (.command ws) = .ok i → WellFormed i = true ∧ encode i = .command ws

/-- The worked encodings of 30_encoding.md section 7 and one request of each primitive port decode to what they stand
for. -/
def Obligations.SpecWordsDecode : Prop :=
  decode (.command [0x0000000000000001, 0x0000000000002572, 0x0000000000000007]) = .ok (.config 0 9586 7) ∧
  decode (.command [0x0000000000000201, 0x00000000000003BF, 0x0000000000000007]) = .ok (.config 2 959 7) ∧
  decode (.command [0x0000000000000002, 0x0000000000000002, 0x0000000000000003, 0x2000000000000200,
    0x0000000800000000]) = .ok (.reconstruct 0 3 [0x2000000000000200, 0x0000000800000000]) ∧
  decode (.command [0x0000000000000303]) = .ok (.setStrategy 3) ∧
  decode (.command [0x0000000000000004, 0x0000000000000001, 0x0000000000000041]) = .ok (.put [0x41]) ∧
  decode (.command [0x0000000000000005, 0x0000000000000000]) = .ok (.query []) ∧
  decode (.command [0x0000000000000006]) = .ok .readM ∧
  decode (.request (.bitstore 0b001 99 0)) = .ok (.bsSet 99) ∧
  decode (.request (.hash [0x61])) = .ok (.hash128 [0x61])

/-- R58: a packet that meets one of the six clauses is answered `ERR_MALFORMED`, header alone, and changes no state;
any other packet decodes to one command, and the step executes it. -/
def Obligations.MalformedPacketAnswered : Prop :=
  ∀ (s : State) (ws : List Word) (rest : List HostEvent), s.requests = [] → s.inbox = .packet ws :: rest →
    (Malformed ws →
      step s = .next ((s.setInbox rest).deliver [BitVec.ofNat 64 (0x100 + (opcEcho ws).toNat)])) ∧
    (¬ Malformed ws → ∃ i : Instr, i.isCommand = true ∧ decode (.command ws) = .ok i ∧
      step s = exec i (s.setInbox rest))

/-- The opcode map (30_encoding.md R56): the header of a decoded command selects exactly its own row, `w0 & mask = match`. -/
def Obligations.HeaderSelectsOneRow : Prop :=
  ∀ (w0 : Word) (ws : List Word) (i : Instr), decode (.command (w0 :: ws)) = .ok i →
    ∀ op : Opcode, (w0 &&& op.mask = op.matchWord ↔ i.opcode = some op)

/-! ### The step -/

/-- A step runs the decoded instruction: of the host's next packet, when no primitive request is pending, on the state
without that packet; of the oldest pending primitive request, on the state without that request. -/
def Obligations.StepRunsDecodedInstruction : Prop :=
  (∀ (s : State) (ws : List Word) (rest : List HostEvent) (i : Instr), s.requests = [] →
    s.inbox = .packet ws :: rest → decode (.command ws) = .ok i → step s = exec i (s.setInbox rest)) ∧
  (∀ (s : State) (r : PortRequest) (rs : List PortRequest) (i : Instr), s.requests = r :: rs →
    decode (.request r) = .ok i → step s = exec i (s.setRequests rs))

/-- R151: the state after reset, as it stands at the start and as the reset event leaves it. -/
def Obligations.StateAfterReset : Prop :=
  (State.reset.cfg = false ∧ State.reset.m = 0 ∧ State.reset.k = 0 ∧ State.reset.sid = 0 ∧ State.reset.bits.len = 0) ∧
  (∀ (s : State) (rest : List HostEvent), s.requests = [] → s.inbox = .reset :: rest →
    ∃ t, step s = .next t ∧ t.cfg = false ∧ t.m = 0 ∧ t.k = 0 ∧ t.sid = 0 ∧ t.bits.len = 0)

/-- With no packet and no request the engine waits, sending nothing. That waiting is a step that changes nothing is
the model's choice (log 13). -/
def Obligations.IdleEngineWaits : Prop :=
  ∀ s : State, s.requests = [] → s.inbox = [] → step s = .next s

/-- The invariant holds at reset. -/
def Obligations.ResetMeetsInvariant : Prop := EngineInv State.reset

/-- Every step keeps the invariant of 10_state.md section 9. -/
def Obligations.StepKeepsInvariant : Prop :=
  ∀ s t : State, EngineInv s → step s = .next t → EngineInv t

/-- From every state that meets the invariant the step answers a next state, and a command packet gets exactly one
response packet. -/
def Obligations.EveryCommandIsAnswered : Prop :=
  ∀ s : State, EngineInv s → Safe s ∧
    ∀ (ws : List Word) (rest : List HostEvent), s.inbox = .packet ws :: rest →
      ∃ t r0 payload, step s = .next t ∧ t.outbox = s.outbox ++ [r0 :: payload] ∧ t.inbox = rest

/-! ### Responses and errors -/

/-- R53: the response to a packet is one packet; its header repeats bits 7:0 of the command header (0 for an empty
packet), carries a status code, and has bits 63:16 zero; an error is the header alone; the payload of an OK response
is nothing, the answer 1 or 0, `M`, `K`, or the `M div 64` words of the store, by the command. -/
def Obligations.ResponsePacketShape : Prop :=
  ∀ (ws : List Word) (s t : State), acceptPacket ws s = .next t →
    ∃ r0 payload, t.outbox = s.outbox ++ [r0 :: payload] ∧
      r0.toNat % 2 ^ 8 = (ws.headD 0).toNat % 2 ^ 8 ∧ r0.toNat / 2 ^ 16 = 0 ∧ statusOf r0 ≤ 4 ∧
      (statusOf r0 ≠ 0 → payload = []) ∧
      (statusOf r0 = 0 → ∀ i : Instr, decode (.command ws) = .ok i →
        match i with
        | .query _ => payload = [1] ∨ payload = [0]
        | .readM => payload = [s.m]
        | .readK => payload = [s.k]
        | .exportBits => payload = (List.range (s.m.toNat / 64)).map s.bits.wordRead
        | _ => payload = [])

/-- R131: an error response changes none of `CFG`, `M`, `K`, `SID`, `BITS`, issues no primitive request, is the header
alone, and leaves the engine ready for the next command. -/
def Obligations.ErrorsArePrecise : Prop :=
  ∀ (ws : List Word) (s t : State), acceptPacket ws s = .next t →
    ∃ r0 payload, t.outbox = s.outbox ++ [r0 :: payload] ∧ SamePorts s t ∧
      (statusOf r0 ≠ 0 → payload = [] ∧ SameFilter s t ∧
        ∀ i : Instr, decode (.command ws) = .ok i → portTrace i s = [])

/-- R133 to R136: exactly one status is reported, in the order MALFORMED, NOT_CONFIGURED, INVALID_PARAM, CAPACITY, and
OK when no condition holds. -/
def Obligations.ErrorPriority : Prop :=
  ∀ (ws : List Word) (s : State), EngineInv s →
    ∃ t r0 payload, acceptPacket ws s = .next t ∧ t.outbox = s.outbox ++ [r0 :: payload] ∧
      (Malformed ws → statusOf r0 = 1) ∧
      (∀ i : Instr, decode (.command ws) = .ok i →
        (NeedsFilter i ∧ s.cfg = false → statusOf r0 = 3) ∧
        (¬ (NeedsFilter i ∧ s.cfg = false) → InvalidParam i → statusOf r0 = 2) ∧
        (¬ (NeedsFilter i ∧ s.cfg = false) → ¬ InvalidParam i → OverCapacity i → statusOf r0 = 4) ∧
        (¬ (NeedsFilter i ∧ s.cfg = false) → ¬ InvalidParam i → ¬ OverCapacity i → statusOf r0 = 0))

/-! ### CONFIG, RECONSTRUCT, SET_STRATEGY -/

/-- CONFIG (43_filter_ops.md R100) in any state. Bad operands and too large a capacity are answered with their error and change nothing;
otherwise the filter is new and empty, `M` the least multiple of 64 not below `m_raw`. -/
def Obligations.ConfigCreatesEmptyFilter : Prop :=
  ∀ (s : State) (sid : BitVec 8) (mRaw k : Word),
    (mRaw = 0 ∨ k = 0 ∨ implemented sid = false → exec (.config sid mRaw k) s = .next (s.deliver [0x201])) ∧
    (¬ (mRaw = 0 ∨ k = 0 ∨ implemented sid = false) → Config.mMax < 64 * ((mRaw.toNat + 63) / 64) →
      exec (.config sid mRaw k) s = .next (s.deliver [0x401])) ∧
    (¬ (mRaw = 0 ∨ k = 0 ∨ implemented sid = false) → 64 * ((mRaw.toNat + 63) / 64) ≤ Config.mMax →
      ∃ t, exec (.config sid mRaw k) s = .next t ∧ t.cfg = true ∧ t.k = k ∧ t.sid = sid ∧
        t.m.toNat % 64 = 0 ∧ mRaw.toNat ≤ t.m.toNat ∧ t.m.toNat < mRaw.toNat + 64 ∧
        t.bits.len = t.m.toNat / 64 ∧ (∀ b, b < t.m.toNat → t.bits.bitTest b = 0) ∧
        t.outbox = s.outbox ++ [[0x1]] ∧ SamePorts s t ∧ t.work = s.work)

/-- RECONSTRUCT (43_filter_ops.md R101) in any state. Bad operands and too many words are answered with their error and change nothing;
otherwise the store holds exactly the words and `M = 64 * W`. -/
def Obligations.ReconstructLoadsWords : Prop :=
  ∀ (s : State) (sid : BitVec 8) (k : Word) (words : List Word),
    (words.length = 0 ∨ k = 0 ∨ implemented sid = false →
      exec (.reconstruct sid k words) s = .next (s.deliver [0x202])) ∧
    (¬ (words.length = 0 ∨ k = 0 ∨ implemented sid = false) → Config.mMax < 64 * words.length →
      exec (.reconstruct sid k words) s = .next (s.deliver [0x402])) ∧
    (¬ (words.length = 0 ∨ k = 0 ∨ implemented sid = false) → 64 * words.length ≤ Config.mMax →
      ∃ t, exec (.reconstruct sid k words) s = .next t ∧ t.cfg = true ∧ t.k = k ∧ t.sid = sid ∧
        t.m.toNat = 64 * words.length ∧ t.bits.len = words.length ∧
        (∀ j, j < words.length → words[j]? = some (t.bits.wordRead j)) ∧
        t.outbox = s.outbox ++ [[0x2]] ∧ SamePorts s t ∧ t.work = s.work)

/-- SET_STRATEGY (43_filter_ops.md R102) in any state: not configured, not implemented, or `SID` written and nothing else. -/
def Obligations.SetStrategyWritesSid : Prop :=
  ∀ (s : State) (sid : BitVec 8),
    (s.cfg = false → exec (.setStrategy sid) s = .next (s.deliver [0x303])) ∧
    (s.cfg = true → implemented sid = false → exec (.setStrategy sid) s = .next (s.deliver [0x203])) ∧
    (s.cfg = true → implemented sid = true → exec (.setStrategy sid) s = .next ((s.setSid sid).deliver [0x3]))

/-- All-zero words give the same filter as CONFIG with that capacity, every bit 0; both commands answer OK (R101,
corner cases). -/
def Obligations.ZeroWordsEqualConfig : Prop :=
  ∀ (s : State) (sid : BitVec 8) (k : Word) (n : Nat), 0 < n → k ≠ 0 → implemented sid = true →
    64 * n ≤ Config.mMax →
    ∃ t u, exec (.reconstruct sid k (List.replicate n 0)) s = .next t ∧
      exec (.config sid (BitVec.ofNat 64 (64 * n)) k) s = .next u ∧ t.outbox = s.outbox ++ [[0x2]] ∧
      u.outbox = s.outbox ++ [[0x1]] ∧ t.cfg = true ∧ t.m.toNat = 64 * n ∧
      (∀ b, b < 64 * n → t.bits.bitTest b = 0) ∧ SameFilter t u

/-! ### PUT and QUERY -/

/-- PUT (43_filter_ops.md R103) while no filter exists, and on a filter: `K` indices of the selected strategy, each below `M`; exactly
those bits become 1 and no other bit changes; the response has no payload. -/
def Obligations.PutSetsIndexedBits : Prop :=
  ∀ (s : State) (data : List Byte),
    (s.cfg = false → exec (.put data) s = .next (s.deliver [0x304])) ∧
    (EngineInv s → s.cfg = true →
      ∃ idx t, indexes s.sid data s.m s.k = some idx ∧ idx.length = s.k.toNat ∧
        (∀ b ∈ idx, b.toNat < s.m.toNat) ∧ exec (.put data) s = .next t ∧
        (∀ b, b < s.m.toNat → (t.bits.bitTest b = 1 ↔ s.bits.bitTest b = 1 ∨ ∃ i ∈ idx, i.toNat = b)) ∧
        t.bits.len = s.bits.len ∧ t.cfg = s.cfg ∧ t.m = s.m ∧ t.k = s.k ∧ t.sid = s.sid ∧
        t.outbox = s.outbox ++ [[0x4]] ∧ SamePorts s t)

/-- QUERY (43_filter_ops.md R104) while no filter exists, and on a filter: the answer is 1 exactly when every indexed
bit is 1, and no architectural state is written. R12 makes `ACC` the command's result, and says that nothing persists in
it after the response: that the state after the response still holds it (`t.work.acc = acc`) is the model's choice
(log 1), which no result rests on (WorkingRegistersDoNotMatter). -/
def Obligations.QueryAnswersConjunction : Prop :=
  ∀ (s : State) (data : List Byte),
    (s.cfg = false → exec (.query data) s = .next (s.deliver [0x305])) ∧
    (EngineInv s → s.cfg = true →
      ∃ idx acc t, indexes s.sid data s.m s.k = some idx ∧ idx.length = s.k.toNat ∧
        (acc = true ↔ ∀ b ∈ idx, s.bits.bitTest b.toNat = 1) ∧ exec (.query data) s = .next t ∧
        t.outbox = s.outbox ++ [[0x5, if acc then 1 else 0]] ∧ t.work.acc = acc ∧ SameFilter s t ∧ SamePorts s t)

/-- R24: no command but CONFIG and RECONSTRUCT clears a bit: PUT keeps every bit that is 1, and QUERY, READ_M, READ_K,
EXPORT and SET_STRATEGY leave `BITS` as it is. -/
def Obligations.BitsOnlyAccumulate : Prop :=
  ∀ s t : State, s.bits.wf = true →
    (∀ data, exec (.put data) s = .next t → ∀ b, s.bits.bitTest b = 1 → t.bits.bitTest b = 1) ∧
    (∀ i : Instr, ((∃ data, i = .query data) ∨ i = .readM ∨ i = .readK ∨ i = .exportBits ∨ ∃ sid, i = .setStrategy sid) →
      exec i s = .next t → t.bits = s.bits)

/-- On an empty filter every QUERY answers 0 (R104, corner cases). -/
def Obligations.EmptyFilterAnswersZero : Prop :=
  ∀ (s t : State) (sid : BitVec 8) (mRaw k : Word) (data : List Byte),
    exec (.config sid mRaw k) s = .next t → t.outbox = s.outbox ++ [[0x1]] →
    ∃ u, exec (.query data) t = .next u ∧ u.outbox = t.outbox ++ [[0x5, 0]]

/-- All-ones words give a filter that answers 1 to every QUERY (R101, corner cases), false positives included
(R109). -/
def Obligations.SaturatedFilterAnswersOne : Prop :=
  ∀ (s : State) (sid : BitVec 8) (k : Word) (n : Nat) (data : List Byte), 0 < n → k ≠ 0 → implemented sid = true →
    64 * n ≤ Config.mMax →
    ∃ t u, exec (.reconstruct sid k (List.replicate n 0xFFFFFFFFFFFFFFFF)) s = .next t ∧
      exec (.query data) t = .next u ∧ u.outbox = t.outbox ++ [[0x5, 1]]

/-- R108: no false negatives. After PUT of `data` on a filter, and any sequence of PUT, QUERY, READ_M, READ_K, EXPORT
and SET_STRATEGY that leaves `SID` unchanged, QUERY of `data` answers 1. -/
def Obligations.NoFalseNegatives : Prop :=
  ∀ (s t : State) (data : List Byte) (later : List Instr), EngineInv s → s.cfg = true → exec (.put data) s = .next t →
    (∀ i ∈ later, KeepsFilter s.sid i) →
    ∃ u v, execAll later t = .next u ∧ exec (.query data) u = .next v ∧ v.outbox = u.outbox ++ [[0x5, 1]]

/-- Hazard (b) of 70_reset_and_hazards.md R157: RECONSTRUCT of a filter's words with a smaller `k` still finds what PUT inserted, under the reference
strategy. -/
def Obligations.SmallerCountStillFinds : Prop :=
  ∀ (s t u v : State) (data : List Byte) (k : Word), EngineInv s → s.cfg = true → s.sid = 0 → exec (.put data) s = .next t →
    k ≠ 0 → k.toNat ≤ s.k.toNat →
    exec (.reconstruct 0 k (t.bits.exportWords (t.m.toNat / 64))) u = .next v →
    ∃ w, exec (.query data) v = .next w ∧ w.outbox = v.outbox ++ [[0x5, 1]]

/-! ### READ_M, READ_K, EXPORT -/

/-- READ_M (43_filter_ops.md R106) answers `M` and writes nothing. -/
def Obligations.ReadMAnswersM : Prop :=
  ∀ s : State, (s.cfg = false → exec .readM s = .next (s.deliver [0x306])) ∧
    (s.cfg = true → exec .readM s = .next (s.deliver [0x6, s.m]))

/-- READ_K (43_filter_ops.md R107) answers `K` and writes nothing. -/
def Obligations.ReadKAnswersK : Prop :=
  ∀ s : State, (s.cfg = false → exec .readK s = .next (s.deliver [0x307])) ∧
    (s.cfg = true → exec .readK s = .next (s.deliver [0x7, s.k]))

/-- EXPORT (44_serialize.md R120) answers the `M div 64` words of the store, `BITS[0]` first, and writes nothing. -/
def Obligations.ExportAnswersStore : Prop :=
  ∀ s : State, (s.cfg = false → exec .exportBits s = .next (s.deliver [0x308])) ∧
    (EngineInv s → s.cfg = true →
      ∃ payload, exec .exportBits s = .next (s.deliver (0x8 :: payload)) ∧ payload.length = s.m.toNat / 64 ∧
        ∀ j, j < s.m.toNat / 64 → payload[j]? = some (s.bits.wordRead j))

/-! ### The index generator -/

/-- R93, R94, R95 (the steps of R92): the reference strategy. There is a running value `c` with `c 0 = h1` and `c (i+1) = c i + h2` modulo
2^64, and the result is exactly `k` indices in order, `index[i] = (c i & 0x7fffffffffffffff) mod m`. -/
def Obligations.ReferenceIndexesFollowSteps : Prop :=
  ∀ (data : List Byte) (m k : Word), ∃ (c : Nat → Word) (idx : List Word),
    c 0 = (Config.h128 data).1 ∧ (∀ i, (c (i + 1)).toNat = ((c i).toNat + (Config.h128 data).2.toNat) % 2 ^ 64) ∧
    indexes 0 data m k = some idx ∧ idx.length = k.toNat ∧
    ∀ i, i < k.toNat → ∃ w, idx[i]? = some w ∧ w.toNat = (c i &&& 0x7fffffffffffffff).toNat % m.toNat

/-- The closed form of the reference index (42_index_generation.md section 3, marked derived there):
`index[i] = ((h1 + i * h2) mod 2^63) mod m`, in unbounded integers. -/
def Obligations.ReferenceIndexClosedForm : Prop :=
  ∀ (data : List Byte) (m k : Word) (i : Nat), i < k.toNat →
    ∃ idx w, indexes 0 data m k = some idx ∧ idx[i]? = some w ∧
      w.toNat = ((Config.h128 data).1.toNat + i * (Config.h128 data).2.toNat) % 2 ^ 63 % m.toNat

/-- R90: every implemented strategy gives exactly `k` indices, each below `m`. -/
def Obligations.StrategyContractHolds : Prop :=
  ∀ (sid : BitVec 8) (data : List Byte) (m k : Word), implemented sid = true → 64 ≤ m.toNat → m.toNat % 64 = 0 →
    1 ≤ k.toNat →
    ∃ idx, indexes sid data m k = some idx ∧ idx.length = k.toNat ∧ ∀ b ∈ idx, b.toNat < m.toNat

/-- A smaller count gives a prefix of the reference indices (42_index_generation.md R96, consequence (1)). -/
def Obligations.SmallerCountGivesPrefix : Prop :=
  ∀ (data : List Byte) (m k k' : Word), k'.toNat ≤ k.toNat →
    ∃ idx, indexes 0 data m k = some idx ∧ indexes 0 data m k' = some (idx.take k'.toNat)

/-! ### The bit store and the primitive ports -/

/-- Laws (1) to (4) of 41_bitstore.md R86: a set bit tests 1, other bits are untouched, sets commute and are
idempotent. -/
def Obligations.BitSetLaws : Prop :=
  ∀ (st : BitStore) (a b : Nat), st.wf = true → a < 64 * st.len → b < 64 * st.len →
    (st.bitSet a).bitTest a = 1 ∧ (a ≠ b → (st.bitSet a).bitTest b = st.bitTest b) ∧
    (st.bitSet a).bitSet b = (st.bitSet b).bitSet a ∧ (st.bitSet a).bitSet a = st.bitSet a

/-- Laws (5) to (7) of 41_bitstore.md R86: a fresh store tests 0, a written word's bits are its bits, and a word is the
sum of its bits. -/
def Obligations.WordAndBitLaws : Prop :=
  ∀ (st : BitStore) (j : Nat) (w : Word), st.wf = true → j < st.len →
    (∀ m b, b < m → (BitStore.alloc m).bitTest b = 0) ∧
    (∀ t, t < 64 → (st.wordWrite j w).bitTest (64 * j + t) = if w.getLsbD t then 1 else 0) ∧
    (st.wordRead j).toNat = ((List.range 64).map fun t => (st.bitTest (64 * j + t)).toNat * 2 ^ t).sum

/-- `exportWords()` immediately after `importWords(s)` returns `s`, whose capacity is `64 * len(s)` (41_bitstore.md
R84). -/
def Obligations.ImportThenExport : Prop :=
  ∀ ws : List Word, (BitStore.importWords ws).len = ws.length ∧
    (BitStore.importWords ws).exportWords (BitStore.importWords ws).len = ws

/-- BS_ALLOC (41_bitstore.md R80), op 0b000, of a multiple of 64 from 64 to `M_MAX` gives a store of `m div 64` words
and changes nothing else of the engine. That every word of it is 0 is what R80 marks as its own inference (decision
D5). -/
def Obligations.BsAllocClearsStore : Prop :=
  ∀ (s : State) (m w : Word), m.toNat % 64 = 0 → 64 ≤ m.toNat → m.toNat ≤ Config.mMax →
    decode (.request (.bitstore 0b000 m w)) = .ok (.bsAlloc m) ∧
    ∃ t, exec (.bsAlloc m) s = .next t ∧ t.bits.len = m.toNat / 64 ∧
      (∀ j, j < m.toNat / 64 → t.bits.wordRead j = 0) ∧
      t = (s.setBits t.bits).answer .done

/-- R81: BS_SET, op 0b001, of a bit address of the store ORs one bit into its word, leaves every other word alone,
reports nothing, and changes nothing else of the engine. -/
def Obligations.BsSetSetsOneBit : Prop :=
  ∀ (s : State) (b w : Word), s.bits.wf = true → b.toNat < 64 * s.bits.len →
    decode (.request (.bitstore 0b001 b w)) = .ok (.bsSet b) ∧
    ∃ t, exec (.bsSet b) s = .next t ∧ t.bits.len = s.bits.len ∧
      t.bits.wordRead (b.toNat / 64) = s.bits.wordRead (b.toNat / 64) ||| BitVec.ofNat 64 (2 ^ (b.toNat % 64)) ∧
      (∀ j, j ≠ b.toNat / 64 → t.bits.wordRead j = s.bits.wordRead j) ∧
      t = (s.setBits t.bits).answer .done

/-- R82: BS_TEST, op 0b010, answers the bit in bit 0 of `rdata`, bits 63:1 zero, and writes no state. -/
def Obligations.BsTestAnswersBit : Prop :=
  ∀ (s : State) (b w : Word), b.toNat < 64 * s.bits.len →
    decode (.request (.bitstore 0b010 b w)) = .ok (.bsTest b) ∧
    exec (.bsTest b) s = .next (s.answer (.rdata
      (BitVec.ofNat 64 ((s.bits.wordRead (b.toNat / 64)).toNat / 2 ^ (b.toNat % 64) % 2))))

/-- R83: BS_RDWORD, op 0b011, answers the whole word and writes no state; `exportWords()` is these reads in ascending
order. -/
def Obligations.BsRdWordAnswersWord : Prop :=
  ∀ s : State, (∀ j w : Word, j.toNat < s.bits.len →
      decode (.request (.bitstore 0b011 j w)) = .ok (.bsRdWord j) ∧
      exec (.bsRdWord j) s = .next (s.answer (.rdata (s.bits.wordRead j.toNat)))) ∧
    ∀ n j, j < n → (s.bits.exportWords n)[j]? = some (s.bits.wordRead j) ∧ (s.bits.exportWords n).length = n

/-- BS_WRWORD (41_bitstore.md R84), op 0b100, replaces all 64 bits of one word, leaves every other word alone, and
changes nothing else of the engine. -/
def Obligations.BsWrWordReplacesWord : Prop :=
  ∀ (s : State) (j w : Word), s.bits.wf = true → j.toNat < s.bits.len →
    decode (.request (.bitstore 0b100 j w)) = .ok (.bsWrWord j w) ∧
    ∃ t, exec (.bsWrWord j w) s = .next t ∧ t.bits.len = s.bits.len ∧ t.bits.wordRead j.toNat = w ∧
      (∀ i, i ≠ j.toNat → t.bits.wordRead i = s.bits.wordRead i) ∧ t = (s.setBits t.bits).answer .done

/-- HASH128 (42_index_generation.md R91) answers the pair `H128(data)`, `h1` first, for any byte sequence, and writes
no engine state. -/
def Obligations.Hash128AnswersPair : Prop :=
  ∀ (s : State) (data : List Byte),
    decode (.request (.hash data)) = .ok (.hash128 data) ∧
    exec (.hash128 data) s = .next (s.answer (.hash (Config.h128 data).1 (Config.h128 data).2))

/-- Outside its contract a port operation has no effect in the spec, and the model stops with a fault of its own name:
the model's choice (log 11), as 20_memory.md R34 asks that no value be given. -/
def Obligations.OutOfContractPortOpsFault : Prop :=
  ∀ (s : State) (a w : Word),
    (¬ (a.toNat % 64 = 0 ∧ 64 ≤ a.toNat ∧ a.toNat ≤ Config.mMax) → exec (.bsAlloc a) s = .fault .allocOutOfContract) ∧
    (64 * s.bits.len ≤ a.toNat → exec (.bsSet a) s = .fault .bitAddressOutOfRange ∧
      exec (.bsTest a) s = .fault .bitAddressOutOfRange) ∧
    (s.bits.len ≤ a.toNat → exec (.bsRdWord a) s = .fault .wordAddressOutOfRange ∧
      exec (.bsWrWord a w) s = .fault .wordAddressOutOfRange)

/-! ### Frames -/

/-- QUERY, READ_M, READ_K and EXPORT leave every register, every word of the store and the ports as they were, but for
the one response, and the last three leave the working registers too. -/
def Obligations.ReadersFrame : Prop :=
  ∀ (i : Instr) (s t : State), ((∃ data, i = .query data) ∨ i = .readM ∨ i = .readK ∨ i = .exportBits) →
    exec i s = .next t →
    SameFilter s t ∧ SamePorts s t ∧ (∀ j, t.bits.wordRead j = s.bits.wordRead j) ∧
    (∃ r, t.outbox = s.outbox ++ [r]) ∧ (i = .readM ∨ i = .readK ∨ i = .exportBits → t.work = s.work)

/-- PUT leaves `CFG`, `M`, `K`, `SID`, the store's length and every word as they were, but for the words
`idx div 64` of the indices it sets; and it leaves `ACC`, which no command but QUERY writes (10_state.md R12). -/
def Obligations.PutFrame : Prop :=
  ∀ (s t : State) (data : List Byte), s.bits.wf = true → exec (.put data) s = .next t →
    t.cfg = s.cfg ∧ t.m = s.m ∧ t.k = s.k ∧ t.sid = s.sid ∧ t.bits.len = s.bits.len ∧ SamePorts s t ∧
    t.work.acc = s.work.acc ∧ (∃ r, t.outbox = s.outbox ++ [r]) ∧
    ∀ j, (∀ b ∈ indexList data s, b.toNat / 64 ≠ j) → t.bits.wordRead j = s.bits.wordRead j

/-- CONFIG, RECONSTRUCT and SET_STRATEGY leave the working registers and the ports as they were; one that is answered
with an error leaves the whole filter, and SET_STRATEGY leaves all of it but `SID`. -/
def Obligations.CreatorsFrame : Prop :=
  ∀ (i : Instr) (s t : State),
    ((∃ sid mRaw k, i = .config sid mRaw k) ∨ (∃ sid k words, i = .reconstruct sid k words) ∨ ∃ sid, i = .setStrategy sid) →
    exec i s = .next t →
    ∃ r0, t.outbox = s.outbox ++ [[r0]] ∧ SamePorts s t ∧ t.work = s.work ∧ (statusOf r0 ≠ 0 → SameFilter s t) ∧
      ((∃ sid, i = .setStrategy sid) → t.cfg = s.cfg ∧ t.m = s.m ∧ t.k = s.k ∧ t.bits = s.bits)

/-- 10_state.md R22: no command's result depends on what the working registers hold. -/
def Obligations.WorkingRegistersDoNotMatter : Prop :=
  ∀ (i : Instr) (s t : State) (w : Work), exec i s = .next t →
    ∃ t', exec i (s.setWork w) = .next t' ∧ SameFilter t t' ∧ SamePorts t t' ∧ t'.outbox = t.outbox

/-! ### Level P and parallel evaluation -/

/-- Level P refines level T (00_scope.md R6): serving the reference port trace of a command, request by request, leaves
the store as the command leaves it, touches no register, and its answers give QUERY's and EXPORT's payload. -/
def Obligations.PortTraceRefinesCommand : Prop :=
  ∀ (i : Instr) (s t : State), EngineInv s → i.isCommand = true → exec i s = .next t →
    ∃ u got, Host.Core.run Sys2Proof.core (portTrace i s).length (s.setRequests (portTrace i s)) = .next u ∧
      u = (s.setBits t.bits).setAnswers (s.answers ++ got) ∧ got.length = (portTrace i s).length ∧
      (s.cfg = true → ∀ data, i = .query data → t.outbox = s.outbox ++ [[0x5, accWord (accOfAnswers got)]]) ∧
      (s.cfg = true → i = .exportBits → t.outbox = s.outbox ++ [0x8 :: rdataWords got])

/-- The requests each command issues (70_reset_and_hazards.md R161; the port traces of R100 to R107 and R120). An
accepted CONFIG, in any state: one allocate of the padded capacity. An accepted RECONSTRUCT, in any state: one allocate,
and the `W` word writes, ascending. PUT on a filter of the reference strategy: one hash request, and a set for each of
its `K` indices in order. QUERY: one hash request, and the tests of the first `n` indices, where all but the last of them
read 1, and the last reads 0 if `n` is below `K`. EXPORT on a filter: the `M div 64` word reads, ascending.
SET_STRATEGY, READ_M, READ_K, and PUT, QUERY and EXPORT without a filter: none. -/
def Obligations.PortTracesAsListed : Prop :=
  (∀ (s : State) (sid : BitVec 8) (mRaw k : Word), ¬ InvalidParam (.config sid mRaw k) →
    ¬ OverCapacity (.config sid mRaw k) →
    portTrace (.config sid mRaw k) s = [allocRequest (64 * ((mRaw.toNat + 63) / 64))]) ∧
  (∀ (s : State) (sid : BitVec 8) (k : Word) (words : List Word), ¬ InvalidParam (.reconstruct sid k words) →
    ¬ OverCapacity (.reconstruct sid k words) →
    ∃ writes, portTrace (.reconstruct sid k words) s = allocRequest (64 * words.length) :: writes ∧
      writes.length = words.length ∧
      ∀ j, j < words.length → ∃ w, words[j]? = some w ∧ writes[j]? = some (writeRequest j w)) ∧
  (∀ (s : State) (data : List Byte), s.cfg = true → s.sid = 0 →
    ∃ idx n, indexes 0 data s.m s.k = some idx ∧ idx.length = s.k.toNat ∧
      portTrace (.put data) s = .hash data :: idx.map setRequest ∧
      portTrace (.query data) s = .hash data :: (idx.take n).map testRequest ∧ n ≤ s.k.toNat ∧
      (∀ i b, i + 1 < n → idx[i]? = some b → s.bits.bitTest b.toNat = 1) ∧
      (n < s.k.toNat → ∃ i b, n = i + 1 ∧ idx[i]? = some b ∧ s.bits.bitTest b.toNat = 0)) ∧
  (∀ s : State, s.cfg = true → portTrace .exportBits s = (List.range (s.m.toNat / 64)).map readRequest) ∧
  (∀ (s : State) (sid : BitVec 8), portTrace (.setStrategy sid) s = [] ∧ portTrace .readM s = [] ∧
    portTrace .readK s = []) ∧
  (∀ (s : State) (data : List Byte), s.cfg = false → portTrace (.put data) s = [] ∧ portTrace (.query data) s = [] ∧
    portTrace .exportBits s = [])

/-- The sets of one PUT may be issued in any order (43_filter_ops.md R103; 20_memory.md R36): the store is the same. -/
def Obligations.SetOrderIrrelevant : Prop :=
  ∀ (st : BitStore) (idx idx' : List Word), st.wf = true → (∀ b ∈ idx, b.toNat < 64 * st.len) → idx.Perm idx' →
    st.setAll idx = st.setAll idx'

/-- Parallel sets (70_reset_and_hazards.md R156): up to `PAR` sets at a time, same-word sets merged into one OR mask, give the store of the sequential sets. -/
def Obligations.ParallelPutEqualsSequential : Prop :=
  ∀ (par : Nat) (st : BitStore) (idx : List Word), 1 ≤ par → st.wf = true → (∀ b ∈ idx, b.toNat < 64 * st.len) →
    parallelPut par st idx = st.setAll idx

/-- Parallel tests (43_filter_ops.md R105): up to `PAR` tests at a time, tests beyond the first 0 included, give the same answer as the sequential
tests. -/
def Obligations.ParallelQueryEqualsSequential : Prop :=
  ∀ (par : Nat) (st : BitStore) (idx : List Word), 1 ≤ par → parallelQuery par st idx = accOf st idx

/-! ### Serialize, deserialize -/

/-- SERIALIZE (44_serialize.md R122, R121) on a filter gives the record of `M`, `K` and the words of the store in order, with
`m = 64 * len(bits)`. -/
def Obligations.SerializeBuildsRecord : Prop :=
  ∀ s : State, EngineInv s → s.cfg = true →
    ∃ r : Record, serialize s = .ok r ∧ r.m = s.m.toNat ∧ r.k = s.k.toNat ∧ r.m = 64 * r.bits.length ∧
      ∀ j, j < s.m.toNat / 64 → r.bits[j]? = some (s.bits.wordRead j).toNat

/-- DESERIALIZE (44_serialize.md R123, R125): a record of the expected shape is sent as RECONSTRUCT of its `bits` and `k` with sid 0, whatever its `m`
says; any other is MalformedSerializedInput and sends nothing. -/
def Obligations.DeserializeSendsReconstruct : Prop :=
  ∀ r : RawRecord,
    (∀ (m k : Nat) (bits : List Nat), r = Record.raw { m := m, k := k, bits := bits } → k < 2 ^ 64 →
      (∀ n ∈ bits, n < 2 ^ 64) →
      deserialize r = .ok [.reconstruct 0 (BitVec.ofNat 64 k) (bits.map (BitVec.ofNat 64))]) ∧
    (¬ WellShaped r → deserialize r = .error .malformedSerializedInput)

/-- Round trip (44_serialize.md R126): from what SERIALIZE gives for a filter, on an engine in any state, DESERIALIZE
makes the same filter again if it is one of the reference strategy, and FROM_S with the filter's own `sid` (R124) does
so under every strategy. -/
def Obligations.SerializeRoundTrip : Prop :=
  ∀ s u : State, EngineInv s → s.cfg = true →
    ∃ r, serialize s = .ok r ∧
      (s.sid = 0 → ∃ cmds t, deserialize r.raw = .ok cmds ∧ execAll cmds u = .next t ∧ SameFilter s t) ∧
      ∃ t, execAll (fromWithStrategy (r.bits.map (BitVec.ofNat 64)) (BitVec.ofNat 64 r.k) s.sid) u = .next t ∧
        SameFilter s t

/-! ### The estimator -/

/-- R75: inside its precondition the estimator gives `m_raw ≥ 1`, `k ≥ 1`, and a padded `m_raw` not below `m_raw`. -/
def Obligations.EstimateIsPositive : Prop :=
  ∀ (n : ℤ) (p : ℝ), 1 ≤ n → 0 < p → p < 1 →
    1 ≤ bitCount n p ∧ (∀ mRaw, 1 ≤ hashCount n mRaw) ∧ bitCount n p ≤ pad64 (bitCount n p)

/-- Outside its precondition, and where `m_raw` does not fit in 64 bits, ESTIMATE refuses, and NEW_S sends no command
(40_estimate.md R73). -/
def Obligations.EstimateRefusesOutside : Prop :=
  ∀ (n : ℤ) (p : Option ℝ) (sid : BitVec 8),
    (n < 1 ∨ p = none ∨ ∃ q, p = some q ∧ (q ≤ 0 ∨ 1 ≤ q ∨ 2 ^ 64 ≤ bitCount n q)) →
    estimate n p = .error .invalidParameter ∧ newWithStrategy n p sid = .error .invalidParameter

/-- NEW (30_encoding.md R62; 43_filter_ops.md R100): inside the estimator's precondition, and where the padded estimate
fits the platform, the one command NEW sends gives, in any state, a filter of the estimated size and count. -/
def Obligations.NewBuildsEstimatedFilter : Prop :=
  ∀ (n : ℤ) (p : ℝ) (s : State), 1 ≤ n → 0 < p → p < 1 → pad64 (bitCount n p) ≤ Config.mMax →
    ∃ cmds t, newFilter n (some p) = .ok cmds ∧ execAll cmds s = .next t ∧ t.cfg = true ∧ t.sid = 0 ∧
      t.m.toNat = pad64 (bitCount n p) ∧ t.k.toNat = hashCount n (bitCount n p)

/-- The three estimator fixtures (40_estimate.md Table R76), with their padded capacities. -/
def Obligations.EstimatorFixtures : Prop :=
  estimate 1000 (some 0.01) = .ok (9586, 7) ∧ pad64 9586 = 9600 ∧
  estimate 10000 (some 0.03) = .ok (72985, 5) ∧ pad64 72985 = 73024 ∧
  estimate 100 (some 0.01) = .ok (959, 7) ∧ pad64 959 = 960

/-- The floating-point evaluation `EST` (40_estimate.md R74). Away from the boundaries, where `x` is not within rounding
error of an integer, its bit count is the normative one, which is what the ceiling of the binary64 `x` gives; where
`0.5 + y` is not, its hash count is the normative one, which the binary64 steps give. Everywhere, and so at the boundaries
too, it and the normative count are among the two neighbours: of the integer `r` nearest to `x`, `r` and `r + 1`; of the
integer `r` nearest to `0.5 + y`, `r - 1` and `r`, not below 1. That "within rounding error" is measured by the distance
of the binary64 value from the real one is the model's choice (log 8), and so is that the neighbour `r` may be 0 (R75's
guarantee is taken to bind the normative count only). -/
def Obligations.EstAgreesAwayFromBoundaries : Prop :=
  ∀ (n : ℤ) (p : ℝ), 1 ≤ n → 0 < p → p < 1 →
    (¬ NearInteger (estimateX n p) (estXError n p) →
      estBitCount n p = bitCount n p ∧ ⌈estX n p⌉₊ = bitCount n p) ∧
    (∃ r : ℕ, |estimateX n p - r| ≤ 1 / 2 ∧ (estBitCount n p = r ∨ estBitCount n p = r + 1) ∧
      (bitCount n p = r ∨ bitCount n p = r + 1)) ∧
    ∀ mRaw : ℕ,
      (¬ NearInteger (1 / 2 + estimateY n mRaw) (estYError n mRaw) →
        estHashCount n mRaw = hashCount n mRaw ∧ max 1 ⌊binary64 (1 / 2 + estY n mRaw)⌋₊ = hashCount n mRaw) ∧
      ∃ r : ℕ, |1 / 2 + estimateY n mRaw - r| ≤ 1 / 2 ∧
        (estHashCount n mRaw = max 1 (r - 1) ∨ estHashCount n mRaw = max 1 r) ∧
        (hashCount n mRaw = max 1 (r - 1) ∨ hashCount n mRaw = max 1 r)

/-- None of the source's fixtures is near a boundary (40_estimate.md R74): `EST` gives their values, whatever the open
choices are. -/
def Obligations.EstAgreesOnFixtures : Prop :=
  estimateEst 1000 (some 0.01) = .ok (9586, 7) ∧ estimateEst 10000 (some 0.03) = .ok (72985, 5) ∧
  estimateEst 100 (some 0.01) = .ok (959, 7)
end

