-- ==== Sys2Proof/Laws/Binary64.lean ====
section
/-! SUPPORT. Laws of binary64 rounding: the error of one operation, and of the estimator's `x` and `y`. -/

namespace Sys2Proof.Machine

/-- Rounding to the nearest integer moves by at most one half. -/
theorem abs_roundEven_sub (z : ℝ) : |(roundEven z : ℝ) - z| ≤ 1 / 2 := by
  have h0 := Int.floor_le z
  have h1 := Int.lt_floor_add_one z
  rw [abs_le]
  unfold roundEven
  split_ifs <;> push_cast <;> constructor <;> linarith

theorem binary64Ulp_pos (z : ℝ) : 0 < binary64Ulp z := by
  unfold binary64Ulp
  positivity

/-- A rounded value is a multiple of the distance of neighbours there. -/
theorem binary64_eq_mul (z : ℝ) : ∃ i : ℤ, binary64 z = i * binary64Ulp z := ⟨_, rfl⟩

/-- The error of one rounding is at most half the distance of neighbours. -/
theorem abs_binary64_sub (z : ℝ) : |binary64 z - z| ≤ binary64Ulp z / 2 := by
  have hu := binary64Ulp_pos z
  have h := abs_roundEven_sub (z / binary64Ulp z)
  have e : binary64 z - z = (roundEven (z / binary64Ulp z) - z / binary64Ulp z) * binary64Ulp z := by
    unfold binary64
    field_simp
  rw [e, abs_mul, abs_of_pos hu]
  nlinarith

/-- The smallest normal binary64 value. -/
noncomputable def minNormal : ℝ := (2 : ℝ) ^ (-1022 : ℤ)

theorem minNormal_pos : 0 < minNormal := by unfold minNormal; positivity

theorem minNormal_le : minNormal ≤ 1 / 16 :=
  (zpow_le_zpow_right₀ (m := -1022) (n := -4) (by norm_num) (by norm_num)).trans (by norm_num)

/-- At a normal number the distance of neighbours is at most `2^-52` of it. -/
theorem binary64Ulp_le {z : ℝ} (hz : minNormal ≤ |z|) : binary64Ulp z ≤ |z| * (1 / 4503599627370496) := by
  have hpos : 0 < |z| := lt_of_lt_of_le minNormal_pos hz
  have hlog : (-1022 : ℤ) ≤ Int.log 2 |z| := (Int.zpow_le_iff_le_log (by norm_num) hpos).1 (by exact_mod_cast hz)
  unfold binary64Ulp
  rw [max_eq_left hlog, sub_eq_add_neg, zpow_add₀ (by norm_num)]
  have h := Int.zpow_log_le_self (b := 2) (by norm_num) hpos
  push_cast at h
  exact mul_le_mul h (by norm_num) (by positivity) (abs_nonneg z)

/-- Near 1/2 and 1 the rounded values are multiples of `2^-54`: one of them is the number, or at least that far. -/
theorem binary64_eq_or_far (z : ℝ) {c : ℝ} (hc : c = 1 / 2 ∨ c = 1) :
    binary64 z = c ∨ (2 : ℝ) ^ (-54 : ℤ) ≤ |binary64 z - c| := by
  rcases lt_or_ge |z| (1 / 4) with hz | hz
  · right
    have hu : binary64Ulp z ≤ 1 / 16 := by
      unfold binary64Ulp
      have hl : max (Int.log 2 |z|) (-1022) - 52 ≤ -4 := by
        rcases (abs_nonneg z).eq_or_lt with h | h
        · rw [← h, Int.log_zero_right]; norm_num
        · have : Int.log 2 |z| < 0 := (Int.lt_zpow_iff_log_lt (by norm_num) h).1 (by norm_num; linarith)
          omega
      exact (zpow_le_zpow_right₀ (by norm_num) hl).trans (by norm_num)
    have h1 := abs_le.mp (abs_binary64_sub z)
    have h2 := abs_lt.mp hz
    refine le_trans (b := 1 / 8) (by norm_num) ?_
    rw [abs_sub_comm]
    refine le_trans ?_ (le_abs_self _)
    rcases hc with rfl | rfl <;> linarith
  · obtain ⟨i, hi⟩ := binary64_eq_mul z
    have hpos : 0 < |z| := lt_of_lt_of_le (by norm_num) hz
    have hlog : (-2 : ℤ) ≤ Int.log 2 |z| :=
      (Int.zpow_le_iff_le_log (by norm_num) hpos).1 (le_trans (by norm_num) hz)
    obtain ⟨k, hk⟩ := Int.eq_ofNat_of_zero_le (show 0 ≤ Int.log 2 |z| + 2 by omega)
    have hu : binary64Ulp z = ((2 ^ k : ℤ) : ℝ) * (2 : ℝ) ^ (-54 : ℤ) := by
      unfold binary64Ulp
      rw [max_eq_left (by omega), show Int.log 2 |z| - 52 = (k : ℤ) + -54 by omega, zpow_add₀ (by norm_num)]
      push_cast
      rw [zpow_natCast]
    obtain ⟨j, hj⟩ : ∃ j : ℤ, c = j * (2 : ℝ) ^ (-54 : ℤ) := by
      rcases hc with rfl | rfl
      · exact ⟨2 ^ 53, by norm_num⟩
      · exact ⟨2 ^ 54, by norm_num⟩
    have e : binary64 z - c = ((i * 2 ^ k - j : ℤ) : ℝ) * (2 : ℝ) ^ (-54 : ℤ) := by
      rw [hi, hu, hj]; push_cast; ring
    rcases eq_or_ne (i * 2 ^ k - j) 0 with h | h
    · left
      rw [h] at e
      simp only [Int.cast_zero, zero_mul] at e
      linarith
    · right
      rw [e, abs_mul, abs_of_pos (show (0 : ℝ) < (2 : ℝ) ^ (-54 : ℤ) by positivity)]
      have : (1 : ℝ) ≤ |((i * 2 ^ k - j : ℤ) : ℝ)| := by exact_mod_cast Int.one_le_abs h
      nlinarith [show (0 : ℝ) < (2 : ℝ) ^ (-54 : ℤ) by positivity]

/-- A value by binary64 is not close enough to 1/2 or to 1 to tell a number that is very near from it. -/
theorem near_of_binary64 {z w c : ℝ} (hc : c = 1 / 2 ∨ c = 1) (h1 : c < z) (h2 : z ≤ c + (2 : ℝ) ^ (-60 : ℤ)) :
    z - c ≤ |binary64 w - z| := by
  have hp : (2 : ℝ) ^ (-54 : ℤ) = 64 * (2 : ℝ) ^ (-60 : ℤ) := by norm_num
  rcases binary64_eq_or_far w hc with h | h
  · rw [h, abs_sub_comm]; exact le_abs_self _
  · rw [hp] at h
    have ht := abs_sub_le (binary64 w) z c
    rw [abs_of_pos (show 0 < z - c by linarith)] at ht
    linarith

/-! ### Relative errors -/

/-- `a` is within the part `e` of `b`. -/
def RelClose (e a b : ℝ) : Prop := |a - b| ≤ e * |b|

theorem RelClose.refl (b : ℝ) : RelClose 0 b b := by simp [RelClose]

/-- A close number is the number times a factor near 1. -/
theorem RelClose.exists_factor {e a b : ℝ} (h : RelClose e a b) (he : 0 ≤ e) : ∃ d, |d| ≤ e ∧ a = b * (1 + d) := by
  rcases eq_or_ne b 0 with rfl | hb
  · have h0 : |a - 0| ≤ e * |0| := h
    exact ⟨0, by simpa using he, by simpa using h0⟩
  · exact ⟨(a - b) / b, by rw [abs_div, div_le_iff₀ (abs_pos.mpr hb)]; exact h, by field_simp; ring⟩

theorem RelClose.of_factor {e d b : ℝ} (h : |d| ≤ e) : RelClose e (b * (1 + d)) b := by
  unfold RelClose
  rw [show b * (1 + d) - b = d * b by ring, abs_mul]
  exact mul_le_mul_of_nonneg_right h (abs_nonneg b)

theorem RelClose.mul {e f a b c d : ℝ} (h : RelClose e a b) (h' : RelClose f c d) (e0 : 0 ≤ e) (f0 : 0 ≤ f)
    (e1 : e ≤ 1 / 100) : RelClose (2 * (e + f)) (a * c) (b * d) := by
  obtain ⟨s, hs, rfl⟩ := h.exists_factor e0
  obtain ⟨t, ht, rfl⟩ := h'.exists_factor f0
  have hst : |s * t| ≤ 1 / 100 * f := by rw [abs_mul]; exact mul_le_mul (hs.trans e1) ht (abs_nonneg t) (by norm_num)
  rw [show b * (1 + s) * (d * (1 + t)) = b * d * (1 + (s + t + s * t)) by ring]
  refine .of_factor ((abs_add_three s t (s * t)).trans ?_)
  linarith

theorem RelClose.div {e f a b c d : ℝ} (h : RelClose e a b) (h' : RelClose f c d) (e0 : 0 ≤ e) (f0 : 0 ≤ f)
    (f1 : f ≤ 1 / 100) : RelClose (2 * (e + f)) (a / c) (b / d) := by
  obtain ⟨s, hs, rfl⟩ := h.exists_factor e0
  obtain ⟨t, ht, rfl⟩ := h'.exists_factor f0
  have ht' := abs_le.mp ht
  have h1 : (99 : ℝ) / 100 ≤ 1 + t := by linarith
  have h1p : 0 < 1 + t := by linarith
  have e : b * (1 + s) / (d * (1 + t)) = b / d * (1 + (s - t) / (1 + t)) := by
    rw [mul_div_mul_comm, one_add_div h1p.ne']; ring
  rw [e]
  refine .of_factor ?_
  rw [abs_div, abs_of_pos h1p, div_le_iff₀ h1p]
  refine (abs_sub s t).trans ?_
  have h2 := mul_le_mul_of_nonneg_left h1 (show 0 ≤ 2 * (_ + f) from by positivity)
  linarith

/-- Rounding one operation adds at most `10^-15`. -/
theorem RelClose.round {e a b : ℝ} (h : RelClose e a b) (e1 : e ≤ 1 / 100) (hb : 2 * minNormal ≤ |b|) :
    RelClose (e + 1 / 1000000000000000) (binary64 a) b := by
  have h' : |a - b| ≤ e * |b| := h
  have hb0 := abs_nonneg b
  have he := mul_le_mul_of_nonneg_right e1 hb0
  have h1 := abs_sub_abs_le_abs_sub a b
  have h2 := abs_sub_abs_le_abs_sub b a
  rw [abs_sub_comm b a] at h2
  have hm := minNormal_pos
  have hu := binary64Ulp_le (z := a) (by linarith)
  have hr := abs_binary64_sub a
  have ht := abs_add_le (binary64 a - a) (a - b)
  rw [sub_add_sub_cancel] at ht
  show |binary64 a - b| ≤ (e + 1 / 1000000000000000) * |b|
  rw [add_mul]
  linarith

/-! ### The estimator's rounding errors -/

theorem half_lt_log_two : (1 : ℝ) / 2 < Real.log 2 := by have := Real.log_two_gt_d9; linarith

theorem log_two_lt_one : Real.log 2 < 1 := by have := Real.log_two_lt_d9; linarith

/-- `ln 2` in binary64. -/
theorem relClose_log_two : RelClose (1 / 1000000000000000) (binary64 (Real.log 2)) (Real.log 2) := by
  have h := half_lt_log_two
  have hm := minNormal_le
  simpa using (RelClose.refl (Real.log 2)).round (by norm_num) (by rw [abs_of_pos (by linarith)]; linarith)

/-- The rounding error of `x` is at most the part `10^-13` of it, unless `p` is closer to 1 than binary64 can say. -/
theorem estXError_le {n : ℤ} {p : ℝ} (hn : 1 ≤ n) (hp : 2 * minNormal ≤ |Real.log p|) :
    estXError n p ≤ 1 / 10000000000000 * |estimateX n p| := by
  have hn' : (1 : ℝ) ≤ |-1 * (n : ℝ)| := by
    rw [abs_mul, abs_neg, abs_one, one_mul]; exact_mod_cast Int.one_le_abs (by omega)
  have hL := half_lt_log_two
  have hL1 := log_two_lt_one
  have hm := minNormal_le
  have num : 2 * minNormal ≤ |-1 * (n : ℝ) * Real.log p| := by
    rw [abs_mul]; exact hp.trans (le_mul_of_one_le_left (abs_nonneg _) hn')
  have den : (1 : ℝ) / 4 ≤ |Real.log 2 * Real.log 2| := by
    rw [abs_mul, abs_of_pos (show 0 < Real.log 2 by linarith)]; nlinarith
  have den1 : |Real.log 2 * Real.log 2| ≤ 1 := by
    rw [abs_mul, abs_of_pos (show 0 < Real.log 2 by linarith)]; nlinarith
  have quo : 2 * minNormal ≤ |-1 * (n : ℝ) * Real.log p / (Real.log 2 * Real.log 2)| := by
    rw [abs_div]
    exact num.trans (le_div_self (abs_nonneg _) (by linarith) den1)
  have ra := (RelClose.refl (-1 * (n : ℝ))).round (by norm_num) (by linarith)
  have rb := (RelClose.refl (Real.log p)).round (by norm_num) hp
  have rc := (ra.mul rb (by norm_num) (by norm_num) (by norm_num)).round (by norm_num) num
  have rd := (relClose_log_two.mul relClose_log_two (by norm_num) (by norm_num) (by norm_num)).round (by norm_num)
    (by linarith)
  have re : |estX n p - -1 * (n : ℝ) * Real.log p / (Real.log 2 * Real.log 2)| ≤ _ :=
    (rc.div rd (by norm_num) (by norm_num) (by norm_num)).round (by norm_num) quo
  have ex : estimateX n p = -1 * (n : ℝ) * Real.log p / (Real.log 2 * Real.log 2) := by
    unfold estimateX; rw [pow_two, neg_one_mul]
  unfold estXError
  rw [ex]
  exact re.trans (mul_le_mul_of_nonneg_right (by norm_num) (abs_nonneg _))

/-- The rounding error of `0.5 + y` is at most the part `10^-13` of `1 + y`. -/
theorem estYError_le {n : ℤ} {m : ℕ} (hq : 4 * minNormal ≤ (m : ℝ) / n) :
    estYError n m ≤ 1 / 10000000000000 * (1 + estimateY n m) := by
  have hL := half_lt_log_two
  have hm := minNormal_le
  have hm0 := minNormal_pos
  have hq0 : 0 < (m : ℝ) / n := by linarith
  have pro : 2 * minNormal ≤ |(m : ℝ) / n * Real.log 2| := by
    rw [abs_of_pos (mul_pos hq0 (by linarith))]; nlinarith
  have ra := (RelClose.refl ((m : ℝ) / n)).round (by norm_num) (by rw [abs_of_pos hq0]; linarith)
  have rb : |estY n m - estimateY n m| ≤ _ :=
    (ra.mul relClose_log_two (by norm_num) (by norm_num) (by norm_num)).round (by norm_num) pro
  have hy : 0 ≤ estimateY n m := mul_nonneg hq0.le (by linarith)
  change _ ≤ _ * |estimateY n m| at rb
  rw [abs_of_nonneg hy] at rb
  have up := abs_le.mp rb
  have hz : 0 < 1 / 2 + estY n m := by linarith
  have rc : |binary64 (1 / 2 + estY n m) - (1 / 2 + estY n m)| ≤ _ :=
    (RelClose.refl (1 / 2 + estY n m)).round (by norm_num) (by rw [abs_of_pos hz]; linarith)
  rw [abs_of_pos hz] at rc
  unfold estYError
  linarith

/-- A number at least `d` away from the two integers around it is not within a smaller error of one. -/
theorem not_nearInteger {z err d : ℝ} (j : ℤ) (h1 : j + d ≤ z) (h2 : z ≤ j + 1 - d) (he : err < d) :
    ¬ NearInteger z err := by
  rintro ⟨-, h⟩
  have h3 := abs_lt.mp (lt_of_le_of_lt h he)
  have h4 : j < round z := by exact_mod_cast (show (j : ℝ) < round z by linarith)
  have h5 : round z < j + 1 := by exact_mod_cast (show (round z : ℝ) < ((j + 1 : ℤ) : ℝ) by push_cast; linarith)
  omega

end Sys2Proof.Machine
end

