-- ==== Sys2Proof/Laws/Bytes.lean ====
section
/-! SUPPORT. The byte payload of PUT and QUERY (R55): what a packed word's bytes are, and that packing and unpacking
undo each other. -/

namespace Sys2Proof

/-- The bytes of a word are its eight byte fields in order. -/
theorem wordBytes_eq (w : Word) : wordBytes w = (List.range 8).map fun i => w.extractLsb' (8 * i) 8 := rfl

@[simp] theorem length_wordBytes (w : Word) : (wordBytes w).length = 8 := rfl

/-- Two words with equal byte fields are equal. -/
theorem word_eq_of_bytes {v w : Word} (h : ∀ i, i < 8 → v.extractLsb' (8 * i) 8 = w.extractLsb' (8 * i) 8) : v = w := by
  apply BitVec.eq_of_getLsbD_eq
  intro t ht
  have := congrArg (fun x : BitVec 8 => x.getLsbD (t % 8)) (h (t / 8) (by omega))
  simpa [BitVec.getLsbD_extractLsb', show t % 8 < 8 by omega, show 8 * (t / 8) + t % 8 = t by omega] using this

/-- Byte field `i` of a packed word is byte `i`, 0 above the last byte. -/
theorem byte_bytesWord : ∀ (bs : List Byte) (i : Nat), i < 8 → (bytesWord bs).extractLsb' (8 * i) 8 = bs.getD i 0
  | [], i, _ => by
    apply BitVec.eq_of_getLsbD_eq
    intro t ht
    simp [bytesWord]
  | b :: bs, 0, _ => by
    apply BitVec.eq_of_getLsbD_eq
    intro t ht
    simp [bytesWord, ht, show t < 64 by omega]
  | b :: bs, i + 1, hi => by
    rw [List.getD_cons_succ, ← byte_bytesWord bs i (by omega)]
    apply BitVec.eq_of_getLsbD_eq
    intro t ht
    have h1 : b.getLsbD (8 * (i + 1) + t) = false := BitVec.getLsbD_of_ge _ _ (by omega)
    have h2 : 8 * (i + 1) + t - 8 = 8 * i + t := by omega
    simp only [bytesWord, BitVec.getLsbD_extractLsb', ht, decide_true, Bool.true_and, BitVec.getLsbD_or,
      BitVec.getLsbD_setWidth, h1, Bool.and_false, Bool.false_or, BitVec.getLsbD_shiftLeft, h2,
      show 8 * (i + 1) + t < 64 by omega, show ¬ 8 * (i + 1) + t < 8 by omega, decide_false, Bool.not_false]

/-- The bytes of the word that holds up to eight bytes: those bytes, then zeros. -/
theorem wordBytes_bytesWord (bs : List Byte) (h : bs.length ≤ 8) :
    wordBytes (bytesWord bs) = bs ++ List.replicate (8 - bs.length) 0 := by
  apply List.ext_getElem?
  intro i
  rw [wordBytes_eq, List.getElem?_map]
  rcases Nat.lt_or_ge i 8 with hi | hi
  · rw [List.getElem?_range hi, Option.map_some, byte_bytesWord bs i hi]
    rcases Nat.lt_or_ge i bs.length with hb | hb
    · simp [List.getElem?_append_left hb, hb]
    · simp [List.getElem?_append_right hb, hb, show i - bs.length < 8 - bs.length by omega]
  · rw [List.getElem?_eq_none (by simpa using hi)]
    symm
    simp
    omega

/-- A word is the packing of its first `n` bytes when its bytes from `n` on are 0. -/
theorem bytesWord_take_wordBytes (w : Word) (n : Nat) (h : ∀ b ∈ (wordBytes w).drop n, b = 0) :
    bytesWord ((wordBytes w).take n) = w := by
  apply word_eq_of_bytes
  intro i hi
  rw [byte_bytesWord _ i hi]
  have hw : (wordBytes w)[i]? = some (w.extractLsb' (8 * i) 8) := by
    rw [wordBytes_eq, List.getElem?_map, List.getElem?_range hi]
    rfl
  rcases Nat.lt_or_ge i n with hn | hn
  · rw [List.getD_eq_getElem?_getD, List.getElem?_take_of_lt hn, hw]
    rfl
  · rw [List.getD_eq_getElem?_getD, List.getElem?_eq_none (by simp; omega), Option.getD_none]
    refine (h _ (List.mem_of_getElem? (i := i - n) ?_)).symm
    rw [List.getElem?_drop, show n + (i - n) = i by omega, hw]

@[simp] theorem packBytes_nil : packBytes [] = [] := rfl

/-- Packing goes eight bytes at a time. -/
theorem packBytes_of_ne_nil {data : List Byte} (h : data ≠ []) :
    packBytes data = bytesWord (data.take 8) :: packBytes (data.drop 8) := by
  have hl : 0 < data.length := List.length_pos_iff.mpr h
  have hc : dataWordCount data.length = dataWordCount (data.length - 8) + 1 := by unfold dataWordCount; omega
  unfold packBytes
  rw [hc, List.range_succ_eq_map, List.map_cons, List.map_map, List.length_drop]
  simp [Function.comp_def, List.drop_drop, Nat.mul_add, Nat.add_comm]

theorem length_packBytes (data : List Byte) : (packBytes data).length = dataWordCount data.length := by
  simp [packBytes]

/-- The bytes of the packed words: the data, then the padding zeros of the last word. -/
theorem flatMap_packBytes : ∀ (n : Nat) (data : List Byte), data.length ≤ n →
    (packBytes data).flatMap wordBytes = data ++ List.replicate (8 * dataWordCount data.length - data.length) 0
  | n, [], _ => rfl
  | 0, b :: bs, h => by simp at h
  | n + 1, b :: bs, h => by
    rw [packBytes_of_ne_nil (List.cons_ne_nil b bs), List.flatMap_cons,
      flatMap_packBytes n _ (by rw [List.length_drop]; simp at h ⊢; omega), wordBytes_bytesWord _ (by simp)]
    rcases Nat.lt_or_ge (b :: bs).length 8 with hl | hl
    · rw [List.take_of_length_le (by omega), List.drop_of_length_le (by omega)]
      have : 8 * dataWordCount (b :: bs).length - (b :: bs).length = 8 - (b :: bs).length := by
        unfold dataWordCount; rw [List.length_cons] at hl ⊢; omega
      rw [this]
      simp [dataWordCount]
    · have ht : ((b :: bs).take 8).length = 8 := by rw [List.length_take]; omega
      have : 8 * dataWordCount (b :: bs).length - (b :: bs).length =
          8 * dataWordCount ((b :: bs).drop 8).length - ((b :: bs).drop 8).length := by
        rw [List.length_drop]; unfold dataWordCount; omega
      rw [ht, this, Nat.sub_self, List.replicate_zero, List.append_nil, ← List.append_assoc, List.take_append_drop]

/-- Unpacking the packed data gives the data back. -/
theorem decodeBytes_encodeBytes {data : List Byte} (h : data.length < 2 ^ 64) : decodeBytes (encodeBytes data) = .ok data := by
  have hl : (BitVec.ofNat 64 data.length).toNat = data.length := by
    rw [BitVec.toNat_ofNat]; exact Nat.mod_eq_of_lt h
  unfold encodeBytes
  simp only [decodeBytes]
  rw [hl, length_packBytes, if_neg (by simp), flatMap_packBytes _ data (Nat.le_refl _), List.drop_left,
    List.take_left, if_pos]
  simp

/-- Packing goes back: words whose bytes from the count on are 0, as many as the count asks for, are the packing of
their first bytes. -/
theorem packBytes_take_flatMap : ∀ (ws : List Word) (n : Nat), ws.length = dataWordCount n →
    (∀ b ∈ (ws.flatMap wordBytes).drop n, b = 0) → packBytes ((ws.flatMap wordBytes).take n) = ws
  | [], _, _, _ => by simp
  | w :: ws, n, hl, hz => by
    have hn : 0 < n := by unfold dataWordCount at hl; rw [List.length_cons] at hl; omega
    have hne : ((w :: ws).flatMap wordBytes).take n ≠ [] := by
      rw [List.flatMap_cons, ne_eq, List.take_eq_nil_iff]
      simp [wordBytes]; omega
    rw [packBytes_of_ne_nil hne, List.flatMap_cons, List.take_take, List.drop_take]
    rw [List.flatMap_cons] at hz
    have hd : (wordBytes w ++ ws.flatMap wordBytes).drop 8 = ws.flatMap wordBytes := List.drop_left' (length_wordBytes w)
    rw [hd, packBytes_take_flatMap ws (n - 8)]
    · congr 1
      rcases Nat.lt_or_ge n 8 with h8 | h8
      · rw [Nat.min_eq_right (by omega), List.take_append_of_le_length (by simp; omega)]
        refine bytesWord_take_wordBytes w n fun b hb => hz b ?_
        rw [List.drop_append_of_le_length (by simp; omega)]
        exact List.mem_append_left _ hb
      · rw [Nat.min_eq_left h8, List.take_left' (length_wordBytes w)]
        have := bytesWord_take_wordBytes w 8 (by rw [List.drop_of_length_le (by simp)]; simp)
        rwa [List.take_of_length_le (by simp)] at this
    · unfold dataWordCount at hl ⊢; rw [List.length_cons] at hl; omega
    · intro b hb
      refine hz b ?_
      rcases Nat.lt_or_ge n 8 with h8 | h8
      · rw [List.drop_append_of_le_length (by simp; omega)]
        rw [show n - 8 = 0 by omega, List.drop_zero] at hb
        exact List.mem_append_right _ hb
      · rw [show n = 8 + (n - 8) by omega, ← List.drop_drop, hd]
        exact hb

/-- A byte payload that decodes is the packing of what it decodes to. -/
theorem encodeBytes_of_decodeBytes {ws : List Word} {data : List Byte} (h : decodeBytes ws = .ok data) :
    encodeBytes data = ws ∧ data.length < 2 ^ 64 := by
  cases ws with
  | nil => simp [decodeBytes] at h
  | cons len ws =>
    simp only [decodeBytes] at h
    split at h
    · exact absurd h (by simp)
    · rename_i hl
      split at h
      · rename_i hz
        rw [Except.ok.injEq] at h
        subst h
        have hfl : (ws.flatMap wordBytes).length = 8 * ws.length := by
          rw [List.length_flatMap]; simp [Nat.mul_comm]
        have hlen : ((ws.flatMap wordBytes).take len.toNat).length = len.toNat := by
          have : ws.length = dataWordCount len.toNat := by simpa using hl
          unfold dataWordCount at this
          rw [List.length_take, hfl]; omega
        refine ⟨?_, by rw [hlen]; exact len.isLt⟩
        unfold encodeBytes
        rw [hlen, packBytes_take_flatMap ws len.toNat (by simpa using hl) (by simpa using hz)]
        simp
      · exact absurd h (by simp)

end Sys2Proof
end

