-- ==== Sys2Proof/Laws/Decode.lean ====
section
/-! SUPPORT. The command header: its three fields read back, and each opcode number names its command. -/

namespace Sys2Proof

open Sys2Proof.Machine

/-- The fields of a command header are what it was made from. -/
theorem commandHeader_fields (op : Opcode) (sid : BitVec 8) :
    headerOpc (commandHeader op sid) = op.code ∧ headerSid (commandHeader op sid) = sid ∧
      headerRsv (commandHeader op sid) = 0 := by
  refine ⟨?_, ?_, ?_⟩ <;> apply BitVec.eq_of_getLsbD_eq <;> intro t ht
  · simp [headerOpc, commandHeader, ht, show t < 64 by omega]
  · simp [headerSid, commandHeader, ht, show 8 + t < 64 by omega]
  · simp [headerRsv, commandHeader, ht, show 16 + t < 64 by omega]
    exact ⟨BitVec.getLsbD_of_ge _ _ (by omega), fun _ => BitVec.getLsbD_of_ge _ _ (by omega)⟩

/-- The opcode number of a command names it. -/
theorem ofCode_code (op : Opcode) : Opcode.ofCode op.code = some op := by cases op <;> rfl

/-- What a header and count word ask for, read from a header that was made. -/
theorem packetLength_commandHeader (op : Opcode) (sid : BitVec 8) (w1 : Word) :
    packetLength (commandHeader op sid) w1 =
      match op with
      | .config => 3
      | .reconstruct => 3 + w1.toNat
      | .put => 2 + dataWordCount w1.toNat
      | .query => 2 + dataWordCount w1.toNat
      | .setStrategy => 1
      | .readM => 1
      | .readK => 1
      | .exportBits => 1 := by
  unfold packetLength
  rw [(commandHeader_fields op sid).1, ofCode_code]
  cases op <;> rfl

end Sys2Proof
end

