-- ==== Sys2Proof/Laws/Memory.lean ====
section
/-! SUPPORT. The laws of the word cells and of the bit store at word level: reads after writes, the canonical form kept
by every operation, and that in canonical form equal reads mean equal data. -/

namespace Sys2Proof.Machine

/-! ### Memory -/

theorem Memory.wfFrom_mono {lo lo' : Nat} (h : lo' ≤ lo) : ∀ {mem : Memory}, mem.wfFrom lo = true → mem.wfFrom lo' = true
  | [], _ => rfl
  | (a, v) :: rest, hw => by
    simp only [Memory.wfFrom, Bool.and_eq_true, decide_eq_true_eq] at hw ⊢
    exact ⟨⟨by omega, hw.1.2⟩, hw.2⟩

theorem Memory.read_eq_zero_of_lt {lo j : Nat} (h : j < lo) : ∀ {mem : Memory}, mem.wfFrom lo = true → mem.read j = 0
  | [], _ => rfl
  | (a, v) :: rest, hw => by
    simp only [Memory.wfFrom, Bool.and_eq_true, decide_eq_true_eq] at hw
    simp only [Memory.read]
    rw [if_neg (by omega)]
    exact Memory.read_eq_zero_of_lt (by omega) hw.2

theorem Memory.read_cons {lo j : Nat} (w : Word) {rest : Memory} (h : j < lo) (hw : rest.wfFrom lo = true) (i : Nat) :
    (Memory.cons j w rest).read i = if i = j then w else rest.read i := by
  unfold Memory.cons
  split
  · rename_i hz
    split
    · rename_i hi; subst hi; rw [hz]; exact Memory.read_eq_zero_of_lt h hw
    · rfl
  · rfl

theorem Memory.wfFrom_cons {lo j : Nat} (w : Word) {rest : Memory} (h : lo ≤ j) (hw : rest.wfFrom (j + 1) = true) :
    (Memory.cons j w rest).wfFrom lo = true := by
  unfold Memory.cons
  split
  · exact Memory.wfFrom_mono (by omega) hw
  · rename_i hz
    simp only [Memory.wfFrom, Bool.and_eq_true, decide_eq_true_eq, bne_iff_ne, ne_eq]
    exact ⟨⟨h, hz⟩, hw⟩

/-- A read after a write gives the word written at its address, and leaves every other address alone. -/
theorem Memory.read_write {lo j : Nat} (w : Word) (i : Nat) :
    ∀ {mem : Memory}, mem.wfFrom lo = true → (mem.write j w).read i = if i = j then w else mem.read i
  | [], _ => Memory.read_cons (lo := j + 1) w (by omega) rfl i
  | (a, v) :: rest, hw => by
    have hw' := hw
    simp only [Memory.wfFrom, Bool.and_eq_true, decide_eq_true_eq] at hw
    unfold Memory.write
    split
    · rename_i hj
      refine Memory.read_cons (lo := a) w hj ?_ i
      simp only [Memory.wfFrom, Bool.and_eq_true, decide_eq_true_eq]
      exact ⟨⟨Nat.le_refl a, hw.1.2⟩, hw.2⟩
    · split
      · rename_i hj
        subst hj
        rw [Memory.read_cons w (by omega) hw.2]
        split
        · rfl
        · rename_i hi; simp [Memory.read, hi]
      · rename_i h1 h2
        simp only [Memory.read]
        rw [Memory.read_write w i hw.2]
        split
        · rename_i hi; subst hi; rw [if_neg (by omega)]
        · rfl

theorem Memory.wfFrom_write {j : Nat} (w : Word) :
    ∀ {lo : Nat} {mem : Memory}, lo ≤ j → mem.wfFrom lo = true → (mem.write j w).wfFrom lo = true
  | lo, [], hlo, _ => Memory.wfFrom_cons w hlo rfl
  | lo, (a, v) :: rest, hlo, hw => by
    simp only [Memory.wfFrom, Bool.and_eq_true, decide_eq_true_eq] at hw
    unfold Memory.write
    split
    · refine Memory.wfFrom_cons w hlo ?_
      simp only [Memory.wfFrom, Bool.and_eq_true, decide_eq_true_eq]
      exact ⟨⟨by omega, hw.1.2⟩, hw.2⟩
    · split
      · rename_i hj; subst hj; exact Memory.wfFrom_cons w hlo hw.2
      · simp only [Memory.wfFrom, Bool.and_eq_true, decide_eq_true_eq]
        exact ⟨hw.1, Memory.wfFrom_write w (by omega) hw.2⟩

/-- In canonical form, equal reads mean equal cells. -/
theorem Memory.ext_read : ∀ {lo : Nat} {m1 m2 : Memory}, m1.wfFrom lo = true → m2.wfFrom lo = true →
    (∀ i, m1.read i = m2.read i) → m1 = m2
  | _, [], [], _, _, _ => rfl
  | _, [], (b, v) :: r2, _, h2, hr => by
    simp only [Memory.wfFrom, Bool.and_eq_true, decide_eq_true_eq, bne_iff_ne, ne_eq] at h2
    have := hr b
    simp only [Memory.read, if_true] at this
    exact absurd this.symm h2.1.2
  | _, (a, v) :: r1, [], h1, _, hr => by
    simp only [Memory.wfFrom, Bool.and_eq_true, decide_eq_true_eq, bne_iff_ne, ne_eq] at h1
    have := hr a
    simp only [Memory.read, if_true] at this
    exact absurd this h1.1.2
  | _, (a, v) :: r1, (b, w) :: r2, h1, h2, hr => by
    simp only [Memory.wfFrom, Bool.and_eq_true, decide_eq_true_eq, bne_iff_ne, ne_eq] at h1 h2
    have ha := hr a
    have hb := hr b
    simp only [Memory.read, if_true] at ha hb
    have hab : a = b := by
      by_contra hne
      rw [if_neg hne] at ha
      rw [if_neg (Ne.symm hne)] at hb
      rcases Nat.lt_or_gt_of_ne hne with h | h
      · exact h1.1.2 (ha.trans (Memory.read_eq_zero_of_lt (by omega) h2.2))
      · exact h2.1.2 (hb.symm.trans (Memory.read_eq_zero_of_lt (by omega) h1.2))
    subst hab
    rw [if_pos rfl] at ha
    subst ha
    congr 1
    refine Memory.ext_read h1.2 h2.2 fun i => ?_
    rcases Nat.lt_or_ge i (a + 1) with hi | hi
    · rw [Memory.read_eq_zero_of_lt hi h1.2, Memory.read_eq_zero_of_lt hi h2.2]
    · have := hr i
      simpa [Memory.read, show i ≠ a by omega] using this

theorem Memory.write_wf {mem : Memory} (h : mem.wf = true) (j : Nat) (w : Word) : (mem.write j w).wf = true :=
  Memory.wfFrom_write w (Nat.zero_le j) h

/-! ### The bit store -/

theorem BitStore.mem_write_all {n j : Nat} {w : Word} (hj : j < n) :
    ∀ {mem : Memory}, (mem.all fun c => decide (c.1 < n)) = true → ((mem.write j w).all fun c => decide (c.1 < n)) = true
  | [], _ => by unfold Memory.write Memory.cons; split <;> simp [hj]
  | (a, v) :: rest, h => by
    have h' := h
    simp only [List.all_cons, Bool.and_eq_true, decide_eq_true_eq] at h
    unfold Memory.write Memory.cons
    repeat' split
    · exact h'
    · simp only [List.all_cons, Bool.and_eq_true, decide_eq_true_eq]; exact ⟨hj, h⟩
    · exact h.2
    · simp only [List.all_cons, Bool.and_eq_true, decide_eq_true_eq]; exact ⟨hj, h.2⟩
    · simp only [List.all_cons, Bool.and_eq_true, decide_eq_true_eq]; exact ⟨h.1, BitStore.mem_write_all hj h.2⟩

@[simp] theorem BitStore.wordWrite_len (st : BitStore) (j : Nat) (w : Word) : (st.wordWrite j w).len = st.len := rfl

@[simp] theorem BitStore.bitSet_len (st : BitStore) (b : Nat) : (st.bitSet b).len = st.len := rfl

@[simp] theorem BitStore.alloc_len (m : Nat) : (BitStore.alloc m).len = m / 64 := rfl

@[simp] theorem BitStore.setAll_len : ∀ (bs : List Word) (st : BitStore), (st.setAll bs).len = st.len
  | [], _ => rfl
  | _ :: bs, _ => (BitStore.setAll_len bs _).trans rfl

@[simp] theorem BitStore.writeFrom_len : ∀ (ws : List Word) (st : BitStore) (j : Nat), (st.writeFrom j ws).len = st.len
  | [], _, _ => rfl
  | _ :: ws, _, _ => (BitStore.writeFrom_len ws _ _).trans rfl

@[simp] theorem BitStore.importWords_len (ws : List Word) : (BitStore.importWords ws).len = ws.length := by
  simp [BitStore.importWords]

theorem BitStore.wf_mem {st : BitStore} (h : st.wf = true) : st.mem.wf = true := by
  simp only [BitStore.wf, Bool.and_eq_true] at h; exact h.1

theorem BitStore.empty_wf : BitStore.empty.wf = true := rfl

theorem BitStore.alloc_wf (m : Nat) : (BitStore.alloc m).wf = true := rfl

theorem BitStore.wordWrite_wf {st : BitStore} (h : st.wf = true) {j : Nat} (hj : j < st.len) (w : Word) :
    (st.wordWrite j w).wf = true := by
  simp only [BitStore.wf, Bool.and_eq_true] at h ⊢
  exact ⟨Memory.write_wf h.1 j w, BitStore.mem_write_all hj h.2⟩

theorem BitStore.bitSet_wf {st : BitStore} (h : st.wf = true) {b : Nat} (hb : b < 64 * st.len) :
    (st.bitSet b).wf = true :=
  BitStore.wordWrite_wf h (by omega) _

theorem BitStore.setAll_wf : ∀ (bs : List Word) {st : BitStore}, st.wf = true →
    (∀ b ∈ bs, b.toNat < 64 * st.len) → (st.setAll bs).wf = true
  | [], _, h, _ => h
  | b :: bs, _, h, hb =>
    BitStore.setAll_wf bs (BitStore.bitSet_wf h (hb b (List.mem_cons_self ..)))
      fun c hc => hb c (List.mem_cons_of_mem _ hc)

theorem BitStore.writeFrom_wf : ∀ (ws : List Word) {st : BitStore} {j : Nat}, st.wf = true →
    j + ws.length ≤ st.len → (st.writeFrom j ws).wf = true
  | [], _, _, h, _ => h
  | w :: ws, _, _, h, hj => by
    rw [List.length_cons] at hj
    exact BitStore.writeFrom_wf ws (BitStore.wordWrite_wf h (by omega) w)
      (by rw [BitStore.wordWrite_len]; omega)

theorem BitStore.importWords_wf (ws : List Word) : (BitStore.importWords ws).wf = true :=
  BitStore.writeFrom_wf ws (BitStore.alloc_wf _) (by simp)

/-- A word read after a word write. -/
theorem BitStore.wordRead_wordWrite {st : BitStore} (h : st.wf = true) (j : Nat) (w : Word) (i : Nat) :
    (st.wordWrite j w).wordRead i = if i = j then w else st.wordRead i :=
  Memory.read_write w i (BitStore.wf_mem h)

/-- A word read after a bit set. -/
theorem BitStore.wordRead_bitSet {st : BitStore} (h : st.wf = true) (b i : Nat) :
    (st.bitSet b).wordRead i = if i = b / 64 then st.wordRead (b / 64) ||| bitMask b else st.wordRead i :=
  BitStore.wordRead_wordWrite h _ _ i

@[simp] theorem BitStore.wordRead_alloc (m i : Nat) : (BitStore.alloc m).wordRead i = 0 := rfl

theorem BitStore.wordRead_writeFrom : ∀ (ws : List Word) {st : BitStore} {j : Nat}, st.wf = true →
    j + ws.length ≤ st.len → ∀ i, (st.writeFrom j ws).wordRead i =
      if j ≤ i ∧ i < j + ws.length then ws.getD (i - j) 0 else st.wordRead i
  | [], _, j, _, _, i => by
    rw [List.length_nil, if_neg (by omega)]
    rfl
  | w :: ws, _, j, h, hj, i => by
    rw [List.length_cons] at hj ⊢
    unfold BitStore.writeFrom
    rw [BitStore.wordRead_writeFrom ws (BitStore.wordWrite_wf h (by omega) w)
      (by rw [BitStore.wordWrite_len]; omega), BitStore.wordRead_wordWrite h]
    by_cases hi : i = j
    · subst hi; simp
    · rw [if_neg hi]
      by_cases h2 : j + 1 ≤ i ∧ i < j + 1 + ws.length
      · rw [if_pos h2, if_pos (by omega), show i - j = (i - (j + 1)) + 1 by omega, List.getD_cons_succ]
      · rw [if_neg h2, if_neg (by omega)]

/-- A word read after `importWords`: the sequence's element, 0 above it. -/
theorem BitStore.wordRead_importWords (ws : List Word) (i : Nat) : (BitStore.importWords ws).wordRead i = ws.getD i 0 := by
  unfold BitStore.importWords
  rw [BitStore.wordRead_writeFrom ws (BitStore.alloc_wf _) (by simp)]
  simp only [Nat.zero_le, Nat.zero_add, true_and, Nat.sub_zero, BitStore.wordRead_alloc]
  split
  · rfl
  · rename_i h; simp [List.getD, List.getElem?_eq_none (Nat.le_of_not_lt h)]

/-- A word above the length of a canonical store reads 0. -/
theorem BitStore.wordRead_of_ge {st : BitStore} (h : st.wf = true) {i : Nat} (hi : st.len ≤ i) : st.wordRead i = 0 := by
  simp only [BitStore.wf, Bool.and_eq_true, List.all_eq_true, decide_eq_true_eq] at h
  have : ∀ mem : Memory, (∀ c ∈ mem, c.1 < st.len) → mem.read i = 0 := by
    intro mem
    induction mem with
    | nil => intro _; rfl
    | cons c rest ih =>
      intro hc
      have := hc c (List.mem_cons_self ..)
      obtain ⟨a, v⟩ := c
      simp only [Memory.read]
      rw [if_neg (by simp at this; omega)]
      exact ih fun d hd => hc d (List.mem_cons_of_mem _ hd)
  exact this st.mem h.2

/-- Canonical stores of one length with equal words are equal. -/
theorem BitStore.ext_wordRead {s1 s2 : BitStore} (h1 : s1.wf = true) (h2 : s2.wf = true) (hl : s1.len = s2.len)
    (hr : ∀ i, i < s1.len → s1.wordRead i = s2.wordRead i) : s1 = s2 := by
  have hm : s1.mem = s2.mem := by
    refine Memory.ext_read (BitStore.wf_mem h1) (BitStore.wf_mem h2) fun i => ?_
    rcases Nat.lt_or_ge i s1.len with hi | hi
    · exact hr i hi
    · have e1 := BitStore.wordRead_of_ge h1 hi
      have e2 := BitStore.wordRead_of_ge h2 (hl ▸ hi)
      exact e1.trans e2.symm
  cases s1; cases s2; simp_all

end Sys2Proof.Machine
end

