-- ==== Sys2Proof/Laws/State.lean ====
section
/-! SUPPORT. One lemma per field per update of State, so that no proof unfolds a record update. -/

namespace Sys2Proof.Machine

/-! ### setBits -/

@[simp] theorem State.setBits_cfg (s : State) (st : BitStore) : (s.setBits st).cfg = s.cfg := rfl
@[simp] theorem State.setBits_m (s : State) (st : BitStore) : (s.setBits st).m = s.m := rfl
@[simp] theorem State.setBits_k (s : State) (st : BitStore) : (s.setBits st).k = s.k := rfl
@[simp] theorem State.setBits_sid (s : State) (st : BitStore) : (s.setBits st).sid = s.sid := rfl
@[simp] theorem State.setBits_bits (s : State) (st : BitStore) : (s.setBits st).bits = st := rfl
@[simp] theorem State.setBits_work (s : State) (st : BitStore) : (s.setBits st).work = s.work := rfl
@[simp] theorem State.setBits_inbox (s : State) (st : BitStore) : (s.setBits st).inbox = s.inbox := rfl
@[simp] theorem State.setBits_outbox (s : State) (st : BitStore) : (s.setBits st).outbox = s.outbox := rfl
@[simp] theorem State.setBits_requests (s : State) (st : BitStore) : (s.setBits st).requests = s.requests := rfl
@[simp] theorem State.setBits_answers (s : State) (st : BitStore) : (s.setBits st).answers = s.answers := rfl

/-! ### setSid -/

@[simp] theorem State.setSid_cfg (s : State) (sid : BitVec 8) : (s.setSid sid).cfg = s.cfg := rfl
@[simp] theorem State.setSid_m (s : State) (sid : BitVec 8) : (s.setSid sid).m = s.m := rfl
@[simp] theorem State.setSid_k (s : State) (sid : BitVec 8) : (s.setSid sid).k = s.k := rfl
@[simp] theorem State.setSid_sid (s : State) (sid : BitVec 8) : (s.setSid sid).sid = sid := rfl
@[simp] theorem State.setSid_bits (s : State) (sid : BitVec 8) : (s.setSid sid).bits = s.bits := rfl
@[simp] theorem State.setSid_work (s : State) (sid : BitVec 8) : (s.setSid sid).work = s.work := rfl
@[simp] theorem State.setSid_inbox (s : State) (sid : BitVec 8) : (s.setSid sid).inbox = s.inbox := rfl
@[simp] theorem State.setSid_outbox (s : State) (sid : BitVec 8) : (s.setSid sid).outbox = s.outbox := rfl
@[simp] theorem State.setSid_requests (s : State) (sid : BitVec 8) : (s.setSid sid).requests = s.requests := rfl
@[simp] theorem State.setSid_answers (s : State) (sid : BitVec 8) : (s.setSid sid).answers = s.answers := rfl

/-! ### setWork -/

@[simp] theorem State.setWork_cfg (s : State) (w : Work) : (s.setWork w).cfg = s.cfg := rfl
@[simp] theorem State.setWork_m (s : State) (w : Work) : (s.setWork w).m = s.m := rfl
@[simp] theorem State.setWork_k (s : State) (w : Work) : (s.setWork w).k = s.k := rfl
@[simp] theorem State.setWork_sid (s : State) (w : Work) : (s.setWork w).sid = s.sid := rfl
@[simp] theorem State.setWork_bits (s : State) (w : Work) : (s.setWork w).bits = s.bits := rfl
@[simp] theorem State.setWork_work (s : State) (w : Work) : (s.setWork w).work = w := rfl
@[simp] theorem State.setWork_inbox (s : State) (w : Work) : (s.setWork w).inbox = s.inbox := rfl
@[simp] theorem State.setWork_outbox (s : State) (w : Work) : (s.setWork w).outbox = s.outbox := rfl
@[simp] theorem State.setWork_requests (s : State) (w : Work) : (s.setWork w).requests = s.requests := rfl
@[simp] theorem State.setWork_answers (s : State) (w : Work) : (s.setWork w).answers = s.answers := rfl

/-! ### setInbox -/

@[simp] theorem State.setInbox_cfg (s : State) (es : List HostEvent) : (s.setInbox es).cfg = s.cfg := rfl
@[simp] theorem State.setInbox_m (s : State) (es : List HostEvent) : (s.setInbox es).m = s.m := rfl
@[simp] theorem State.setInbox_k (s : State) (es : List HostEvent) : (s.setInbox es).k = s.k := rfl
@[simp] theorem State.setInbox_sid (s : State) (es : List HostEvent) : (s.setInbox es).sid = s.sid := rfl
@[simp] theorem State.setInbox_bits (s : State) (es : List HostEvent) : (s.setInbox es).bits = s.bits := rfl
@[simp] theorem State.setInbox_work (s : State) (es : List HostEvent) : (s.setInbox es).work = s.work := rfl
@[simp] theorem State.setInbox_inbox (s : State) (es : List HostEvent) : (s.setInbox es).inbox = es := rfl
@[simp] theorem State.setInbox_outbox (s : State) (es : List HostEvent) : (s.setInbox es).outbox = s.outbox := rfl
@[simp] theorem State.setInbox_requests (s : State) (es : List HostEvent) : (s.setInbox es).requests = s.requests := rfl
@[simp] theorem State.setInbox_answers (s : State) (es : List HostEvent) : (s.setInbox es).answers = s.answers := rfl

/-! ### setRequests -/

@[simp] theorem State.setRequests_cfg (s : State) (rs : List PortRequest) : (s.setRequests rs).cfg = s.cfg := rfl
@[simp] theorem State.setRequests_m (s : State) (rs : List PortRequest) : (s.setRequests rs).m = s.m := rfl
@[simp] theorem State.setRequests_k (s : State) (rs : List PortRequest) : (s.setRequests rs).k = s.k := rfl
@[simp] theorem State.setRequests_sid (s : State) (rs : List PortRequest) : (s.setRequests rs).sid = s.sid := rfl
@[simp] theorem State.setRequests_bits (s : State) (rs : List PortRequest) : (s.setRequests rs).bits = s.bits := rfl
@[simp] theorem State.setRequests_work (s : State) (rs : List PortRequest) : (s.setRequests rs).work = s.work := rfl
@[simp] theorem State.setRequests_inbox (s : State) (rs : List PortRequest) : (s.setRequests rs).inbox = s.inbox := rfl
@[simp] theorem State.setRequests_outbox (s : State) (rs : List PortRequest) : (s.setRequests rs).outbox = s.outbox := rfl
@[simp] theorem State.setRequests_requests (s : State) (rs : List PortRequest) : (s.setRequests rs).requests = rs := rfl
@[simp] theorem State.setRequests_answers (s : State) (rs : List PortRequest) : (s.setRequests rs).answers = s.answers := rfl

/-! ### setAnswers -/

@[simp] theorem State.setAnswers_cfg (s : State) (as : List PortAnswer) : (s.setAnswers as).cfg = s.cfg := rfl
@[simp] theorem State.setAnswers_m (s : State) (as : List PortAnswer) : (s.setAnswers as).m = s.m := rfl
@[simp] theorem State.setAnswers_k (s : State) (as : List PortAnswer) : (s.setAnswers as).k = s.k := rfl
@[simp] theorem State.setAnswers_sid (s : State) (as : List PortAnswer) : (s.setAnswers as).sid = s.sid := rfl
@[simp] theorem State.setAnswers_bits (s : State) (as : List PortAnswer) : (s.setAnswers as).bits = s.bits := rfl
@[simp] theorem State.setAnswers_work (s : State) (as : List PortAnswer) : (s.setAnswers as).work = s.work := rfl
@[simp] theorem State.setAnswers_inbox (s : State) (as : List PortAnswer) : (s.setAnswers as).inbox = s.inbox := rfl
@[simp] theorem State.setAnswers_outbox (s : State) (as : List PortAnswer) : (s.setAnswers as).outbox = s.outbox := rfl
@[simp] theorem State.setAnswers_requests (s : State) (as : List PortAnswer) : (s.setAnswers as).requests = s.requests := rfl
@[simp] theorem State.setAnswers_answers (s : State) (as : List PortAnswer) : (s.setAnswers as).answers = as := rfl

/-! ### answer -/

@[simp] theorem State.answer_cfg (s : State) (a : PortAnswer) : (s.answer a).cfg = s.cfg := rfl
@[simp] theorem State.answer_m (s : State) (a : PortAnswer) : (s.answer a).m = s.m := rfl
@[simp] theorem State.answer_k (s : State) (a : PortAnswer) : (s.answer a).k = s.k := rfl
@[simp] theorem State.answer_sid (s : State) (a : PortAnswer) : (s.answer a).sid = s.sid := rfl
@[simp] theorem State.answer_bits (s : State) (a : PortAnswer) : (s.answer a).bits = s.bits := rfl
@[simp] theorem State.answer_work (s : State) (a : PortAnswer) : (s.answer a).work = s.work := rfl
@[simp] theorem State.answer_inbox (s : State) (a : PortAnswer) : (s.answer a).inbox = s.inbox := rfl
@[simp] theorem State.answer_outbox (s : State) (a : PortAnswer) : (s.answer a).outbox = s.outbox := rfl
@[simp] theorem State.answer_requests (s : State) (a : PortAnswer) : (s.answer a).requests = s.requests := rfl
@[simp] theorem State.answer_answers (s : State) (a : PortAnswer) : (s.answer a).answers = s.answers ++ [a] := rfl

/-! ### deliver -/

@[simp] theorem State.deliver_cfg (s : State) (p : List Word) : (s.deliver p).cfg = s.cfg := rfl
@[simp] theorem State.deliver_m (s : State) (p : List Word) : (s.deliver p).m = s.m := rfl
@[simp] theorem State.deliver_k (s : State) (p : List Word) : (s.deliver p).k = s.k := rfl
@[simp] theorem State.deliver_sid (s : State) (p : List Word) : (s.deliver p).sid = s.sid := rfl
@[simp] theorem State.deliver_bits (s : State) (p : List Word) : (s.deliver p).bits = s.bits := rfl
@[simp] theorem State.deliver_work (s : State) (p : List Word) : (s.deliver p).work = s.work := rfl
@[simp] theorem State.deliver_inbox (s : State) (p : List Word) : (s.deliver p).inbox = s.inbox := rfl
@[simp] theorem State.deliver_outbox (s : State) (p : List Word) : (s.deliver p).outbox = s.outbox ++ [p] := rfl
@[simp] theorem State.deliver_requests (s : State) (p : List Word) : (s.deliver p).requests = s.requests := rfl
@[simp] theorem State.deliver_answers (s : State) (p : List Word) : (s.deliver p).answers = s.answers := rfl

/-! ### respondOk -/

@[simp] theorem State.respondOk_cfg (s : State) (op : Opcode) (payload : List Word) : (s.respondOk op payload).cfg = s.cfg := rfl
@[simp] theorem State.respondOk_m (s : State) (op : Opcode) (payload : List Word) : (s.respondOk op payload).m = s.m := rfl
@[simp] theorem State.respondOk_k (s : State) (op : Opcode) (payload : List Word) : (s.respondOk op payload).k = s.k := rfl
@[simp] theorem State.respondOk_sid (s : State) (op : Opcode) (payload : List Word) : (s.respondOk op payload).sid = s.sid := rfl
@[simp] theorem State.respondOk_bits (s : State) (op : Opcode) (payload : List Word) : (s.respondOk op payload).bits = s.bits := rfl
@[simp] theorem State.respondOk_work (s : State) (op : Opcode) (payload : List Word) : (s.respondOk op payload).work = s.work := rfl
@[simp] theorem State.respondOk_inbox (s : State) (op : Opcode) (payload : List Word) : (s.respondOk op payload).inbox = s.inbox := rfl
@[simp] theorem State.respondOk_outbox (s : State) (op : Opcode) (payload : List Word) : (s.respondOk op payload).outbox = s.outbox ++ [responseHeader op.code .ok :: payload] := rfl
@[simp] theorem State.respondOk_requests (s : State) (op : Opcode) (payload : List Word) : (s.respondOk op payload).requests = s.requests := rfl
@[simp] theorem State.respondOk_answers (s : State) (op : Opcode) (payload : List Word) : (s.respondOk op payload).answers = s.answers := rfl

/-! ### respondError -/

@[simp] theorem State.respondError_cfg (s : State) (echo : BitVec 8) (st : Status) : (s.respondError echo st).cfg = s.cfg := rfl
@[simp] theorem State.respondError_m (s : State) (echo : BitVec 8) (st : Status) : (s.respondError echo st).m = s.m := rfl
@[simp] theorem State.respondError_k (s : State) (echo : BitVec 8) (st : Status) : (s.respondError echo st).k = s.k := rfl
@[simp] theorem State.respondError_sid (s : State) (echo : BitVec 8) (st : Status) : (s.respondError echo st).sid = s.sid := rfl
@[simp] theorem State.respondError_bits (s : State) (echo : BitVec 8) (st : Status) : (s.respondError echo st).bits = s.bits := rfl
@[simp] theorem State.respondError_work (s : State) (echo : BitVec 8) (st : Status) : (s.respondError echo st).work = s.work := rfl
@[simp] theorem State.respondError_inbox (s : State) (echo : BitVec 8) (st : Status) : (s.respondError echo st).inbox = s.inbox := rfl
@[simp] theorem State.respondError_outbox (s : State) (echo : BitVec 8) (st : Status) : (s.respondError echo st).outbox = s.outbox ++ [[responseHeader echo st]] := rfl
@[simp] theorem State.respondError_requests (s : State) (echo : BitVec 8) (st : Status) : (s.respondError echo st).requests = s.requests := rfl
@[simp] theorem State.respondError_answers (s : State) (echo : BitVec 8) (st : Status) : (s.respondError echo st).answers = s.answers := rfl

/-! ### install -/

@[simp] theorem State.install_cfg (s : State) (st : BitStore) (m k : Word) (sid : BitVec 8) : (s.install st m k sid).cfg = true := rfl
@[simp] theorem State.install_m (s : State) (st : BitStore) (m k : Word) (sid : BitVec 8) : (s.install st m k sid).m = m := rfl
@[simp] theorem State.install_k (s : State) (st : BitStore) (m k : Word) (sid : BitVec 8) : (s.install st m k sid).k = k := rfl
@[simp] theorem State.install_sid (s : State) (st : BitStore) (m k : Word) (sid : BitVec 8) : (s.install st m k sid).sid = sid := rfl
@[simp] theorem State.install_bits (s : State) (st : BitStore) (m k : Word) (sid : BitVec 8) : (s.install st m k sid).bits = st := rfl
@[simp] theorem State.install_work (s : State) (st : BitStore) (m k : Word) (sid : BitVec 8) : (s.install st m k sid).work = s.work := rfl
@[simp] theorem State.install_inbox (s : State) (st : BitStore) (m k : Word) (sid : BitVec 8) : (s.install st m k sid).inbox = s.inbox := rfl
@[simp] theorem State.install_outbox (s : State) (st : BitStore) (m k : Word) (sid : BitVec 8) : (s.install st m k sid).outbox = s.outbox := rfl
@[simp] theorem State.install_requests (s : State) (st : BitStore) (m k : Word) (sid : BitVec 8) : (s.install st m k sid).requests = s.requests := rfl
@[simp] theorem State.install_answers (s : State) (st : BitStore) (m k : Word) (sid : BitVec 8) : (s.install st m k sid).answers = s.answers := rfl

/-! ### resetEvent -/

@[simp] theorem State.resetEvent_cfg (s : State) : s.resetEvent.cfg = false := rfl
@[simp] theorem State.resetEvent_m (s : State) : s.resetEvent.m = 0 := rfl
@[simp] theorem State.resetEvent_k (s : State) : s.resetEvent.k = 0 := rfl
@[simp] theorem State.resetEvent_sid (s : State) : s.resetEvent.sid = 0 := rfl
@[simp] theorem State.resetEvent_bits (s : State) : s.resetEvent.bits = BitStore.empty := rfl
@[simp] theorem State.resetEvent_work (s : State) : s.resetEvent.work = State.reset.work := rfl
@[simp] theorem State.resetEvent_inbox (s : State) : s.resetEvent.inbox = s.inbox := rfl
@[simp] theorem State.resetEvent_outbox (s : State) : s.resetEvent.outbox = s.outbox := rfl
@[simp] theorem State.resetEvent_requests (s : State) : s.resetEvent.requests = [] := rfl
@[simp] theorem State.resetEvent_answers (s : State) : s.resetEvent.answers = s.answers := rfl

end Sys2Proof.Machine
end

