-- ==== Sys2Proof/Laws/Exec.lean ====
section
/-! SUPPORT. One lemma per shared operation, which says once everything it can do: capacities, the strategies, the
configured check, the indices of a filter, the bit test. -/

namespace Sys2Proof.Machine

/-! ### Capacities -/

/-- `M_MAX` is a multiple of 64 with `64 ≤ M_MAX ≤ 2^64 − 64`. -/
theorem mMax_bounds : Config.mMax % 64 = 0 ∧ 64 ≤ Config.mMax ∧ Config.mMax ≤ 2 ^ 64 - 64 := by
  have := Config.mMaxWords.isLt
  unfold Config.mMax
  omega

/-- Every capacity the spec allows for the platform is `M_MAX` for some value of the parameter. -/
theorem mMax_surjective (m : Nat) (h0 : m % 64 = 0) (h1 : 64 ≤ m) (h2 : m ≤ 2 ^ 64 - 64) :
    ∃ n : Fin (2 ^ 58 - 2 + 1), m = 64 * (n.val + 1) :=
  ⟨⟨m / 64 - 1, by omega⟩, by show m = 64 * (m / 64 - 1 + 1); omega⟩

/-- `pad64` is the least multiple of 64 that is not below its argument (R85). -/
theorem pad64_spec (x : Nat) : pad64 x % 64 = 0 ∧ x ≤ pad64 x ∧ pad64 x < x + 64 := by
  unfold pad64
  omega

theorem fitsCapacity_iff (m : Nat) : fitsCapacity m = true ↔ m ≤ Config.mMax := by simp [fitsCapacity]

/-- A capacity that fits is stored in the 64-bit register as it is. -/
theorem toNat_ofNat_of_fits {m : Nat} (h : m ≤ Config.mMax) : (BitVec.ofNat 64 m).toNat = m := by
  have := mMax_bounds
  rw [BitVec.toNat_ofNat]
  exact Nat.mod_eq_of_lt (by omega)

/-! ### Strategies -/

theorem implemented_zero : implemented 0 = true := rfl

theorem indexes_zero (data : List Byte) (m k : Word) : indexes 0 data m k = some (referenceIndexes data m k) := rfl

/-- An implemented strategy gives exactly `k` indices below `m` (R90). -/
theorem indexes_of_implemented {sid : BitVec 8} (h : implemented sid = true) (data : List Byte) {m k : Word}
    (hm : 64 ≤ m.toNat) (hm64 : m.toNat % 64 = 0) (hk : 1 ≤ k.toNat) :
    ∃ idx, indexes sid data m k = some idx ∧ idx.length = k.toNat ∧ ∀ b ∈ idx, b.toNat < m.toNat := by
  unfold implemented at h
  obtain ⟨st, hst⟩ := Option.isSome_iff_exists.mp h
  exact ⟨st.indexes data m k, by simp [indexes, hst], st.length_indexes data m k hm hm64 hk,
    st.indexes_lt data m k hm hm64 hk⟩

/-! ### The configured check and the indices of a filter -/

theorem whenConfigured_of_not {op : Opcode} {s : State} (h : s.cfg = false)
    (run : Host.Outcome State Fault Refusal) : whenConfigured op s run = raise op .notConfigured s := by
  simp [whenConfigured, h]

theorem whenConfigured_of {op : Opcode} {s : State} (h : s.cfg = true)
    (run : Host.Outcome State Fault Refusal) : whenConfigured op s run = run := by
  simp [whenConfigured, h]

/-- What a command that needs a filter can answer: the error, or its own run on a configured engine. -/
theorem whenConfigured_cases {op : Opcode} {s t : State} {run : Host.Outcome State Fault Refusal}
    (h : whenConfigured op s run = .next t) :
    (s.cfg = false ∧ t = s.respondError op.code .notConfigured) ∨ (s.cfg = true ∧ run = .next t) := by
  unfold whenConfigured raise at h
  cases hc : s.cfg with
  | false => simp [hc] at h; exact .inl ⟨rfl, h.symm⟩
  | true => simp [hc] at h; exact .inr ⟨rfl, h⟩

/-- On a filter the indices exist, there are `K` of them, each is a bit of the store, and the run gets them. -/
theorem withIndexes_of_inv {s : State} (hi : EngineInv s) (hc : s.cfg = true) (data : List Byte) :
    ∃ idx, indexes s.sid data s.m s.k = some idx ∧ idx.length = s.k.toNat ∧ (∀ b ∈ idx, b.toNat < s.m.toNat) ∧
      (∀ b ∈ idx, b.toNat < 64 * s.bits.len) ∧ s.m.toNat = 64 * s.bits.len ∧
      ∀ run, withIndexes data s run = run idx := by
  obtain ⟨h64, hle, -, hk, himp, hlen⟩ := hi.configured hc
  obtain ⟨idx, he, hl, hlt⟩ := indexes_of_implemented himp data hle h64 hk
  have hm : s.m.toNat = 64 * s.bits.len := by omega
  refine ⟨idx, he, hl, hlt, fun b hb => hm ▸ hlt b hb, hm, fun run => ?_⟩
  have : (idx.all fun b => s.bits.hasBit b.toNat) = true := by
    simp only [List.all_eq_true, BitStore.hasBit, decide_eq_true_eq]
    exact fun b hb => hm ▸ hlt b hb
  simp [withIndexes, he, this]

/-- What PUT and QUERY can answer beyond the configured check: their run on the indices, all bits of the store. -/
theorem withIndexes_cases {data : List Byte} {s t : State} {run : List Word → Host.Outcome State Fault Refusal}
    (h : withIndexes data s run = .next t) :
    ∃ idx, indexes s.sid data s.m s.k = some idx ∧ (∀ b ∈ idx, b.toNat < 64 * s.bits.len) ∧ run idx = .next t := by
  unfold withIndexes at h
  split at h
  · cases h
  · rename_i idx he
    split at h
    · rename_i ha
      simp only [List.all_eq_true, BitStore.hasBit, decide_eq_true_eq] at ha
      exact ⟨idx, he, ha, h⟩
    · cases h

/-- PUT's own effect on a filter. -/
theorem execPut_of_inv {s : State} (hi : EngineInv s) (hc : s.cfg = true) (data : List Byte) :
    ∃ idx, indexes s.sid data s.m s.k = some idx ∧ execPut data s =
      .next (((s.setBits (s.bits.setAll idx)).setWork (workAfter s.sid data s.m s.k s.work)).respondOk .put []) := by
  obtain ⟨idx, he, _, _, _, _, h⟩ := withIndexes_of_inv hi hc data
  exact ⟨idx, he, by unfold execPut; rw [whenConfigured_of hc, h]⟩

/-- QUERY's own effect on a filter. -/
theorem execQuery_of_inv {s : State} (hi : EngineInv s) (hc : s.cfg = true) (data : List Byte) :
    ∃ idx, indexes s.sid data s.m s.k = some idx ∧ execQuery data s =
      .next ((s.setWork { workAfter s.sid data s.m s.k s.work with acc := accOf s.bits idx }).respondOk .query
        [accWord (accOf s.bits idx)]) := by
  obtain ⟨idx, he, _, _, _, _, h⟩ := withIndexes_of_inv hi hc data
  exact ⟨idx, he, by unfold execQuery; rw [whenConfigured_of hc, h]⟩

/-! ### Bits -/

/-- A bit test is one bit of a word, as a word. -/
theorem bitTest_eq (st : BitStore) (b : Nat) :
    st.bitTest b = if (st.wordRead (b / 64)).getLsbD (b % 64) then 1 else 0 := by
  unfold BitStore.bitTest
  apply BitVec.eq_of_getLsbD_eq
  intro i hi
  rcases Nat.eq_zero_or_pos i with rfl | h
  · cases hb : (st.wordRead (b / 64)).getLsbD (b % 64) <;> simp [hb]
  · have h1 : (1#64).getLsbD i = false := by simp; omega
    cases hb : (st.wordRead (b / 64)).getLsbD (b % 64) <;> simp [h1]

/-- Bit `t` of the mask of bit address `b`. -/
theorem bitMask_getLsbD (b t : Nat) (ht : t < 64) : (bitMask b).getLsbD t = decide (t = b % 64) := by
  unfold bitMask
  have : b % 64 < 64 := Nat.mod_lt _ (by omega)
  by_cases h : t < b % 64
  · simp [BitVec.getLsbD_shiftLeft, h]; omega
  · simp [h, ht]; omega

end Sys2Proof.Machine
end

