-- ==== Sys2Proof/Laws/PerInstr.lean ====
section
/-! SUPPORT. Statements made per instruction. EncodeLength: a well-formed host command encodes to a packet of exactly
the length its header and count word ask for (spec/30_encoding.md R52), a port operation to a request. -/

namespace Sys2Proof.Laws.EncodeLength

open Sys2Proof Sys2Proof.Machine

/-- The family's statement about one instruction. -/
def Statement (i : Instr) : Prop :=
  WellFormed i = true →
    match encode i with
    | .command packet => i.isCommand = true ∧ packet.length = packetLength (packet.headD 0) (packet.getD 1 0)
    | .request _ => i.isCommand = false

theorem config (sid : BitVec 8) (mRaw k : Word) : Statement (.config sid mRaw k) :=
  fun _ => ⟨rfl, (packetLength_commandHeader .config sid mRaw).symm⟩

theorem reconstruct (sid : BitVec 8) (k : Word) (words : List Word) : Statement (.reconstruct sid k words) := by
  intro h
  simp only [WellFormed, fitsCountWord, decide_eq_true_eq] at h
  refine ⟨rfl, ?_⟩
  simp only [List.headD_cons, List.getD_cons_succ, List.getD_cons_zero, packetLength_commandHeader,
    List.length_cons, BitVec.toNat_ofNat, Nat.mod_eq_of_lt h]
  omega

theorem setStrategy (sid : BitVec 8) : Statement (.setStrategy sid) :=
  fun _ => ⟨rfl, (packetLength_commandHeader .setStrategy sid 0).symm⟩

/-- The length of a packet of data. -/
theorem bytes {data : List Byte} (h : data.length < 2 ^ 64) {op : Opcode} (hop : op = .put ∨ op = .query) :
    (commandHeader op 0 :: encodeBytes data).length =
      packetLength (commandHeader op 0) ((commandHeader op 0 :: encodeBytes data).getD 1 0) := by
  have hl : (packBytes data).length = dataWordCount data.length := by simp [packBytes]
  rw [packetLength_commandHeader]
  simp only [encodeBytes, List.length_cons, List.getD_cons_succ, List.getD_cons_zero, BitVec.toNat_ofNat,
    Nat.mod_eq_of_lt h, hl]
  rcases hop with rfl | rfl <;> simp only [] <;> omega

theorem put (data : List Byte) : Statement (.put data) := by
  intro h
  simp only [WellFormed, fitsCountWord, decide_eq_true_eq] at h
  exact ⟨rfl, bytes h (.inl rfl)⟩

theorem query (data : List Byte) : Statement (.query data) := by
  intro h
  simp only [WellFormed, fitsCountWord, decide_eq_true_eq] at h
  exact ⟨rfl, bytes h (.inr rfl)⟩

theorem readM : Statement .readM := fun _ => ⟨rfl, rfl⟩

theorem readK : Statement .readK := fun _ => ⟨rfl, rfl⟩

theorem exportBits : Statement .exportBits := fun _ => ⟨rfl, rfl⟩

theorem bsAlloc (m : Word) : Statement (.bsAlloc m) := fun _ => rfl

theorem bsSet (b : Word) : Statement (.bsSet b) := fun _ => rfl

theorem bsTest (b : Word) : Statement (.bsTest b) := fun _ => rfl

theorem bsRdWord (j : Word) : Statement (.bsRdWord j) := fun _ => rfl

theorem bsWrWord (j w : Word) : Statement (.bsWrWord j w) := fun _ => rfl

theorem hash128 (data : List Byte) : Statement (.hash128 data) := fun _ => rfl

end Sys2Proof.Laws.EncodeLength
end

