-- ==== Sys2Proof/Machine/Murmur.lean ====
section
/-! DEFINITION. The reference instantiation of `H128` (spec/42_index_generation.md section 6): MurmurHash3 x64 128 with
seed 0. `H128` itself stays a parameter (`Config.h128`, log 4); no step, meaning or claim uses this file. The tests use
it for the spec's fixtures. -/

namespace Sys2Proof.Machine

/-- `c1` of section 6. -/
def murmurC1 : Word := 0x87c37b91114253d5

/-- `c2` of section 6. -/
def murmurC2 : Word := 0x4cf5ad432745937f

/-- `rotl(x, r)`. -/
def murmurRotl (x : Word) (r : Nat) : Word := (x <<< r) ||| (x >>> (64 - r))

/-- `fmix(z)`. -/
def murmurFmix (z : Word) : Word :=
  let a := (z ^^^ (z >>> 33)) * 0xff51afd7ed558ccd
  let b := (a ^^^ (a >>> 33)) * 0xc4ceb9fe1a85ec53
  b ^^^ (b >>> 33)

/-- The scrambled `k1` of a block or tail. -/
def murmurK1 (k1 : Word) : Word := murmurRotl (k1 * murmurC1) 31 * murmurC2

/-- The scrambled `k2` of a block or tail. -/
def murmurK2 (k2 : Word) : Word := murmurRotl (k2 * murmurC2) 33 * murmurC1

/-- One full 16-byte block. -/
def murmurBlock (h : Word × Word) (block : List Byte) : Word × Word :=
  let h1 := (murmurRotl (h.1 ^^^ murmurK1 (bytesWord (block.take 8))) 27 + h.2) * 5 + 0x52dce729
  let h2 := (murmurRotl (h.2 ^^^ murmurK2 (bytesWord (block.drop 8))) 31 + h1) * 5 + 0x38495ab5
  (h1, h2)

/-- The full blocks in order, and the tail; `fuel` bounds the number of blocks. -/
def murmurBody : Nat → List Byte → Word × Word → Word × Word
  | 0, tail, h => (h.1 ^^^ murmurK1 (bytesWord (tail.take 8)), h.2 ^^^ murmurK2 (bytesWord (tail.drop 8)))
  | fuel + 1, data, h => murmurBody fuel (data.drop 16) (murmurBlock h (data.take 16))

/-- The finalisation. -/
def murmurFinish (len : Word) (h : Word × Word) : Word × Word :=
  let a1 := (h.1 ^^^ len) + (h.2 ^^^ len)
  let a2 := (h.2 ^^^ len) + a1
  let b1 := murmurFmix a1 + murmurFmix a2
  (b1, murmurFmix a2 + b1)

/-- `H128(data)` of section 6. An empty part of the tail scrambles to 0 and so leaves its half alone. -/
def murmur (data : List Byte) : Word × Word :=
  murmurFinish (BitVec.ofNat 64 data.length) (murmurBody (data.length / 16) data (0, 0))

/-- The reference indices for a given hash pair: the loop of R92 started with `(h1, h2)`. -/
def indexesFrom (h : Word × Word) (m : Word) (k : Nat) : List Word :=
  (generate m k (Work.start { c := 0, h2 := 0, i := 0, acc := false } h)).1

end Sys2Proof.Machine
end

