-- ==== Sys2Proof/Tests/Slice0.lean ====
section
/-! SUPPORT. Tests, each with the place in spec/ its expected result comes from, and for every obligation with
hypotheses the witness that meets them. -/

namespace Sys2Proof.Tests

open Sys2Proof Sys2Proof.Machine

/-! ### Small states -/

/-- The state after step 3 of 95_test_vectors.md 2.6: `M` = 64, `K` = 3, `BITS` = [0x8000000000000003]. -/
def filter64 : State :=
  { State.reset with cfg := true, m := 64, k := 3, bits := { len := 1, mem := [(0, 0x8000000000000003)] } }

/-- The state after line 2 of program P3: `M` = 128, `K` = 3, bits 9, 61 and 99 set. -/
def filter128 : State :=
  { State.reset with cfg := true, m := 128, k := 3,
                     bits := { len := 2, mem := [(0, 0x2000000000000200), (1, 0x0000000800000000)] } }

/-- A state with one host event to come. -/
def waiting (s : State) (e : HostEvent) : State := s.setInbox [e]

theorem filter64_inv : EngineInv filter64 where
  store_wf := rfl
  no_request := rfl
  unconfigured := fun h => by cases h
  configured := fun _ => ⟨rfl, Nat.le_refl _, mMax_bounds.2.1, by decide, rfl, rfl⟩

theorem reset_inv : EngineInv State.reset where
  store_wf := rfl
  no_request := rfl
  unconfigured := fun _ => ⟨rfl, rfl, rfl, rfl⟩
  configured := fun h => by cases h

theorem filter64_put (data : List Byte) : ∃ t, exec (.put data) filter64 = .next t := by
  obtain ⟨_, _, h⟩ := execPut_of_inv filter64_inv rfl data
  exact ⟨_, h⟩

theorem filter64_query (data : List Byte) : ∃ t, exec (.query data) filter64 = .next t := by
  obtain ⟨_, _, h⟩ := execQuery_of_inv filter64_inv rfl data
  exact ⟨_, h⟩

/-- RECONSTRUCT of one word succeeds in every state. -/
theorem reconstruct_one_word (k : Word) (hk : k ≠ 0) (w : Word) (s : State) :
    ∃ t, exec (.reconstruct 0 k [w]) s = .next t := by
  have hf : fitsCapacity (wordsCapacity [w]) = true := (fitsCapacity_iff _).2 mMax_bounds.2.1
  have hn : ¬ ([w].length = 0 ∨ k = 0 ∨ implemented 0 = false) := by
    rintro (h | h | h)
    · cases h
    · exact hk h
    · exact absurd h (by rw [show implemented 0 = true from rfl]; decide)
  exact ⟨_, (if_neg hn).trans (if_pos hf)⟩

/-! ### WellFormed: each check refuses an ill-formed term -/

theorem test_wellFormed_reconstruct_refuses : WellFormed (.reconstruct 0 3 (List.replicate (2 ^ 64) 0)) = false := by
  simp only [WellFormed, fitsCountWord, List.length_replicate, Nat.lt_irrefl, decide_false]

theorem test_wellFormed_put_refuses : WellFormed (.put (List.replicate (2 ^ 64) 0)) = false := by
  simp only [WellFormed, fitsCountWord, List.length_replicate, Nat.lt_irrefl, decide_false]

theorem test_wellFormed_query_refuses : WellFormed (.query (List.replicate (2 ^ 64) 0)) = false := by
  simp only [WellFormed, fitsCountWord, List.length_replicate, Nat.lt_irrefl, decide_false]

theorem test_wellFormed_accepts_longest : WellFormed (.put (List.replicate (2 ^ 64 - 1) 0)) = true := by
  simp only [WellFormed, fitsCountWord, List.length_replicate, decide_eq_true_eq]
  omega

/-! ### Decode: words written out from 30_encoding.md (Table R56, R51, R55, section 7) and 95_test_vectors.md P1 -/

theorem test_decode_config :
    decode (.command [0x0000000000000301, 0x00000000000003BF, 0x0000000000000007]) = .ok (.config 3 959 7) := by decide

theorem test_decode_reconstruct :
    decode (.command [0x0000000000000002, 0x2, 0x3, 0x2000000000000200, 0x0000000800000000]) =
      .ok (.reconstruct 0 3 [0x2000000000000200, 0x0000000800000000]) := by decide

theorem test_decode_setStrategy : decode (.command [0x000000000000FF03]) = .ok (.setStrategy 255) := by decide

/-- P1 line 5: the 21 bytes of "this_is_a_test_string". -/
def fixtureBytes : List Byte :=
  [0x74, 0x68, 0x69, 0x73, 0x5f, 0x69, 0x73, 0x5f, 0x61, 0x5f, 0x74, 0x65, 0x73, 0x74, 0x5f, 0x73, 0x74, 0x72, 0x69,
   0x6e, 0x67]

theorem test_decode_put :
    decode (.command [0x04, 0x15, 0x5F73695F73696874, 0x735F747365745F61, 0x000000676E697274]) =
      .ok (.put fixtureBytes) := by decide

theorem test_decode_query_empty : decode (.command [0x05, 0x00]) = .ok (.query []) := by decide

theorem test_decode_query_eight_bytes :
    decode (.command [0x05, 0x08, 0x5F73695F73696874]) =
      .ok (.query [0x74, 0x68, 0x69, 0x73, 0x5f, 0x69, 0x73, 0x5f]) := by decide

theorem test_decode_readM : decode (.command [0x0000000000000006]) = .ok .readM := by decide

theorem test_decode_readK : decode (.command [0x0000000000000007]) = .ok .readK := by decide

theorem test_decode_export : decode (.command [0x0000000000000008]) = .ok .exportBits := by decide

/-- Table R57: op 0b000 to 0b100; `wdata` ignored but for BS_WRWORD. -/
theorem test_decode_bsAlloc : decode (.request (.bitstore 0b000 128 7)) = .ok (.bsAlloc 128) := by decide

theorem test_decode_bsSet : decode (.request (.bitstore 0b001 99 7)) = .ok (.bsSet 99) := by decide

theorem test_decode_bsTest : decode (.request (.bitstore 0b010 61 7)) = .ok (.bsTest 61) := by decide

theorem test_decode_bsRdWord : decode (.request (.bitstore 0b011 1 7)) = .ok (.bsRdWord 1) := by decide

theorem test_decode_bsWrWord : decode (.request (.bitstore 0b100 1 7)) = .ok (.bsWrWord 1 7) := by decide

theorem test_decode_hash128 : decode (.request (.hash [0x61, 0x62])) = .ok (.hash128 [0x61, 0x62]) := by decide

theorem test_decode_reserved_ops :
    decode (.request (.bitstore 0b101 0 0)) = .error .reservedPortOp ∧
    decode (.request (.bitstore 0b111 0 0)) = .error .reservedPortOp := by decide

/-- The six clauses of R58, on the packets of 95_test_vectors.md 2.5. -/
theorem test_decode_malformed :
    decode (.command []) = .error .emptyPacket ∧
    decode (.command [0x0000000000000000]) = .error .reservedOpcode ∧
    decode (.command [0x0000000000000009]) = .error .reservedOpcode ∧
    decode (.command [0x0000000000010006]) = .error .reservedHeaderBits ∧
    decode (.command [0x0000000000000106]) = .error .sidNotZero ∧
    decode (.command [0x0000000000000006, 0]) = .error .lengthMismatch := by decide

theorem test_decode_malformed_lengths :
    decode (.command [0x0000000000000001, 959]) = .error .lengthMismatch ∧
    decode (.command [0x0000000000000004, 1]) = .error .lengthMismatch ∧
    decode (.command [0x0000000000000004, 0, 0]) = .error .lengthMismatch ∧
    decode (.command [0x0000000000000004, 1, 0x4141]) = .error .nonzeroPadding ∧
    decode (.command [0x0000000000000002, 2, 3, 5]) = .error .lengthMismatch := by decide

/-- The encoder, on P1 line 5 (R55). -/
theorem test_encode_put :
    encode (.put fixtureBytes) =
      .command [0x04, 0x15, 0x5F73695F73696874, 0x735F747365745F61, 0x000000676E697274] := by decide

/-- Table rows as spec/opcode_table.json numbers their bits: a command header with the operand words left out, and a
BITSTORE op. -/
theorem test_decodeTableWord :
    decodeTableWord 64 0x1 = some (.config 0 0 0) ∧ decodeTableWord 64 0x4 = some (.put []) ∧
    decodeTableWord 64 0x8 = some .exportBits ∧ decodeTableWord 8 0x2 = some (.bsTest 0) ∧
    decodeTableWord 0 0 = some (.hash128 []) := by decide

/-! ### The step, from 95_test_vectors.md 2.5 and P4 -/

theorem test_step_first_instruction :
    step (State.reset.withFetchWord 64 0x6) = .next (State.reset.deliver [0x0000000000000306]) := rfl

theorem test_step_hash_request :
    step (State.reset.withFetchWord 0 0) =
      .next (State.reset.answer (.hash (Config.h128 []).1 (Config.h128 []).2)) := rfl

theorem test_step_empty_packet :
    step (waiting State.reset (.packet [])) = .next (State.reset.deliver [0x0000000000000100]) := rfl

theorem test_step_reserved_opcode :
    step (waiting filter128 (.packet [0x0000000000000009])) = .next (filter128.deliver [0x0000000000000109]) := rfl

theorem test_step_readM :
    step (waiting filter128 (.packet [0x0000000000000006])) =
      .next (filter128.deliver [0x0000000000000006, 0x0000000000000080]) := rfl

theorem test_step_reset : step (waiting filter128 .reset) = .next State.reset := rfl

theorem test_step_reserved_port_op :
    step (State.reset.setRequests [.bitstore 0b101 0 0]) = .fault .reservedPortOp := rfl

/-! ### The commands, from 95_test_vectors.md 2.5 and 2.6 -/

theorem test_config_zero_count : exec (.config 0 959 0) filter128 = .next (filter128.deliver [0x201]) := by
  simp only [exec, execConfig]; rw [if_pos (by decide)]; rfl

/-- `CONFIG 1, 3`: `M` = 64, one word, 0; whatever the implementation, 64 fits. -/
theorem test_config_smallest :
    exec (.config 0 1 3) State.reset =
      .next ({ State.reset with cfg := true, m := 64, k := 3, bits := { len := 1, mem := [] } }.deliver [0x1]) := by
  have hf : fitsCapacity (configCapacity 1) = true := (fitsCapacity_iff _).2 mMax_bounds.2.1
  simp only [exec, execConfig]
  rw [if_neg (by rw [show implemented 0 = true from rfl]; decide), if_pos hf]
  rfl

theorem test_reconstruct_no_words : exec (.reconstruct 0 3 []) filter128 = .next (filter128.deliver [0x202]) := by
  simp only [exec, execReconstruct]; rw [if_pos (by decide)]; rfl

/-- `RECONSTRUCT [0xFFFFFFFFFFFFFFFF], 3`. -/
theorem test_reconstruct_saturated :
    exec (.reconstruct 0 3 [0xFFFFFFFFFFFFFFFF]) filter64 =
      .next ({ filter64 with bits := { len := 1, mem := [(0, 0xFFFFFFFFFFFFFFFF)] } }.deliver [0x2]) := by
  have hf : fitsCapacity (wordsCapacity [0xFFFFFFFFFFFFFFFF]) = true := (fitsCapacity_iff _).2 mMax_bounds.2.1
  simp only [exec, execReconstruct]
  rw [if_neg (by rw [show implemented 0 = true from rfl]; decide), if_pos hf]
  rfl

theorem test_setStrategy_unconfigured : exec (.setStrategy 9) State.reset = .next (State.reset.deliver [0x303]) := rfl

theorem test_setStrategy_default : exec (.setStrategy 0) filter128 = .next (filter128.deliver [0x3]) := rfl

theorem test_put_unconfigured : exec (.put [0x41]) State.reset = .next (State.reset.deliver [0x304]) := rfl

/-- `PUT x"01"` under the synthetic hash of 2.6. -/
theorem test_put_sets_bits :
    (BitStore.alloc 64).setAll (indexesFrom (0xFFFFFFFFFFFFFFFF, 1) 64 3) =
      { len := 1, mem := [(0, 0x8000000000000003)] } := by decide

theorem test_query_unconfigured : exec (.query []) State.reset = .next (State.reset.deliver [0x305]) := rfl

/-- `QUERY x"01"` answers 1 and `QUERY x"02"` answers 0 under the synthetic hash of 2.6. -/
theorem test_query_conjunction :
    accOf filter64.bits (indexesFrom (0xFFFFFFFFFFFFFFFF, 1) 64 3) = true ∧
    accOf filter64.bits (indexesFrom (0x8000000000000005, 0xFFFFFFFFFFFFFFFF) 64 3) = false := by decide

theorem test_readM : exec .readM filter128 = .next (filter128.deliver [0x6, 0x80]) := rfl

theorem test_readK : exec .readK filter128 = .next (filter128.deliver [0x7, 3]) := rfl

/-- P3 line 5. -/
theorem test_export :
    exec .exportBits filter128 = .next (filter128.deliver [0x8, 0x2000000000000200, 0x0000000800000000]) := rfl

theorem test_export_unconfigured : exec .exportBits State.reset = .next (State.reset.deliver [0x308]) := rfl

/-! ### The primitive ports, from 95_test_vectors.md 2.2 -/

theorem test_bsAlloc :
    exec (.bsAlloc 64) filter64 = .next ((filter64.setBits { len := 1, mem := [] }).answer .done) := by
  simp only [exec, execBsAlloc]; rw [if_pos ⟨rfl, by decide, (fitsCapacity_iff _).2 mMax_bounds.2.1⟩]; rfl

theorem test_bsSet_99 :
    (BitStore.alloc 128).bitSet 99 = { len := 2, mem := [(1, 0x0000000800000000)] } := by decide

theorem test_bsSet_last_bit :
    exec (.bsSet 127) { State.reset with bits := { len := 2, mem := [] } } =
      .next ({ State.reset with bits := { len := 2, mem := [(1, 0x8000000000000000)] } }.answer .done) := rfl

theorem test_bsTest_61 : exec (.bsTest 61) filter128 = .next (filter128.answer (.rdata 1)) := rfl

theorem test_bsTest_62 : exec (.bsTest 62) filter128 = .next (filter128.answer (.rdata 0)) := rfl

theorem test_bsRdWord : exec (.bsRdWord 1) filter128 = .next (filter128.answer (.rdata 0x0000000800000000)) := rfl

theorem test_bsRdWord_outside : exec (.bsRdWord 2) filter128 = .fault .wordAddressOutOfRange := rfl

/-- `WordWrite(0, 5)` on `[0xFFFFFFFFFFFFFFFF, 0]`. -/
theorem test_bsWrWord :
    exec (.bsWrWord 0 5) { State.reset with bits := { len := 2, mem := [(0, 0xFFFFFFFFFFFFFFFF)] } } =
      .next ({ State.reset with bits := { len := 2, mem := [(0, 5)] } }.answer .done) := rfl

theorem test_bsWrWord_zero_removes_cell :
    (filter64.bits.wordWrite 0 0) = { len := 1, mem := [] } := by decide

theorem test_importWords : (BitStore.importWords [5, 0]) = { len := 2, mem := [(0, 5)] } := by decide

theorem test_pad64 :
    pad64 1 = 64 ∧ pad64 63 = 64 ∧ pad64 64 = 64 ∧ pad64 65 = 128 ∧ pad64 9586 = 9600 ∧ pad64 (2 ^ 64 - 63) = 2 ^ 64 := by
  decide

/-! ### The index generator, from 95_test_vectors.md V4, 2.3 and 2.4 -/

/-- V7: `H128("this_is_a_test_string")` and `H128("A")` under the instantiation of 42_index_generation.md section 6. -/
theorem test_murmur :
    murmur fixtureBytes = (0xBD8514B9757B49E6, 0x76CA4FDE2065E035) ∧
    murmur [0x41] = (0x035FC2B79A29B17A, 0x387DF29C46DD9937) := by decide

/-- V4, the source's own fixture. -/
theorem test_indexes_fixture :
    indexesFrom (0xBD8514B9757B49E6, 0x76CA4FDE2065E035) 9600 7 = [3942, 6555, 9168, 2181, 4794, 7407, 420] := by decide

/-- 2.3: the rows where the mask shows. -/
theorem test_indexes_mask :
    indexesFrom (0x8000000000000005, 0xFFFFFFFFFFFFFFFF) 192 4 = [5, 4, 3, 2] ∧
    indexesFrom (0x7FFFFFFFFFFFFFFF, 1) 6400 3 = [4607, 0, 1] ∧
    indexesFrom (0x0123456789ABCDEF, 0xFEDCBA9876543210) 9600 5 = [495, 7807, 7311, 6815, 6319] := by decide

/-- P3 line 2: `PUT "a"` under G1 sets bits 9, 99 and 61. -/
theorem test_put_fixture :
    (BitStore.alloc 128).setAll (indexesFrom (murmur [0x61]) 128 3) = filter128.bits := by decide

/-! ### Level P, parallel evaluation, the host's side, the text -/

theorem test_portTrace_export : portTrace .exportBits filter128 = [readRequest 0, readRequest 1] := by decide

/-- R156: two sets in one word of one parallel step both take effect. -/
theorem test_parallel_same_word :
    parallelPut 2 (BitStore.alloc 128) [9, 61, 99] = filter128.bits := by decide

/-- R122's worked example. -/
theorem test_serialize :
    serialize filter128 = .ok { m := 128, k := 3, bits := [2305843009213694464, 34359738368] } := rfl

/-- R123's worked example: the record's `m` is ignored. -/
theorem test_deserialize_ignores_m :
    deserialize { m := some (.uint 999), k := some (.uint 3), bits := some (.seq [some 5, some 0]) } =
      .ok [.reconstruct 0 3 [5, 0]] := by decide

theorem test_deserialize_missing_k :
    deserialize { m := some (.uint 128), k := none, bits := some (.seq []) } = .error .malformedSerializedInput := by
  decide

/-- R61, with the packets of section 7: `CONFIG 959, 7, 2`, `PUT x"01"`, MIGHTCONTAIN. -/
theorem test_assemble_config : assemble "CONFIG 959, 7, 2 ; comment".toList = some (.config 2 959 7) := by decide

theorem test_assemble_reconstruct :
    assemble "RECONSTRUCT [0x2000000000000200, 5], 3".toList = some (.reconstruct 0 3 [0x2000000000000200, 5]) := by
  decide

theorem test_assemble_data :
    assemble "PUT x\"01Ff\"".toList = some (.put [0x01, 0xFF]) ∧
    assemble "MIGHTCONTAIN \"A\"".toList = some (.query [0x41]) ∧ assemble "READ_M 1".toList = none := by decide

theorem test_responseText :
    responseText [0x0000000000000304] = some "-> ERR_NOT_CONFIGURED" ∧ responseText [0x4] = some "-> OK" := by decide

/-! ### The estimator, from 95_test_vectors.md 2.1 -/

/-- `x` for `p` = 1/2 is `n / ln 2`. -/
theorem estimateX_half (n : ℤ) : estimateX n (1 / 2) = n / Real.log 2 := by
  have h : Real.log 2 ≠ 0 := (Real.log_pos (by norm_num)).ne'
  unfold estimateX
  rw [show (1 / 2 : ℝ) = 2⁻¹ by norm_num, Real.log_inv]
  field_simp

/-- (1, 0.5): `m_raw` = 2, `k` = 1. -/
theorem test_estimate_one : bitCount 1 (1 / 2) = 2 ∧ hashCount 1 2 = 1 := by
  have h1 := Real.log_two_gt_d9
  have h2 := Real.log_two_lt_d9
  constructor
  · unfold bitCount
    rw [estimateX_half, Nat.ceil_eq_iff (by norm_num)]
    constructor
    · rw [lt_div_iff₀ (by linarith)]; push_cast; linarith
    · rw [div_le_iff₀ (by linarith)]; push_cast; linarith
  · unfold hashCount estimateY
    have hf := (Nat.floor_eq_iff (n := 1) (a := 1 / 2 + ((2 : ℕ) : ℝ) / ((1 : ℤ) : ℝ) * Real.log 2)
      (by push_cast; linarith)).2 ⟨by push_cast; linarith, by push_cast; linarith⟩
    rw [hf]
    rfl

/-- (64, 0.5): `m_raw` = 93, `k` = 1, and the padding crosses to a second word. -/
theorem test_estimate_sixty_four : bitCount 64 (1 / 2) = 93 ∧ hashCount 64 93 = 1 ∧ pad64 93 = 128 := by
  have h1 := Real.log_two_gt_d9
  have h2 := Real.log_two_lt_d9
  refine ⟨?_, ?_, by decide⟩
  · unfold bitCount
    rw [estimateX_half, Nat.ceil_eq_iff (by norm_num)]
    constructor
    · rw [lt_div_iff₀ (by linarith)]; push_cast; linarith
    · rw [div_le_iff₀ (by linarith)]; push_cast; linarith
  · unfold hashCount estimateY
    have hf := (Nat.floor_eq_iff (n := 1) (a := 1 / 2 + ((93 : ℕ) : ℝ) / ((64 : ℤ) : ℝ) * Real.log 2)
      (by push_cast; linarith)).2 ⟨by push_cast; linarith, by push_cast; linarith⟩
    rw [hf]
    rfl

/-! ### Witnesses: for every obligation with hypotheses, a state and operands that meet them together -/

/-- DecodeEncodeRoundTrip: a sequence form at its longest. -/
theorem witness_DecodeEncodeRoundTrip :
    WellFormed (.put (List.replicate (2 ^ 64 - 1) 0)) = true ∧ WellFormed (.hash128 []) = true :=
  ⟨test_wellFormed_accepts_longest, rfl⟩

/-- PacketEncodingIsCanonical, HeaderSelectsOneRow. -/
theorem witness_decoded_packets :
    decode (.command [0x0000000000000001, 0x2572, 0x7]) = .ok (.config 0 9586 7) ∧
    decode (.command [0x0000000000000005, 0x0]) = .ok (.query []) := by decide

/-- MalformedPacketAnswered, first clause: the six clauses of R58. -/
theorem witness_Malformed :
    Malformed [] ∧ Malformed [0x10006] ∧ Malformed [0x0] ∧ Malformed [0x9] ∧ Malformed [0x106] ∧ Malformed [0x6, 0] ∧
    Malformed [0x4, 1, 0x4141] :=
  ⟨.empty, .reservedBits _ _ (by decide), .reservedOpcode _ _ (by decide), .reservedOpcode _ _ (by decide),
    .sidSet _ _ (by decide) (by decide), .length _ _ .readM (by decide) (by simp [FitsFormat]),
    .padding _ _ (by decide) ⟨1, by decide, by decide, by decide⟩⟩

/-- MalformedPacketAnswered, second clause, and the hypotheses on the state of both. -/
theorem witness_MalformedPacketAnswered :
    (waiting State.reset (.packet [0x6])).requests = [] ∧
    (waiting State.reset (.packet [0x6])).inbox = .packet [0x6] :: [] ∧ ¬ Malformed [0x6] := by
  refine ⟨rfl, rfl, fun h => ?_⟩
  cases h with
  | reservedBits _ _ h => revert h; decide
  | reservedOpcode _ _ h => revert h; decide
  | sidSet _ _ h h' => revert h'; decide
  | length _ _ op h h' => cases op <;> first | exact h' rfl | exact absurd h (by decide)
  | padding _ _ h h' => revert h; decide

/-- StepRunsDecodedInstruction: a packet, and a request. -/
theorem witness_StepRunsDecodedInstruction :
    ((waiting State.reset (.packet [0x6])).requests = [] ∧
      (waiting State.reset (.packet [0x6])).inbox = .packet [0x6] :: [] ∧ decode (.command [0x6]) = .ok .readM) ∧
    (filter64.setRequests [.bitstore 0b010 63 0]).requests = .bitstore 0b010 63 0 :: [] ∧
      decode (.request (.bitstore 0b010 63 0)) = .ok (.bsTest 63) :=
  ⟨⟨rfl, rfl, rfl⟩, rfl, rfl⟩

/-- StateAfterReset: a filter with the reset event to come. -/
theorem witness_StateAfterReset : (waiting filter64 .reset).requests = [] ∧ (waiting filter64 .reset).inbox = .reset :: [] :=
  ⟨rfl, rfl⟩

theorem witness_IdleEngineWaits : filter64.requests = [] ∧ filter64.inbox = [] := ⟨rfl, rfl⟩

/-- StepKeepsInvariant and EveryCommandIsAnswered: a configured state with a packet to come. -/
theorem witness_step_invariant :
    EngineInv (waiting filter64 (.packet [0x7])) ∧ (waiting filter64 (.packet [0x7])).inbox = .packet [0x7] :: [] ∧
    ∃ t, step (waiting filter64 (.packet [0x7])) = .next t :=
  ⟨⟨filter64_inv.1, rfl, filter64_inv.3, filter64_inv.4⟩, rfl, _, rfl⟩

/-- ResponsePacketShape and ErrorsArePrecise: an OK response with its command, and an error response. -/
theorem witness_responses :
    (∃ t, acceptPacket [0x6] filter64 = .next t ∧ statusOf 0x6 = 0) ∧ decode (.command [0x6]) = .ok .readM ∧
    ∃ t, acceptPacket [0x6] State.reset = .next t ∧ statusOf 0x306 ≠ 0 :=
  ⟨⟨_, rfl, rfl⟩, rfl, _, rfl, by decide⟩

/-- ErrorPriority: one packet for each clause, at the boundary where two conditions hold together. -/
theorem witness_ErrorPriority :
    EngineInv State.reset ∧ EngineInv filter64 ∧ Malformed [0x9] ∧ (NeedsFilter .readM ∧ State.reset.cfg = false) ∧
    (¬ (NeedsFilter (.config 0 0 0) ∧ filter64.cfg = false) ∧ InvalidParam (.config 0 0xFFFFFFFFFFFFFFFF 0)) ∧
    (¬ InvalidParam (.config 0 0xFFFFFFFFFFFFFFFF 7) ∧ OverCapacity (.config 0 0xFFFFFFFFFFFFFFFF 7)) ∧
    ¬ OverCapacity (.config 0 64 1) := by
  have h := mMax_bounds
  refine ⟨reset_inv, filter64_inv, witness_Malformed.2.2.2.1, ⟨trivial, rfl⟩, ⟨fun h => h.1, .inr (.inl rfl)⟩, ⟨?_, ?_⟩, ?_⟩
  · simp only [InvalidParam, show implemented 0 = true from rfl]; decide
  · show Config.mMax < 64 * ((2 ^ 64 - 1 + 63) / 64); omega
  · show ¬ Config.mMax < 64 * ((64 + 63) / 64); omega

/-- ConfigCreatesEmptyFilter: its three clauses, and `pad64` at 1 and at 64. -/
theorem witness_ConfigCreatesEmptyFilter :
    ((0 : Word) = 0 ∨ (7 : Word) = 0 ∨ implemented 0 = false) ∧
    (¬ ((0xFFFFFFFFFFFFFFFF : Word) = 0 ∨ (7 : Word) = 0 ∨ implemented 0 = false) ∧
      Config.mMax < 64 * (((0xFFFFFFFFFFFFFFFF : Word).toNat + 63) / 64)) ∧
    (¬ ((1 : Word) = 0 ∨ (1 : Word) = 0 ∨ implemented 0 = false) ∧ 64 * (((1 : Word).toNat + 63) / 64) ≤ Config.mMax ∧
      64 * (((64 : Word).toNat + 63) / 64) ≤ Config.mMax) := by
  have h := mMax_bounds
  have hi : implemented 0 = true := rfl
  rw [hi]
  refine ⟨.inl rfl, ⟨by decide, ?_⟩, by decide, ?_, ?_⟩
  · show Config.mMax < 64 * ((2 ^ 64 - 1 + 63) / 64); omega
  · exact h.2.1
  · exact h.2.1

/-- ReconstructLoadsWords: its three clauses. -/
theorem witness_ReconstructLoadsWords :
    (([] : List Word).length = 0 ∨ (3 : Word) = 0 ∨ implemented 0 = false) ∧
    (¬ ((List.replicate (2 ^ 58) (0 : Word)).length = 0 ∨ (3 : Word) = 0 ∨ implemented 0 = false) ∧
      Config.mMax < 64 * (List.replicate (2 ^ 58) (0 : Word)).length) ∧
    (¬ ([(5 : Word)].length = 0 ∨ (3 : Word) = 0 ∨ implemented 0 = false) ∧ 64 * [(5 : Word)].length ≤ Config.mMax) := by
  have h := mMax_bounds
  have hi : implemented 0 = true := rfl
  rw [hi, List.length_replicate]
  exact ⟨.inl rfl, ⟨by decide, by omega⟩, by decide, h.2.1⟩

/-- SetStrategyWritesSid: no filter, and an implemented strategy. Which strategies beside 0 are absent is the
implementation's (log 6); where a `sid` is, as in the spec's default, the middle clause applies to it. -/
theorem witness_SetStrategyWritesSid :
    State.reset.cfg = false ∧ (filter64.cfg = true ∧ implemented 0 = true) ∧
    (Config.otherStrategy 9 = none → filter64.cfg = true ∧ implemented 9 = false) :=
  ⟨rfl, ⟨rfl, rfl⟩, fun h => ⟨rfl, by
    unfold implemented strategies; rw [if_neg (by decide), h]; rfl⟩⟩

/-- ZeroWordsEqualConfig, SaturatedFilterAnswersOne: one word. -/
theorem witness_one_word : 0 < 1 ∧ (1 : Word) ≠ 0 ∧ implemented 0 = true ∧ 64 * 1 ≤ Config.mMax :=
  ⟨by decide, by decide, rfl, mMax_bounds.2.1⟩

/-- PutSetsIndexedBits, QueryAnswersConjunction, ExportAnswersStore, SerializeBuildsRecord, SerializeRoundTrip,
PortTracesAsListed: no filter, and a filter of the reference strategy. -/
theorem witness_filter : State.reset.cfg = false ∧ EngineInv filter64 ∧ filter64.cfg = true ∧ filter64.sid = 0 :=
  ⟨rfl, filter64_inv, rfl, rfl⟩

/-- ReadMAnswersM, ReadKAnswersK. -/
theorem witness_configured_or_not : State.reset.cfg = false ∧ filter64.cfg = true := ⟨rfl, rfl⟩

/-- PortTracesAsListed: the operands of its CONFIG and RECONSTRUCT clauses. -/
theorem witness_PortTracesAsListed :
    (¬ InvalidParam (.config 0 64 1) ∧ ¬ OverCapacity (.config 0 64 1)) ∧
    ¬ InvalidParam (.reconstruct 0 1 [5]) ∧ ¬ OverCapacity (.reconstruct 0 1 [5]) := by
  have h := mMax_bounds
  refine ⟨⟨?_, ?_⟩, ?_, ?_⟩
  · simp only [InvalidParam, show implemented 0 = true from rfl]; decide
  · show ¬ Config.mMax < 64 * ((64 + 63) / 64); omega
  · simp only [InvalidParam, show implemented 0 = true from rfl]; decide
  · show ¬ Config.mMax < 64 * 1; omega

/-- BitsOnlyAccumulate: a canonical store with bit 63 set, a PUT, and each of the five others. -/
theorem witness_BitsOnlyAccumulate :
    filter64.bits.wf = true ∧ filter64.bits.bitTest 63 = 1 ∧ (∃ t, exec (.put [0x41]) filter64 = .next t) ∧
    (∃ t, exec (.query [0x41]) filter64 = .next t) ∧ (∃ t, exec .readM filter64 = .next t) ∧
    (∃ t, exec .readK filter64 = .next t) ∧ (∃ t, exec .exportBits filter64 = .next t) ∧
    ∃ t, exec (.setStrategy 0) filter64 = .next t :=
  ⟨rfl, rfl, filter64_put _, filter64_query _, ⟨_, rfl⟩, ⟨_, rfl⟩, ⟨_, rfl⟩, _, rfl⟩

/-- EmptyFilterAnswersZero: a successful CONFIG. -/
theorem witness_EmptyFilterAnswersZero :
    ∃ t, exec (.config 0 1 3) State.reset = .next t ∧ t.outbox = State.reset.outbox ++ [[0x1]] :=
  ⟨_, test_config_smallest, rfl⟩

/-- NoFalseNegatives: a PUT, then every kind of command that keeps the filter. -/
theorem witness_NoFalseNegatives :
    EngineInv filter64 ∧ filter64.cfg = true ∧ (∃ t, exec (.put [0x41]) filter64 = .next t) ∧
    ∀ i ∈ [Instr.put [0x42], .query [0x43], .readM, .readK, .exportBits, .setStrategy 0], KeepsFilter filter64.sid i := by
  refine ⟨filter64_inv, rfl, filter64_put _, ?_⟩
  simp [KeepsFilter, filter64, State.reset]

/-- SmallerCountStillFinds: `K` = 3, then RECONSTRUCT of the exported words with `k` = 1. -/
theorem witness_SmallerCountStillFinds :
    EngineInv filter64 ∧ filter64.cfg = true ∧ filter64.sid = 0 ∧ (1 : Word) ≠ 0 ∧ (1 : Word).toNat ≤ filter64.k.toNat ∧
    ∃ t v, exec (.put [0x41]) filter64 = .next t ∧
      exec (.reconstruct 0 1 (t.bits.exportWords (t.m.toNat / 64))) State.reset = .next v := by
  obtain ⟨idx, _, h⟩ := execPut_of_inv filter64_inv rfl [0x41]
  obtain ⟨v, hv⟩ := reconstruct_one_word 1 (by decide) ((filter64.bits.setAll idx).wordRead 0) State.reset
  have e : (filter64.bits.setAll idx).exportWords (filter64.m.toNat / 64) = [(filter64.bits.setAll idx).wordRead 0] := by
    rw [show filter64.m.toNat / 64 = 1 by decide]; rfl
  rw [← e] at hv
  exact ⟨filter64_inv, rfl, rfl, by decide, by decide, _, v, h, hv⟩

/-- ReferenceIndexClosedForm, StrategyContractHolds, SmallerCountGivesPrefix. -/
theorem witness_indexes :
    0 < (1 : Word).toNat ∧ (implemented 0 = true ∧ 64 ≤ (64 : Word).toNat ∧ (64 : Word).toNat % 64 = 0 ∧
      1 ≤ (1 : Word).toNat) ∧ (0 : Word).toNat ≤ (3 : Word).toNat :=
  ⟨by decide, ⟨rfl, by decide, by decide, by decide⟩, by decide⟩

/-- BitSetLaws, WordAndBitLaws: both ends of a word. -/
theorem witness_bit_laws :
    filter64.bits.wf = true ∧ 0 < 64 * filter64.bits.len ∧ 63 < 64 * filter64.bits.len ∧ (0 : Nat) ≠ 63 ∧
    0 < filter64.bits.len ∧ (63 : Nat) < 64 := by decide

/-- BsAllocClearsStore: both ends of its range. -/
theorem witness_BsAllocClearsStore :
    ((64 : Word).toNat % 64 = 0 ∧ 64 ≤ (64 : Word).toNat ∧ (64 : Word).toNat ≤ Config.mMax) ∧
    ((BitVec.ofNat 64 Config.mMax).toNat % 64 = 0 ∧ 64 ≤ (BitVec.ofNat 64 Config.mMax).toNat ∧
      (BitVec.ofNat 64 Config.mMax).toNat ≤ Config.mMax) := by
  rw [toNat_ofNat_of_fits (Nat.le_refl Config.mMax)]
  have h := mMax_bounds
  exact ⟨⟨by decide, by decide, h.2.1⟩, h.1, h.2.1, Nat.le_refl _⟩

/-- BsSetSetsOneBit, BsTestAnswersBit (last bit), BsRdWordAnswersWord, BsWrWordReplacesWord (last word). -/
theorem witness_in_range :
    filter128.bits.wf = true ∧ (127 : Word).toNat < 64 * filter128.bits.len ∧ (1 : Word).toNat < filter128.bits.len ∧
    (1 : Nat) < 2 := by decide

/-- OutOfContractPortOpsFault: just outside each range. -/
theorem witness_OutOfContractPortOpsFault :
    ¬ ((0 : Word).toNat % 64 = 0 ∧ 64 ≤ (0 : Word).toNat ∧ (0 : Word).toNat ≤ Config.mMax) ∧
    ¬ ((65 : Word).toNat % 64 = 0 ∧ 64 ≤ (65 : Word).toNat ∧ (65 : Word).toNat ≤ Config.mMax) ∧
    64 * filter128.bits.len ≤ (128 : Word).toNat ∧ filter128.bits.len ≤ (2 : Word).toNat :=
  ⟨fun h => absurd h.2.1 (by decide), fun h => absurd h.1 (by decide), by decide, by decide⟩

/-- ReadersFrame, PutFrame, CreatorsFrame, WorkingRegistersDoNotMatter, PortTraceRefinesCommand: each command has a
next state, and so has a port operation. -/
theorem witness_frames :
    EngineInv filter64 ∧ (∃ t, exec (.query [0x41]) filter64 = .next t) ∧ (∃ t, exec .readM filter64 = .next t) ∧
    (∃ t, exec .readK filter64 = .next t) ∧ (∃ t, exec .exportBits filter64 = .next t) ∧
    (∃ t, exec (.put [0x41]) filter64 = .next t) ∧ (∃ t, exec (.setStrategy 0) filter64 = .next t) ∧
    (∃ t, exec (.config 0 1 3) State.reset = .next t) ∧
    (∃ t, exec (.reconstruct 0 3 [0xFFFFFFFFFFFFFFFF]) filter64 = .next t) ∧ ∃ t, exec (.bsTest 63) filter64 = .next t :=
  ⟨filter64_inv, filter64_query _, ⟨_, rfl⟩, ⟨_, rfl⟩, ⟨_, rfl⟩, filter64_put _, ⟨_, rfl⟩, ⟨_, test_config_smallest⟩,
    ⟨_, test_reconstruct_saturated⟩, _, rfl⟩

/-- PortTraceRefinesCommand: a QUERY and an EXPORT on a filter. -/
theorem witness_PortTraceRefinesCommand :
    Instr.isCommand (.query [0x41]) = true ∧ Instr.isCommand .exportBits = true ∧ filter64.cfg = true := ⟨rfl, rfl, rfl⟩

/-- SetOrderIrrelevant: two orders of two sets in one word. ParallelPutEqualsSequential, ParallelQueryEqualsSequential:
two at a time. -/
theorem witness_parallel :
    1 ≤ 2 ∧ filter64.bits.wf = true ∧ (∀ b ∈ [(0 : Word), 63], b.toNat < 64 * filter64.bits.len) ∧
    [(0 : Word), 63].Perm [63, 0] :=
  have h : ([(0 : Word), 63].all fun b => decide (b.toNat < 64 * filter64.bits.len)) = true := by decide
  ⟨by decide, rfl, fun b hb => of_decide_eq_true (List.all_eq_true.mp h b hb), List.Perm.swap 63 0 []⟩

/-- DeserializeSendsReconstruct: the largest `k` and element, and a record that is not well shaped. -/
theorem witness_DeserializeSendsReconstruct :
    (2 ^ 64 - 1 < 2 ^ 64 ∧ ∀ n ∈ [2 ^ 64 - 1], n < 2 ^ 64) ∧ ¬ WellShaped { m := none, k := none, bits := none } := by
  refine ⟨by simp, fun ⟨_, _, _, h, _⟩ => ?_⟩
  cases h

/-- NewBuildsEstimatedFilter: `NEW 1, 0.5`. -/
theorem witness_NewBuildsEstimatedFilter :
    (1 : ℤ) ≤ 1 ∧ (0 : ℝ) < 1 / 2 ∧ (1 / 2 : ℝ) < 1 ∧ pad64 (bitCount 1 (1 / 2)) ≤ Config.mMax := by
  rw [test_estimate_one.1]
  exact ⟨le_rfl, by norm_num, by norm_num, mMax_bounds.2.1⟩

/-- EstimateIsPositive, EstAgreesAwayFromBoundaries; EstimateRefusesOutside, each of its cases. -/
theorem witness_estimator :
    ((1 : ℤ) ≤ 1 ∧ (0 : ℝ) < 1 / 2 ∧ (1 / 2 : ℝ) < 1) ∧ (0 : ℤ) < 1 ∧ (none : Option ℝ) = none ∧
    (∃ q : ℝ, some (0 : ℝ) = some q ∧ (q ≤ 0 ∨ 1 ≤ q ∨ 2 ^ 64 ≤ bitCount 1 q)) ∧
    (∃ q : ℝ, some (1 : ℝ) = some q ∧ (q ≤ 0 ∨ 1 ≤ q ∨ 2 ^ 64 ≤ bitCount 1 q)) ∧
    ∃ q : ℝ, some (1 / 2 : ℝ) = some q ∧ (q ≤ 0 ∨ 1 ≤ q ∨ 2 ^ 64 ≤ bitCount (2 ^ 64) q) := by
  refine ⟨by norm_num, by norm_num, rfl, ⟨0, rfl, .inl le_rfl⟩, ⟨1, rfl, .inr (.inl le_rfl)⟩, _, rfl, .inr (.inr ?_)⟩
  have hx : ((2 ^ 64 : ℕ) : ℝ) ≤ estimateX (2 ^ 64) (1 / 2) := by
    rw [estimateX_half]
    push_cast
    exact le_div_self (by norm_num) (by linarith [half_lt_log_two]) log_two_lt_one.le
  exact_mod_cast hx.trans (Nat.le_ceil _)

/-- EstAgreesAwayFromBoundaries: at `n` = 1, `p` = 1/2 (`x` = 1.4427) and `m_raw` = 2 (`0.5 + y` = 1.8863), both are away
from every boundary. -/
theorem witness_EstAgreesAwayFromBoundaries :
    ¬ NearInteger (estimateX 1 (1 / 2)) (estXError 1 (1 / 2)) ∧ ¬ NearInteger (1 / 2 + estimateY 1 2) (estYError 1 2) := by
  have h1 := Real.log_two_gt_d9
  have h2 := Real.log_two_lt_d9
  have hm := minNormal_le
  have x1 : 1 + 1 / 10 ≤ estimateX 1 (1 / 2) := by
    rw [estimateX_half, le_div_iff₀ (by linarith)]; push_cast; linarith
  have x2 : estimateX 1 (1 / 2) ≤ 1 + 1 - 1 / 10 := by
    rw [estimateX_half, div_le_iff₀ (by linarith)]; push_cast; linarith
  have y : estimateY 1 2 = 2 * Real.log 2 := by unfold estimateY; norm_num
  have ex := estXError_le (n := 1) (p := 1 / 2) le_rfl (by
    rw [show (1 / 2 : ℝ) = 2⁻¹ by norm_num, Real.log_inv, abs_neg, abs_of_pos (by linarith)]; linarith)
  have ey := estYError_le (n := 1) (m := 2) (by push_cast; linarith)
  rw [abs_of_pos (by linarith)] at ex
  rw [y] at ey
  exact ⟨not_nearInteger (d := 1 / 10) 1 (by push_cast; linarith) (by push_cast; linarith) (by linarith),
    not_nearInteger (d := 1 / 10) 1 (by rw [y]; push_cast; linarith) (by rw [y]; push_cast; linarith)
      (by linarith)⟩

/-- Some `p` gives an `x` within rounding error of an integer: the case R74 leaves to the implementation occurs. -/
theorem test_x_near_integer : ∃ p : ℝ, 0 < p ∧ p < 1 ∧ NearInteger (estimateX 1 p) (estXError 1 p) := by
  have hL : 0 < Real.log 2 ^ 2 := pow_pos (by linarith [half_lt_log_two]) 2
  have h60 : (0 : ℝ) < (2 : ℝ) ^ (-60 : ℤ) := by positivity
  generalize he : (2 : ℝ) ^ (-60 : ℤ) = e at h60
  have hx : estimateX 1 (Real.exp (-(Real.log 2 ^ 2 * (1 + e)))) = 1 + e := by
    unfold estimateX; rw [Real.log_exp]; push_cast; field_simp
  have hd : e ≤ estXError 1 (Real.exp (-(Real.log 2 ^ 2 * (1 + e)))) := by
    unfold estXError
    rw [hx]
    exact (by ring : e = 1 + e - 1).le.trans (near_of_binary64 (.inr rfl) (by linarith) (by rw [he]))
  refine ⟨_, Real.exp_pos _, Real.exp_lt_one_iff.2 (by nlinarith), lt_of_lt_of_le h60 hd, ?_⟩
  rw [hx]
  refine (round_le (1 + e) 1).trans (le_trans (le_of_eq ?_) hd)
  push_cast
  rw [add_sub_cancel_left, abs_of_pos h60]

/-- Some `n` and `m_raw` give a `0.5 + y` within rounding error of an integer. -/
theorem test_y_near_half_integer :
    ∃ (n : ℤ) (m : ℕ), 1 ≤ n ∧ NearInteger (1 / 2 + estimateY n m) (estYError n m) := by
  have hL : 0 < Real.log 2 := by linarith [half_lt_log_two]
  have h60 : (0 : ℝ) < (2 : ℝ) ^ (-60 : ℤ) := by positivity
  obtain ⟨q, hq1, hq2⟩ := exists_rat_btwn
    (show 1 / 2 / Real.log 2 < (1 / 2 + (2 : ℝ) ^ (-60 : ℤ)) / Real.log 2 from div_lt_div_of_pos_right (by linarith) hL)
  rw [div_lt_iff₀ hL] at hq1
  rw [lt_div_iff₀ hL] at hq2
  have hq0 : (0 : ℝ) < q := by nlinarith
  have hy : estimateY q.den q.num.toNat = q * Real.log 2 := by
    have hn : ((q.num.toNat : ℤ) : ℝ) = (q.num : ℝ) := by
      rw [Int.toNat_of_nonneg (Rat.num_nonneg.mpr (by exact_mod_cast hq0.le))]
    unfold estimateY
    rw [Rat.cast_def, ← hn]
    push_cast
    rfl
  have hd : q * Real.log 2 - 1 / 2 ≤ estYError q.den q.num.toNat := by
    unfold estYError
    rw [hy]
    refine (near_of_binary64 (.inl rfl) hq1 hq2.le).trans (le_add_of_nonneg_right (abs_nonneg _))
  refine ⟨q.den, q.num.toNat, by exact_mod_cast q.den_pos, by linarith, ?_⟩
  rw [hy]
  refine (round_le _ 1).trans (le_trans (le_of_eq ?_) hd)
  push_cast
  rw [show 1 / 2 + q * Real.log 2 - 1 = q * Real.log 2 - 1 / 2 by ring, abs_of_pos (by linarith)]

end Sys2Proof.Tests
end

section
/-! PROOFS. R24 of spec/10_state.md: bits only go from 0 to 1. What a bit test reads after the sets of a PUT, what a
PUT and the commands that keep `BITS` can answer, and the obligation. -/

namespace Sys2Proof.Machine

/-! ### Bit tests after bit sets -/

theorem BitStore.bitTest_eq_one_iff (st : BitStore) (c : Nat) :
    st.bitTest c = 1 ↔ (st.wordRead (c / 64)).getLsbD (c % 64) = true := by
  rw [bitTest_eq]
  split <;> simp [*]

/-- BS_SET makes its own bit 1 and keeps every other bit (R81). -/
theorem BitStore.bitTest_bitSet {st : BitStore} (h : st.wf = true) (b c : Nat) :
    (st.bitSet b).bitTest c = 1 ↔ st.bitTest c = 1 ∨ b = c := by
  rw [bitTest_eq_one_iff, bitTest_eq_one_iff, wordRead_bitSet h]
  split
  case isTrue hw =>
    have hbit : c % 64 = b % 64 ↔ b = c := by omega
    rw [BitVec.getLsbD_or, bitMask_getLsbD b _ (Nat.mod_lt _ (by decide)), hw]
    simp [hbit]
  case isFalse hw =>
    have hne : b ≠ c := fun e => hw (by rw [e])
    simp [hne]

/-- The sets of one PUT make the indexed bits 1 and keep every other bit (R103). -/
theorem BitStore.bitTest_setAll {st : BitStore} (h : st.wf = true) {bs : List Word}
    (hbs : ∀ b ∈ bs, b.toNat < 64 * st.len) (c : Nat) :
    (st.setAll bs).bitTest c = 1 ↔ st.bitTest c = 1 ∨ ∃ b ∈ bs, b.toNat = c := by
  induction bs generalizing st with
  | nil => simp [setAll]
  | cons b bs ih =>
    obtain ⟨hb, hbs⟩ := List.forall_mem_cons.mp hbs
    rw [setAll, ih (bitSet_wf h hb) hbs, bitTest_bitSet h, or_assoc]
    simp only [List.mem_cons, exists_eq_or_imp]

/-! ### What the commands can answer -/

/-- PUT answers the error and keeps the state, or sets bits of the store (R103). -/
theorem execPut_cases {data : List Byte} {s t : State} (h : execPut data s = .next t) :
    (s.cfg = false ∧ t = s.respondError Opcode.put.code .notConfigured) ∨
    (s.cfg = true ∧ ∃ idx, indexes s.sid data s.m s.k = some idx ∧ (∀ b ∈ idx, b.toNat < 64 * s.bits.len) ∧
      t = ((s.setBits (s.bits.setAll idx)).setWork (workAfter s.sid data s.m s.k s.work)).respondOk .put []) := by
  obtain herr | ⟨hc, hrun⟩ := whenConfigured_cases h
  · exact .inl herr
  · obtain ⟨idx, hidx, hlt, hnext⟩ := withIndexes_cases hrun
    exact .inr ⟨hc, idx, hidx, hlt, (Host.Outcome.next.inj hnext).symm⟩

/-- A command that answers `ERR_NOT_CONFIGURED` while no filter exists keeps `BITS` if its own run does. -/
theorem whenConfigured_bits {op : Opcode} {s t : State} {run : Host.Outcome State Fault Refusal}
    (h : whenConfigured op s run = .next t) (hrun : run = .next t → t.bits = s.bits) : t.bits = s.bits := by
  obtain ⟨-, rfl⟩ | ⟨-, hnext⟩ := whenConfigured_cases h
  · rfl
  · exact hrun hnext

/-- QUERY writes working registers only (R104). -/
theorem execQuery_bits {data : List Byte} {s t : State} (h : execQuery data s = .next t) : t.bits = s.bits := by
  refine whenConfigured_bits h fun hrun => ?_
  obtain ⟨idx, -, -, hnext⟩ := withIndexes_cases hrun
  cases hnext
  rfl

theorem execReadM_bits {s t : State} (h : execReadM s = .next t) : t.bits = s.bits :=
  whenConfigured_bits h fun hrun => by cases hrun; rfl

theorem execReadK_bits {s t : State} (h : execReadK s = .next t) : t.bits = s.bits :=
  whenConfigured_bits h fun hrun => by cases hrun; rfl

/-- EXPORT reads the store (R120). -/
theorem execExport_bits {s t : State} (h : execExport s = .next t) : t.bits = s.bits := by
  refine whenConfigured_bits h fun hrun => ?_
  split at hrun <;> cases hrun
  rfl

/-- SET_STRATEGY writes `SID` or answers an error (R102). -/
theorem execSetStrategy_bits {sid : BitVec 8} {s t : State} (h : execSetStrategy sid s = .next t) :
    t.bits = s.bits := by
  refine whenConfigured_bits h fun hrun => ?_
  split at hrun <;> cases hrun <;> rfl

/-- PUT clears no bit of a canonical store (R24, R103). -/
theorem execPut_keeps_set_bits {data : List Byte} {s t : State} (hwf : s.bits.wf = true)
    (h : execPut data s = .next t) {c : Nat} (hc : s.bits.bitTest c = 1) : t.bits.bitTest c = 1 := by
  obtain ⟨-, rfl⟩ | ⟨-, idx, -, hlt, rfl⟩ := execPut_cases h
  · exact hc
  · exact (BitStore.bitTest_setAll hwf hlt c).mpr (.inl hc)

end Sys2Proof.Machine

namespace Sys2Proof

open Sys2Proof.Machine

/-- Settles O21: PUT changes the store by bit sets alone, and each of the five other commands keeps `BITS`. -/
theorem bitsOnlyAccumulate : Obligations.BitsOnlyAccumulate := by
  intro s t hwf
  refine ⟨fun data h c hc => execPut_keeps_set_bits hwf h hc, ?_⟩
  rintro i (⟨data, rfl⟩ | rfl | rfl | rfl | ⟨sid, rfl⟩) h
  · exact execQuery_bits h
  · exact execReadM_bits h
  · exact execReadK_bits h
  · exact execExport_bits h
  · exact execSetStrategy_bits h

end Sys2Proof
end

section
/-! PROOFS. R58 of spec/30_encoding.md: the decoder refuses exactly the malformed packets. The header fields as
numbers, the operand formats one by one, the decoder against the six clauses, and the obligation. -/

namespace Sys2Proof

open Sys2Proof.Machine

/-! ### The header fields as numbers (R51) -/

@[simp] theorem headerOpc_toNat (w0 : Word) : (headerOpc w0).toNat = w0.toNat % 2 ^ 8 := by
  simp [headerOpc, BitVec.extractLsb'_toNat]

@[simp] theorem headerSid_toNat (w0 : Word) : (headerSid w0).toNat = w0.toNat / 2 ^ 8 % 2 ^ 8 := by
  simp [headerSid, BitVec.extractLsb'_toNat, Nat.shiftRight_eq_div_pow]

@[simp] theorem headerRsv_toNat (w0 : Word) : (headerRsv w0).toNat = w0.toNat / 2 ^ 16 := by
  have := w0.isLt
  simp only [headerRsv, BitVec.extractLsb'_toNat, Nat.shiftRight_eq_div_pow]
  omega

/-- The echo is bits 7:0 of the header, 0 for an empty packet (R53). -/
theorem opcEcho_toNat (ws : List Word) : (opcEcho ws).toNat = (ws.headD 0).toNat % 2 ^ 8 := by
  cases ws with
  | nil => rfl
  | cons w0 ws => exact headerOpc_toNat w0

/-! ### The opcode numbers (Table R56) -/

/-- An opcode number selects the command that has it. -/
theorem ofCode_eq_some_iff {c : BitVec 8} {op : Opcode} : Opcode.ofCode c = some op ↔ c = op.code := by
  refine ⟨fun h => ?_, fun h => h ▸ ofCode_code op⟩
  unfold Opcode.ofCode at h
  split at h <;> cases h <;> exact BitVec.eq_of_toNat_eq ‹_›

/-- The opcode numbers are 1 to 8. -/
theorem ofCode_eq_none_iff {c : BitVec 8} : Opcode.ofCode c = none ↔ c.toNat = 0 ∨ 8 < c.toNat := by
  unfold Opcode.ofCode
  split <;> simp only [reduceCtorEq, false_iff, true_iff, imp_false] at * <;> omega

/-- The commands that do not use `sid` are those from number 4 on (R51). -/
theorem usesSid_eq_false_iff (op : Opcode) : op.usesSid = false ↔ 4 ≤ op.code.toNat := by cases op <;> decide

/-- PUT and QUERY, the commands of format FB, by their numbers. -/
theorem put_or_query_iff_code (op : Opcode) : (op = .put ∨ op = .query) ↔ op.code.toNat = 4 ∨ op.code.toNat = 5 := by
  cases op <;> decide

/-! ### The operand formats (R52) -/

theorem decodeF0_eq_ok_iff {i j : Instr} {ws : List Word} : decodeF0 i ws = .ok j ↔ ws = [] ∧ i = j := by
  cases ws <;> simp [decodeF0]

theorem decodeF2_eq_ok_iff {sid : BitVec 8} {ws : List Word} {i : Instr} :
    decodeF2 sid ws = .ok i ↔ ∃ mRaw k, ws = [mRaw, k] ∧ .config sid mRaw k = i := by
  unfold decodeF2
  split <;> simp_all

theorem decodeFW_eq_ok_iff {sid : BitVec 8} {ws : List Word} {i : Instr} :
    decodeFW sid ws = .ok i ↔
      ∃ w k words, ws = w :: k :: words ∧ words.length = w.toNat ∧ .reconstruct sid k words = i := by
  constructor
  · intro h
    unfold decodeFW at h
    split at h
    case h_1 w k words =>
      split at h
      case isTrue hlen =>
        cases h
        exact ⟨w, k, words, rfl, hlen, rfl⟩
      case isFalse => cases h
    case h_2 => cases h
  · rintro ⟨w, k, words, rfl, hlen, rfl⟩
    exact if_pos hlen

theorem exceptMap_eq_ok_iff {α β ε : Type} {f : α → β} {x : Except ε α} {b : β} :
    x.map f = .ok b ↔ ∃ a, x = .ok a ∧ f a = b := by
  cases x <;> simp [Except.map]

/-- The command that the operands of `op` decode to has opcode `op`. -/
theorem opcode_of_decodeOperands {op : Opcode} {sid : BitVec 8} {ws : List Word} {i : Instr}
    (h : decodeOperands op sid ws = .ok i) : i.opcode = some op := by
  cases op with
  | config => obtain ⟨_, _, -, rfl⟩ := decodeF2_eq_ok_iff.mp h; rfl
  | reconstruct => obtain ⟨_, _, _, -, -, rfl⟩ := decodeFW_eq_ok_iff.mp h; rfl
  | put | query => obtain ⟨_, -, rfl⟩ := exceptMap_eq_ok_iff.mp h; rfl
  | setStrategy | readM | readK | exportBits => obtain ⟨-, rfl⟩ := decodeF0_eq_ok_iff.mp h; rfl

/-! ### The data bytes and their padding (R55) -/

/-- Byte `t` of the data words is a field of word `t div 8`; beyond the last word both are 0. -/
theorem getD_flatMap_wordBytes (ws : List Word) (t : Nat) :
    (ws.flatMap wordBytes).getD t 0 = (ws.getD (t / 8) 0).extractLsb' (8 * (t % 8)) 8 := by
  induction ws generalizing t with
  | nil => simp
  | cons w ws ih =>
    rw [List.flatMap_cons]
    rcases Nat.lt_or_ge t 8 with ht | ht
    · rw [List.getD_append _ _ _ _ ht, Nat.div_eq_of_lt ht, Nat.mod_eq_of_lt ht, wordBytes_eq]
      simp [ht]
    · obtain ⟨u, rfl⟩ := Nat.exists_eq_add_of_le' ht
      rw [List.getD_append_right _ _ _ _ ht, length_wordBytes, Nat.add_sub_cancel, ih,
        Nat.add_div_right u (by decide), Nat.add_mod_right, List.getD_cons_succ]

/-- The bytes from position `n` on are all 0. -/
theorem all_drop_eq_zero_iff (bs : List Byte) (n : Nat) :
    (bs.drop n).all (· == 0) = true ↔ ∀ t, n ≤ t → bs.getD t 0 = 0 := by
  simp only [List.all_eq_true, beq_iff_eq]
  constructor
  · intro h t ht
    rcases Nat.lt_or_ge t bs.length with hl | hl
    · obtain ⟨u, rfl⟩ := Nat.exists_eq_add_of_le ht
      rw [List.getD_eq_getElem _ _ hl]
      exact h _ (List.mem_drop_iff_getElem.mpr ⟨u, by omega, rfl⟩)
    · exact List.getD_eq_default _ _ hl
  · intro h b hb
    obtain ⟨u, hu, rfl⟩ := List.mem_drop_iff_getElem.mp hb
    rw [← List.getD_eq_getElem _ 0]
    exact h _ (Nat.le_add_right n u)

theorem packetByte_cons_cons (w0 len : Word) (ws : List Word) (t : Nat) :
    packetByte (w0 :: len :: ws) t = (ws.flatMap wordBytes).getD t 0 := by
  rw [getD_flatMap_wordBytes, packetByte, Nat.add_comm 2, List.getD_cons_succ, List.getD_cons_succ]

/-- Clause (6) of R58 is what the decoder checks: a byte from the `L`-th on is not 0. -/
theorem paddingSet_iff (w0 len : Word) (ws : List Word) :
    PaddingSet (w0 :: len :: ws) ↔ ¬ ((ws.flatMap wordBytes).drop len.toNat).all (· == 0) = true := by
  rw [all_drop_eq_zero_iff]
  unfold PaddingSet
  simp only [packetByte_cons_cons, List.getD_cons_succ, List.getD_cons_zero, List.length_cons, not_forall]
  refine exists_congr fun t => ⟨fun ⟨hle, _, hne⟩ => ⟨hle, hne⟩, fun ⟨hle, hne⟩ => ⟨hle, ?_, hne⟩⟩
  by_contra hge
  refine hne (List.getD_eq_default _ _ ?_)
  simp only [List.length_flatMap, length_wordBytes, List.map_const', List.sum_replicate, smul_eq_mul]
  omega

/-- What the decoder asks of the count word and the data words (R58 clauses (5) and (6)). -/
theorem decodeBytes_cons_isOk_iff (len : Word) (ws : List Word) :
    (∃ data, decodeBytes (len :: ws) = .ok data) ↔
      ws.length = dataWordCount len.toNat ∧ ((ws.flatMap wordBytes).drop len.toNat).all (· == 0) = true := by
  rw [decodeBytes]
  split
  case isTrue hne => exact ⟨fun ⟨_, h⟩ => (nomatch h), fun ⟨hlen, _⟩ => absurd hlen hne⟩
  case isFalse hlen =>
    split
    case isTrue hz => exact ⟨fun _ => ⟨not_not.mp hlen, hz⟩, fun _ => ⟨_, rfl⟩⟩
    case isFalse hnz => exact ⟨fun ⟨_, h⟩ => (nomatch h), fun ⟨_, hz⟩ => absurd hz hnz⟩

/-- Format FB decodes when the length fits and the padding is 0, read off the packet. -/
theorem decodeBytes_isOk_iff {op : Opcode} (hop : op = .put ∨ op = .query) (w0 : Word) (ws : List Word) :
    (∃ data, decodeBytes ws = .ok data) ↔ FitsFormat op (w0 :: ws) ∧ ¬ PaddingSet (w0 :: ws) := by
  have hfits : FitsFormat op (w0 :: ws) ↔
      2 ≤ (w0 :: ws).length ∧ (w0 :: ws).length = 2 + dataWordCount ((w0 :: ws).getD 1 0).toNat := by
    obtain rfl | rfl := hop <;> rfl
  rw [hfits]
  cases ws with
  | nil => simp [decodeBytes]
  | cons len ws =>
    rw [paddingSet_iff, not_not, decodeBytes_cons_isOk_iff, List.getD_cons_succ, List.getD_cons_zero]
    refine and_congr_left fun _ => ?_
    simp only [List.length_cons]
    omega

/-! ### The decoder against the clauses of R58 -/

/-- The operands decode when the packet meets neither clause (5) nor clause (6). -/
theorem decodeOperands_isOk_iff (op : Opcode) (sid : BitVec 8) (w0 : Word) (ws : List Word) :
    (∃ i, decodeOperands op sid ws = .ok i) ↔
      FitsFormat op (w0 :: ws) ∧ ¬ ((op = .put ∨ op = .query) ∧ PaddingSet (w0 :: ws)) := by
  cases op with
  | config => simp [decodeOperands, decodeF2_eq_ok_iff, FitsFormat, List.length_eq_two]
  | reconstruct =>
    simp only [decodeOperands, decodeFW_eq_ok_iff, FitsFormat]
    match ws with
    | [] | [_] => simp
    | w :: k :: words => simp; omega
  | put | query =>
    simp [decodeOperands, exceptMap_eq_ok_iff, ← decodeBytes_isOk_iff (w0 := w0)]
  | setStrategy | readM | readK | exportBits => simp [decodeOperands, decodeF0_eq_ok_iff, FitsFormat]

/-- What a packet that decodes is: its header passes clauses (1) to (4) of R58 and its operands decode. -/
theorem decodePacket_cons_eq_ok_iff {w0 : Word} {ws : List Word} {i : Instr} :
    decodePacket (w0 :: ws) = .ok i ↔
      headerRsv w0 = 0 ∧ ∃ op : Opcode, headerOpc w0 = op.code ∧ ¬ (op.usesSid = false ∧ headerSid w0 ≠ 0) ∧
        decodeOperands op (headerSid w0) ws = .ok i := by
  simp only [← ofCode_eq_some_iff, decodePacket]
  split
  case isTrue hrsv => exact ⟨nofun, fun ⟨h0, _⟩ => absurd h0 hrsv⟩
  case isFalse hrsv =>
    rw [not_not.mp hrsv]
    cases Opcode.ofCode (headerOpc w0) with
    | none => simp
    | some op =>
      simp only [true_and, Option.some.injEq, exists_eq_left']
      split
      case isTrue hsid => exact ⟨nofun, fun ⟨hno, _⟩ => absurd hsid hno⟩
      case isFalse hsid => exact ⟨fun h => ⟨hsid, h⟩, And.right⟩

/-- A packet that decodes meets none of the six clauses. -/
theorem not_malformed_of_decodePacket {ws : List Word} {i : Instr} (h : decodePacket ws = .ok i) : ¬ Malformed ws := by
  intro hm
  cases ws with
  | nil => cases h
  | cons w0 ws =>
    obtain ⟨hrsv, op, hopc, hsid, hops⟩ := decodePacket_cons_eq_ok_iff.mp h
    obtain ⟨hfits, hpad⟩ := (decodeOperands_isOk_iff op _ w0 ws).mp ⟨i, hops⟩
    have hcode : w0.toNat % 2 ^ 8 = op.code.toNat := by rw [← headerOpc_toNat, hopc]
    cases hm with
    | reservedBits _ _ hne => exact hne (by rw [← headerRsv_toNat, hrsv]; rfl)
    | reservedOpcode _ _ hres =>
      rw [← headerOpc_toNat, ← ofCode_eq_none_iff, ofCode_eq_some_iff.mpr hopc] at hres
      cases hres
    | sidSet _ _ hle hne =>
      refine hsid ⟨(usesSid_eq_false_iff op).mpr (hcode ▸ hle), fun h0 => hne ?_⟩
      rw [← headerSid_toNat, h0]; rfl
    | length _ _ op' hop' hlen =>
      have : op.code = op'.code := BitVec.eq_of_toNat_eq (hcode.symm.trans hop')
      have : op = op' := Option.some.inj ((ofCode_code op).symm.trans (ofCode_eq_some_iff.mpr this))
      exact hlen (this ▸ hfits)
    | padding _ _ hfb hset => exact hpad ⟨(put_or_query_iff_code op).mpr (hcode ▸ hfb), hset⟩

/-- The decoder is total: a packet that meets none of the six clauses decodes. -/
theorem decodePacket_isOk_of_not_malformed {ws : List Word} (h : ¬ Malformed ws) : ∃ i, decodePacket ws = .ok i := by
  cases ws with
  | nil => exact absurd .empty h
  | cons w0 ws =>
    have hrsv : headerRsv w0 = 0 := BitVec.eq_of_toNat_eq <| by
      rw [headerRsv_toNat]
      exact not_not.mp fun hne => h (.reservedBits w0 ws hne)
    obtain ⟨op, hop⟩ : ∃ op, Opcode.ofCode (headerOpc w0) = some op := Option.ne_none_iff_exists'.mp fun hnone =>
      h (.reservedOpcode w0 ws (by rw [← headerOpc_toNat]; exact ofCode_eq_none_iff.mp hnone))
    have hopc : headerOpc w0 = op.code := ofCode_eq_some_iff.mp hop
    have hcode : w0.toNat % 2 ^ 8 = op.code.toNat := by rw [← headerOpc_toNat, hopc]
    have hsid : ¬ (op.usesSid = false ∧ headerSid w0 ≠ 0) := fun ⟨hno, hne⟩ =>
      h (.sidSet w0 ws (hcode ▸ (usesSid_eq_false_iff op).mp hno) fun h0 =>
        hne (BitVec.eq_of_toNat_eq ((headerSid_toNat w0).trans h0)))
    have hfits : FitsFormat op (w0 :: ws) := not_not.mp fun hlen => h (.length w0 ws op hcode hlen)
    have hpad : ¬ ((op = .put ∨ op = .query) ∧ PaddingSet (w0 :: ws)) := fun ⟨hfb, hset⟩ =>
      h (.padding w0 ws (hcode ▸ (put_or_query_iff_code op).mp hfb) hset)
    obtain ⟨i, hi⟩ := (decodeOperands_isOk_iff op (headerSid w0) w0 ws).mpr ⟨hfits, hpad⟩
    exact ⟨i, decodePacket_cons_eq_ok_iff.mpr ⟨hrsv, op, hopc, hsid, hi⟩⟩

/-- A packet that decodes is one command, and its opcode is the echo of the packet. -/
theorem opcode_of_decodePacket {ws : List Word} {i : Instr} (h : decodePacket ws = .ok i) :
    ∃ op : Opcode, i.opcode = some op ∧ opcEcho ws = op.code := by
  cases ws with
  | nil => cases h
  | cons w0 ws =>
    obtain ⟨-, op, hopc, -, hops⟩ := decodePacket_cons_eq_ok_iff.mp h
    exact ⟨op, opcode_of_decodeOperands hops, hopc⟩

/-- The instructions with an opcode are the eight commands. -/
theorem isCommand_eq_isSome_opcode (i : Instr) : i.isCommand = i.opcode.isSome := by cases i <;> rfl

/-! ### The step on a packet -/

/-- With no primitive request pending, the host's next packet is accepted (R40). -/
theorem step_packet {s : State} {ws : List Word} {rest : List HostEvent} (hreq : s.requests = [])
    (hin : s.inbox = .packet ws :: rest) : step s = acceptPacket ws (s.setInbox rest) := by
  simp only [step, hreq, hin, acceptHostEvent]

theorem acceptPacket_of_decodePacket {ws : List Word} {i : Instr} (h : decodePacket ws = .ok i) (s : State) :
    acceptPacket ws s = exec i s := by
  simp only [acceptPacket, decode, h]

/-- A malformed packet is answered `ERR_MALFORMED` (R58, R132). -/
theorem acceptPacket_of_malformed {ws : List Word} (h : Malformed ws) (s : State) :
    acceptPacket ws s = .next (s.respondError (opcEcho ws) .malformed) := by
  cases hd : decodePacket ws with
  | ok i => exact absurd h (not_malformed_of_decodePacket hd)
  | error e => simp only [acceptPacket, decode, hd]

/-! ### The response header as a number (R53) -/

/-- The two fields of a response header, echo and status; the bits above are 0. -/
theorem responseHeader_toNat (echo : BitVec 8) (st : Status) :
    (responseHeader echo st).toNat = st.code.toNat * 2 ^ 8 + echo.toNat := by
  have hor := Nat.shiftLeft_add_eq_or_of_lt echo.isLt st.code.toNat
  have hs := st.code.isLt
  have he := echo.isLt
  rw [responseHeader, BitVec.or_comm, BitVec.toNat_or, BitVec.toNat_shiftLeft, BitVec.toNat_setWidth,
    BitVec.toNat_setWidth, Nat.mod_eq_of_lt (a := echo.toNat) (by omega),
    Nat.mod_eq_of_lt (a := st.code.toNat) (by omega), Nat.mod_eq_of_lt (by rw [Nat.shiftLeft_eq]; omega), ← hor, Nat.shiftLeft_eq]

/-- The header of `ERR_MALFORMED` (Table R130). -/
theorem responseHeader_malformed (echo : BitVec 8) :
    responseHeader echo .malformed = BitVec.ofNat 64 (0x100 + echo.toNat) := by
  have he := echo.isLt
  refine BitVec.eq_of_toNat_eq ?_
  rw [responseHeader_toNat, BitVec.toNat_ofNat, Nat.mod_eq_of_lt (by omega)]
  rfl

/-- Settles O4: the decoder refuses exactly the packets that meet a clause of R58. -/
theorem malformedPacketAnswered : Obligations.MalformedPacketAnswered := by
  intro s ws rest hreq hin
  rw [step_packet hreq hin]
  refine ⟨fun hm => ?_, fun hm => ?_⟩
  · rw [acceptPacket_of_malformed hm, State.respondError, responseHeader_malformed]
  · obtain ⟨i, hi⟩ := decodePacket_isOk_of_not_malformed hm
    obtain ⟨op, hop, -⟩ := opcode_of_decodePacket hi
    exact ⟨i, by rw [isCommand_eq_isSome_opcode, hop]; rfl, hi, acceptPacket_of_decodePacket hi _⟩

end Sys2Proof
end

section
/-! PROOFS. R53 of spec/30_encoding.md: the shape of a response packet. What each command can answer, said once, and
the obligation. -/

namespace Sys2Proof.Machine

/-! ### The fields of a response header (R53) -/

theorem responseHeader_echo (echo : BitVec 8) (st : Status) :
    (responseHeader echo st).toNat % 2 ^ 8 = echo.toNat := by
  have := echo.isLt
  rw [responseHeader_toNat]
  omega

theorem responseHeader_rsv (echo : BitVec 8) (st : Status) : (responseHeader echo st).toNat / 2 ^ 16 = 0 := by
  have he := echo.isLt
  have hs := st.code.isLt
  rw [responseHeader_toNat]
  omega

theorem statusOf_responseHeader (echo : BitVec 8) (st : Status) :
    statusOf (responseHeader echo st) = st.code.toNat := by
  have he := echo.isLt
  have hs := st.code.isLt
  rw [statusOf, responseHeader_toNat]
  omega

theorem Status.code_le (st : Status) : st.code.toNat ≤ 4 := by cases st <;> decide

theorem Status.code_eq_zero_iff (st : Status) : st.code.toNat = 0 ↔ st = .ok := by cases st <;> decide

/-! ### What a command can answer -/

/-- The payload of the OK response to a command, by the command (R53). -/
def OkPayload (s : State) (payload : List Word) : Instr → Prop
  | .query _ => payload = [1] ∨ payload = [0]
  | .readM => payload = [s.m]
  | .readK => payload = [s.k]
  | .exportBits => payload = s.bits.exportWords (s.m.toNat / 64)
  | _ => payload = []

/-- What a command with opcode `op` can answer from `s`: an error response and no change, or an OK response whose
payload is as `okPayload` says, the ports being otherwise as they were. -/
inductive Answered (op : Opcode) (s : State) (okPayload : List Word → Prop) : State → Prop where
  | error (st : Status) (hst : st ≠ .ok) : Answered op s okPayload (s.respondError op.code st)
  | ok (u : State) (payload : List Word) (hports : SamePorts s u) (hout : u.outbox = s.outbox)
      (hpayload : okPayload payload) : Answered op s okPayload (u.respondOk op payload)

variable {op : Opcode} {s t : State} {okPayload : List Word → Prop}

theorem Answered.of_raise {st : Status} (hst : st ≠ .ok) (h : raise op st s = .next t) : Answered op s okPayload t := by
  cases h
  exact .error st hst

theorem Answered.of_whenConfigured {run : Host.Outcome State Fault Refusal} (h : whenConfigured op s run = .next t)
    (hrun : run = .next t → Answered op s okPayload t) : Answered op s okPayload t := by
  obtain ⟨-, rfl⟩ | ⟨-, hnext⟩ := whenConfigured_cases h
  · exact .error .notConfigured (by decide)
  · exact hrun hnext

/-- The checks of CONFIG and RECONSTRUCT, then their effect (R133). -/
theorem Answered.of_createChecks {invalid : Prop} [Decidable invalid] {fits : Bool} {u : State}
    (h : (if invalid then raise op .invalidParam s
      else if fits then .next (u.respondOk op []) else raise op .capacity s) = .next t)
    (hports : SamePorts s u) (hout : u.outbox = s.outbox) : Answered op s (· = []) t := by
  split at h
  · exact .of_raise (by decide) h
  · split at h
    · cases h
      exact .ok u [] hports hout rfl
    · exact .of_raise (by decide) h

/-- A command that reads a register out (R106, R107). -/
theorem Answered.of_read {payload : List Word}
    (h : whenConfigured op s (.next (s.respondOk op payload)) = .next t) : Answered op s (· = payload) t :=
  .of_whenConfigured h fun hrun => by
    cases hrun
    exact .ok s payload ⟨rfl, rfl, rfl⟩ rfl rfl

theorem execConfig_answered {sid : BitVec 8} {mRaw k : Word} (h : execConfig sid mRaw k s = .next t) :
    Answered .config s (· = []) t :=
  .of_createChecks h ⟨rfl, rfl, rfl⟩ rfl

theorem execReconstruct_answered {sid : BitVec 8} {k : Word} {words : List Word}
    (h : execReconstruct sid k words s = .next t) : Answered .reconstruct s (· = []) t :=
  .of_createChecks h ⟨rfl, rfl, rfl⟩ rfl

theorem execSetStrategy_answered {sid : BitVec 8} (h : execSetStrategy sid s = .next t) :
    Answered .setStrategy s (· = []) t := by
  refine .of_whenConfigured h fun hrun => ?_
  split at hrun
  · cases hrun
    exact .ok _ [] ⟨rfl, rfl, rfl⟩ rfl rfl
  · exact .of_raise (by decide) hrun

theorem execPut_answered {data : List Byte} (h : execPut data s = .next t) : Answered .put s (· = []) t := by
  obtain ⟨-, rfl⟩ | ⟨-, idx, -, -, rfl⟩ := execPut_cases h
  · exact .error .notConfigured (by decide)
  · exact .ok _ [] ⟨rfl, rfl, rfl⟩ rfl rfl

theorem accWord_eq_one_or_zero (acc : Bool) : [accWord acc] = [1] ∨ [accWord acc] = [0] := by
  cases acc
  · exact .inr rfl
  · exact .inl rfl

theorem execQuery_answered {data : List Byte} (h : execQuery data s = .next t) :
    Answered .query s (fun payload => payload = [1] ∨ payload = [0]) t := by
  refine .of_whenConfigured h fun hrun => ?_
  obtain ⟨idx, -, -, hnext⟩ := withIndexes_cases hrun
  cases hnext
  exact .ok _ _ ⟨rfl, rfl, rfl⟩ rfl (accWord_eq_one_or_zero _)

theorem execReadM_answered (h : execReadM s = .next t) : Answered .readM s (· = [s.m]) t := .of_read h

theorem execReadK_answered (h : execReadK s = .next t) : Answered .readK s (· = [s.k]) t := .of_read h

theorem execExport_answered (h : execExport s = .next t) :
    Answered .exportBits s (· = s.bits.exportWords (s.m.toNat / 64)) t := by
  refine .of_whenConfigured h fun hrun => ?_
  split at hrun
  · cases hrun
    exact .ok s _ ⟨rfl, rfl, rfl⟩ rfl rfl
  · cases hrun

/-- What a command can answer (R53, R131). -/
theorem exec_answered {i : Instr} (hop : i.opcode = some op) (h : exec i s = .next t) :
    Answered op s (OkPayload s · i) t := by
  cases i <;> cases hop
  case config => exact execConfig_answered h
  case reconstruct => exact execReconstruct_answered h
  case setStrategy => exact execSetStrategy_answered h
  case put => exact execPut_answered h
  case query => exact execQuery_answered h
  case readM => exact execReadM_answered h
  case readK => exact execReadK_answered h
  case exportBits => exact execExport_answered h

end Sys2Proof.Machine

namespace Sys2Proof

open Sys2Proof.Machine

/-! ### What a packet is answered -/

/-- What a packet can be answered: `ERR_MALFORMED`, or what its command can answer. -/
theorem acceptPacket_cases {ws : List Word} {s t : State} (h : acceptPacket ws s = .next t) :
    (Malformed ws ∧ t = s.respondError (opcEcho ws) .malformed) ∨
    ∃ (i : Instr) (op : Opcode), decode (.command ws) = .ok i ∧ i.opcode = some op ∧ opcEcho ws = op.code ∧
      Answered op s (OkPayload s · i) t := by
  by_cases hm : Malformed ws
  · rw [acceptPacket_of_malformed hm] at h
    exact .inl ⟨hm, (Host.Outcome.next.inj h).symm⟩
  · obtain ⟨i, hi⟩ := decodePacket_isOk_of_not_malformed hm
    obtain ⟨op, hop, hecho⟩ := opcode_of_decodePacket hi
    rw [acceptPacket_of_decodePacket hi] at h
    exact .inr ⟨i, op, hi, hop, hecho, exec_answered hop h⟩

/-- What a packet is answered, as a response packet: header alone on an error, else the payload of its command. -/
theorem acceptPacket_outbox {ws : List Word} {s t : State} (h : acceptPacket ws s = .next t) :
    ∃ st payload, t.outbox = s.outbox ++ [responseHeader (opcEcho ws) st :: payload] ∧ (st ≠ .ok → payload = []) ∧
      (st = .ok → ∀ i, decode (.command ws) = .ok i → OkPayload s payload i) := by
  obtain ⟨-, rfl⟩ | ⟨i, op, hi, -, hecho, hans⟩ := acceptPacket_cases h
  · exact ⟨.malformed, [], rfl, fun _ => rfl, nofun⟩
  · rw [hecho]
    cases hans with
    | error st hst => exact ⟨st, [], rfl, fun _ => rfl, fun hok => absurd hok hst⟩
    | ok u payload _ hout hpayload =>
      refine ⟨.ok, payload, by rw [State.respondOk_outbox, hout], fun hne => absurd rfl hne, fun _ j hj => ?_⟩
      cases hi.symm.trans hj
      exact hpayload

/-- Settles O12: every answer is one response packet, its header made of the echo and a status. -/
theorem responsePacketShape : Obligations.ResponsePacketShape := by
  intro ws s t h
  obtain ⟨st, payload, hout, herr, hok⟩ := acceptPacket_outbox h
  refine ⟨_, payload, hout, ?_, responseHeader_rsv _ _, ?_, ?_, ?_⟩
  · rw [responseHeader_echo, opcEcho_toNat]
  · rw [statusOf_responseHeader]
    exact Status.code_le st
  · rw [statusOf_responseHeader, ne_eq, Status.code_eq_zero_iff]
    exact herr
  · rw [statusOf_responseHeader, Status.code_eq_zero_iff]
    intro hst i hi
    have := hok hst i hi
    cases i <;> exact this

end Sys2Proof
end

section
/-! PROOFS. R75 of spec/40_estimate.md: what the estimator guarantees inside its precondition. -/

namespace Sys2Proof.Machine

/-- `ln p` is negative and `n` positive, so `x` is positive. -/
theorem estimateX_pos {n : ℤ} {p : ℝ} (hn : 1 ≤ n) (hp0 : 0 < p) (hp1 : p < 1) : 0 < estimateX n p := by
  have hn' : -(n : ℝ) < 0 := neg_neg_of_pos (Int.cast_pos.mpr hn)
  have hlog : Real.log p < 0 := Real.log_neg hp0 hp1
  have hlog2 : 0 < Real.log 2 := Real.log_pos one_lt_two
  exact div_pos (mul_pos_of_neg_of_neg hn' hlog) (pow_pos hlog2 2)

/-- The ceiling of a positive `x` is at least 1. -/
theorem one_le_bitCount {n : ℤ} {p : ℝ} (hn : 1 ≤ n) (hp0 : 0 < p) (hp1 : p < 1) : 1 ≤ bitCount n p :=
  Nat.one_le_ceil_iff.mpr (estimateX_pos hn hp0 hp1)

/-- R72 clamps `k` to at least 1. -/
theorem one_le_hashCount (n : ℤ) (mRaw : ℕ) : 1 ≤ hashCount n mRaw :=
  le_max_left 1 _

end Sys2Proof.Machine

namespace Sys2Proof

open Sys2Proof.Machine

/-- Settles O55: `x` is positive and so has a ceiling of at least 1, the clamp holds `k`, and `pad64` rounds up. -/
theorem estimateIsPositive : Obligations.EstimateIsPositive := by
  intro n p hn hp0 hp1
  obtain ⟨-, hpad, -⟩ := pad64_spec (bitCount n p)
  exact ⟨one_le_bitCount hn hp0 hp1, one_le_hashCount n, hpad⟩

end Sys2Proof
end

section
/-! PROOFS. R81 to R83 of spec/41_bitstore.md: what BS_SET, BS_TEST and BS_RDWORD do to an address of the store. The
mask and the tested bit as numbers, the operations inside their contract, and the obligations. -/

namespace Sys2Proof.Machine

/-! ### Bits and words as numbers -/

/-- The mask of R81 is a power of two. -/
theorem bitMask_eq_ofNat (b : Nat) : bitMask b = BitVec.ofNat 64 (2 ^ (b % 64)) :=
  BitVec.eq_of_toNat_eq ((BitVec.toNat_twoPow 64 (b % 64)).trans (BitVec.toNat_ofNat ..).symm)

/-- R82's formula in numbers: shift right by division, lowest bit by remainder. -/
theorem BitStore.bitTest_eq_ofNat (st : BitStore) (b : Nat) :
    st.bitTest b = BitVec.ofNat 64 ((st.wordRead (b / 64)).toNat / 2 ^ (b % 64) % 2) := by
  refine BitVec.eq_of_toNat_eq ?_
  have hbit : ∀ n, n % 2 % 2 ^ 64 = n % 2 := by omega
  rw [bitTest, BitVec.toNat_and, BitVec.toNat_ushiftRight, BitVec.toNat_ofNat, hbit, Nat.shiftRight_eq_div_pow]
  exact Nat.and_one_is_mod _

@[simp] theorem BitStore.length_exportWords (st : BitStore) (n : Nat) : (st.exportWords n).length = n := by
  rw [exportWords, List.length_map, List.length_range]

/-- `exportWords()` lists the word reads in ascending order (R83). -/
theorem BitStore.getElem?_exportWords (st : BitStore) {n j : Nat} (hj : j < n) :
    (st.exportWords n)[j]? = some (st.wordRead j) := by
  rw [exportWords, List.getElem?_map, List.getElem?_range hj, Option.map_some]

/-! ### The port operations inside their contract -/

theorem exec_bsSet_of_lt {s : State} {b : Word} (hb : b.toNat < 64 * s.bits.len) :
    exec (.bsSet b) s = .next ((s.setBits (s.bits.bitSet b.toNat)).answer .done) :=
  if_pos (decide_eq_true hb)

theorem exec_bsTest_of_lt {s : State} {b : Word} (hb : b.toNat < 64 * s.bits.len) :
    exec (.bsTest b) s = .next (s.answer (.rdata (s.bits.bitTest b.toNat))) :=
  if_pos (decide_eq_true hb)

theorem exec_bsRdWord_of_lt {s : State} {j : Word} (hj : j.toNat < s.bits.len) :
    exec (.bsRdWord j) s = .next (s.answer (.rdata (s.bits.wordRead j.toNat))) :=
  if_pos (decide_eq_true hj)

end Sys2Proof.Machine

namespace Sys2Proof

open Sys2Proof.Machine

/-- Settles O37: a bit set is the write of one word, the old word with one bit ORed in. -/
theorem bsSetSetsOneBit : Obligations.BsSetSetsOneBit := by
  intro s b w hwf hb
  have hread := BitStore.wordRead_bitSet hwf b.toNat
  refine ⟨rfl, _, exec_bsSet_of_lt hb, rfl, ?_, fun j hj => ?_, rfl⟩
  · rw [State.answer_bits, State.setBits_bits, hread, if_pos rfl, bitMask_eq_ofNat]
  · rw [State.answer_bits, State.setBits_bits, hread, if_neg hj]

/-- Settles O38: the answer is R82's formula, and the state is otherwise as it was. -/
theorem bsTestAnswersBit : Obligations.BsTestAnswersBit := by
  intro s b w hb
  refine ⟨rfl, ?_⟩
  rw [exec_bsTest_of_lt hb, BitStore.bitTest_eq_ofNat]

/-- Settles O39: a word read answers the word, and `exportWords()` lists the reads. -/
theorem bsRdWordAnswersWord : Obligations.BsRdWordAnswersWord := fun s =>
  ⟨fun _ _ hj => ⟨rfl, exec_bsRdWord_of_lt hj⟩,
    fun n _ hj => ⟨s.bits.getElem?_exportWords hj, s.bits.length_exportWords n⟩⟩

end Sys2Proof
end

section
/-! PROOFS. R90 and R92 to R95 of spec/42_index_generation.md: the running value of the reference generator before each
iteration, the index each iteration makes, and the obligations. -/

namespace Sys2Proof.Machine

/-! ### The working registers along the loop -/

/-- The working registers after `i` iterations of the loop of R92 from `w`. -/
def Work.after (w : Work) (i : Nat) : Work := Work.advance^[i] w

theorem Work.after_succ (w : Work) (i : Nat) : w.after (i + 1) = (w.after i).advance :=
  Function.iterate_succ_apply' ..

/-- The loop does not change the stride. -/
theorem Work.after_h2 (w : Work) (i : Nat) : (w.after i).h2 = w.h2 := by
  induction i with
  | zero => rfl
  | succ i ih => rw [after_succ, ← ih]; rfl

/-- One iteration adds the stride to the running value and discards the carry (R94). -/
theorem Work.after_succ_c_toNat (w : Work) (i : Nat) :
    (w.after (i + 1)).c.toNat = ((w.after i).c.toNat + w.h2.toNat) % 2 ^ 64 := by
  rw [after_succ, ← after_h2 w i]
  exact BitVec.toNat_add ..

/-- The mask and the modulo of R93 and R95 in numbers. -/
theorem Work.index_toNat (w : Work) (m : Word) : (w.index m).toNat = (w.c &&& mask63).toNat % m.toNat :=
  BitVec.toNat_umod

/-! ### The indices of the loop -/

/-- Iteration `i` makes its index from the registers that `i` iterations left (R92). -/
theorem generate_getElem? (m : Word) {n i : Nat} (hi : i < n) (w : Work) :
    (generate m n w).1[i]? = some ((w.after i).index m) := by
  induction n generalizing i w with
  | zero => exact absurd hi (Nat.not_lt_zero i)
  | succ n ih =>
    cases i with
    | zero => rfl
    | succ i => exact ih (Nat.lt_of_succ_lt_succ hi) w.advance

/-- The working registers after `i` iterations of the reference strategy on `data`. -/
def referenceAfter (data : List Byte) (i : Nat) : Work :=
  (referenceStart data { c := 0, h2 := 0, i := 0, acc := false }).after i

theorem length_referenceIndexes (data : List Byte) (m k : Word) : (referenceIndexes data m k).length = k.toNat :=
  length_generate m k.toNat _

theorem referenceIndexes_getElem? (data : List Byte) (m k : Word) {i : Nat} (hi : i < k.toNat) :
    (referenceIndexes data m k)[i]? = some ((referenceAfter data i).index m) :=
  generate_getElem? m hi _

/-- The running value starts at `h1` (R92). -/
theorem referenceAfter_zero_c (data : List Byte) : (referenceAfter data 0).c = (Config.h128 data).1 := rfl

/-- Each iteration adds `h2` modulo 2^64 (R94). -/
theorem referenceAfter_succ_c_toNat (data : List Byte) (i : Nat) :
    (referenceAfter data (i + 1)).c.toNat =
      ((referenceAfter data i).c.toNat + (Config.h128 data).2.toNat) % 2 ^ 64 :=
  Work.after_succ_c_toNat _ i

end Sys2Proof.Machine

namespace Sys2Proof

open Sys2Proof.Machine

/-- Settles O29: the running value is `C` along the loop, started from the hash of the data. -/
theorem referenceIndexesFollowSteps : Obligations.ReferenceIndexesFollowSteps := by
  intro data m k
  refine ⟨fun i => (referenceAfter data i).c, referenceIndexes data m k, referenceAfter_zero_c data,
    referenceAfter_succ_c_toNat data, indexes_zero data m k, length_referenceIndexes data m k, fun i hi => ?_⟩
  exact ⟨(referenceAfter data i).index m, referenceIndexes_getElem? data m k hi, Work.index_toNat _ m⟩

/-- Settles O31: every strategy carries the proof of its contract. -/
theorem strategyContractHolds : Obligations.StrategyContractHolds :=
  fun _ data _ _ himp hm hm64 hk => indexes_of_implemented himp data hm hm64 hk

end Sys2Proof
end

section
/-! PROOFS. R108 of spec/43_filter_ops.md: no false negatives. PUT leaves its data found, every command that keeps the
filter lets the store grow only, found data stays found as the store grows, and QUERY answers found data with 1. -/

namespace Sys2Proof.Machine

/-! ### What QUERY looks for -/

/-- `ACC` is the conjunction of the tests (R104, R105). -/
theorem accOf_eq_true_iff (st : BitStore) (idx : List Word) :
    accOf st idx = true ↔ ∀ b ∈ idx, st.bitTest b.toNat = 1 := by
  induction idx with
  | nil => simp [accOf]
  | cons b bs ih =>
    rw [accOf, List.forall_mem_cons, ← ih, BitStore.bitTest_eq_one_iff, bitTest_eq]
    split <;> simp [*]

/-- Every bit that PUT `data` would set is already 1. -/
def Found (data : List Byte) (s : State) : Prop :=
  ∃ idx, indexes s.sid data s.m s.k = some idx ∧ ∀ b ∈ idx, s.bits.bitTest b.toNat = 1

/-- QUERY answers 1 where the data is found. -/
theorem execQuery_of_found {data : List Byte} {s : State} (hi : EngineInv s) (hc : s.cfg = true) (hf : Found data s) :
    ∃ t, execQuery data s = .next t ∧ t.outbox = s.outbox ++ [[0x5, 1]] := by
  obtain ⟨idx, hidx, hset⟩ := hf
  obtain ⟨idx', hidx', hnext⟩ := execQuery_of_inv hi hc data
  cases hidx.symm.trans hidx'
  rw [(accOf_eq_true_iff s.bits idx).mpr hset] at hnext
  exact ⟨_, hnext, rfl⟩

/-! ### A filter that grows -/

/-- `t` is the filter of `s`, with the same registers, the same number of words, and no bit cleared. -/
structure GrownFrom (s t : State) : Prop where
  cfg : t.cfg = s.cfg
  m : t.m = s.m
  k : t.k = s.k
  sid : t.sid = s.sid
  requests : t.requests = s.requests
  len : t.bits.len = s.bits.len
  wf : t.bits.wf = true
  bits : ∀ c, s.bits.bitTest c = 1 → t.bits.bitTest c = 1

variable {s t u : State} {data : List Byte}

theorem GrownFrom.of_sameFilter (hwf : s.bits.wf = true) (hsame : SameFilter s t) (hreq : t.requests = s.requests) :
    GrownFrom s t := by
  obtain ⟨hcfg, hm, hk, hsid, hbits⟩ := hsame
  exact ⟨hcfg, hm, hk, hsid, hreq, by rw [hbits], by rw [hbits, hwf], fun c => by rw [hbits]; exact id⟩

theorem GrownFrom.trans (hst : GrownFrom s t) (htu : GrownFrom t u) : GrownFrom s u where
  cfg := htu.cfg.trans hst.cfg
  m := htu.m.trans hst.m
  k := htu.k.trans hst.k
  sid := htu.sid.trans hst.sid
  requests := htu.requests.trans hst.requests
  len := htu.len.trans hst.len
  wf := htu.wf
  bits c hc := htu.bits c (hst.bits c hc)

/-- The invariant speaks of what growing keeps. -/
theorem GrownFrom.inv (hg : GrownFrom s t) (hi : EngineInv s) : EngineInv t where
  store_wf := hg.wf
  no_request := hg.requests.trans hi.no_request
  unconfigured := by rw [hg.cfg, hg.m, hg.k, hg.sid, hg.len]; exact hi.unconfigured
  configured := by rw [hg.cfg, hg.m, hg.k, hg.sid, hg.len]; exact hi.configured

/-- The indices depend on the registers alone, and their bits stay 1 (R24). -/
theorem GrownFrom.found (hg : GrownFrom s t) (hf : Found data s) : Found data t := by
  obtain ⟨idx, hidx, hset⟩ := hf
  refine ⟨idx, ?_, fun b hb => hg.bits _ (hset b hb)⟩
  rw [hg.sid, hg.m, hg.k, hidx]

/-! ### The commands that keep a filter -/

theorem execPut_grownFrom (hwf : s.bits.wf = true) (h : execPut data s = .next t) : GrownFrom s t := by
  have hbits := fun c => execPut_keeps_set_bits hwf h (c := c)
  obtain ⟨-, rfl⟩ | ⟨-, idx, -, hlt, rfl⟩ := execPut_cases h
  · exact .of_sameFilter hwf ⟨rfl, rfl, rfl, rfl, rfl⟩ rfl
  · exact ⟨rfl, rfl, rfl, rfl, rfl, BitStore.setAll_len idx s.bits, BitStore.setAll_wf idx hwf hlt, hbits⟩

/-- On a filter, PUT leaves its data found (R103). -/
theorem execPut_found (hwf : s.bits.wf = true) (hc : s.cfg = true) (h : execPut data s = .next t) : Found data t := by
  obtain ⟨hc', -⟩ | ⟨-, idx, hidx, hlt, rfl⟩ := execPut_cases h
  · rw [hc] at hc'
    cases hc'
  · exact ⟨idx, hidx, fun b hb => (BitStore.bitTest_setAll hwf hlt b.toNat).mpr (.inr ⟨b, hb, rfl⟩)⟩

/-- SET_STRATEGY that names the current strategy, or none that is implemented, leaves `SID` unchanged (R102). -/
theorem execSetStrategy_sameFilter (hc : s.cfg = true) {new : BitVec 8} (hnew : new = s.sid ∨ implemented new = false) :
    ∃ t, execSetStrategy new s = .next t ∧ SameFilter s t ∧ t.requests = s.requests := by
  rw [execSetStrategy, whenConfigured_of hc]
  split
  case isTrue himp =>
    obtain rfl | habs := hnew
    · exact ⟨_, rfl, ⟨rfl, rfl, rfl, rfl, rfl⟩, rfl⟩
    · rw [himp] at habs
      cases habs
  case isFalse => exact ⟨_, rfl, ⟨rfl, rfl, rfl, rfl, rfl⟩, rfl⟩

theorem execExport_of_inv (hi : EngineInv s) (hc : s.cfg = true) :
    execExport s = .next (s.respondOk .exportBits (s.bits.exportWords (s.m.toNat / 64))) := by
  obtain ⟨-, -, -, -, -, hlen⟩ := hi.configured hc
  rw [execExport, whenConfigured_of hc, if_pos hlen.ge]

/-- Each command R108 allows is executed on a filter and lets it grow only. -/
theorem exec_grownFrom (hi : EngineInv s) (hc : s.cfg = true) {i : Instr} (hk : KeepsFilter s.sid i) :
    ∃ t, exec i s = .next t ∧ GrownFrom s t := by
  have hwf := hi.store_wf
  cases i
  case put data =>
    obtain ⟨idx, -, hnext⟩ := execPut_of_inv hi hc data
    exact ⟨_, hnext, execPut_grownFrom hwf hnext⟩
  case query data =>
    obtain ⟨idx, -, hnext⟩ := execQuery_of_inv hi hc data
    exact ⟨_, hnext, .of_sameFilter hwf ⟨rfl, rfl, rfl, rfl, rfl⟩ rfl⟩
  case readM => exact ⟨_, whenConfigured_of hc _, .of_sameFilter hwf ⟨rfl, rfl, rfl, rfl, rfl⟩ rfl⟩
  case readK => exact ⟨_, whenConfigured_of hc _, .of_sameFilter hwf ⟨rfl, rfl, rfl, rfl, rfl⟩ rfl⟩
  case exportBits => exact ⟨_, execExport_of_inv hi hc, .of_sameFilter hwf ⟨rfl, rfl, rfl, rfl, rfl⟩ rfl⟩
  case setStrategy new =>
    obtain ⟨t, hnext, hsame, hreq⟩ := execSetStrategy_sameFilter hc hk
    exact ⟨t, hnext, .of_sameFilter hwf hsame hreq⟩
  all_goals exact hk.elim

theorem execAll_cons_of_next {i : Instr} (h : exec i s = .next t) (is : List Instr) :
    execAll (i :: is) s = execAll is t := by
  rw [execAll, h]

/-- A sequence of commands that R108 allows is executed to its end and lets the filter grow only. -/
theorem execAll_grownFrom {later : List Instr} (hi : EngineInv s) (hc : s.cfg = true)
    (hk : ∀ i ∈ later, KeepsFilter s.sid i) : ∃ t, execAll later s = .next t ∧ GrownFrom s t := by
  induction later generalizing s with
  | nil => exact ⟨s, rfl, .of_sameFilter hi.store_wf ⟨rfl, rfl, rfl, rfl, rfl⟩ rfl⟩
  | cons i is ih =>
    obtain ⟨hki, hkis⟩ := List.forall_mem_cons.mp hk
    obtain ⟨t, hnext, hst⟩ := exec_grownFrom hi hc hki
    rw [← hst.sid] at hkis
    obtain ⟨u, hrest, htu⟩ := ih (hst.inv hi) (hst.cfg.trans hc) hkis
    exact ⟨u, (execAll_cons_of_next hnext is).trans hrest, hst.trans htu⟩

end Sys2Proof.Machine

namespace Sys2Proof

open Sys2Proof.Machine

/-- Settles O24: PUT leaves its data found, and the filter of the later commands grows from the one PUT left. -/
theorem noFalseNegatives : Obligations.NoFalseNegatives := by
  intro s t data later hi hc hput hkeep
  have hst : GrownFrom s t := execPut_grownFrom hi.store_wf hput
  have hit : EngineInv t := hst.inv hi
  have hct : t.cfg = true := hst.cfg.trans hc
  rw [← hst.sid] at hkeep
  obtain ⟨u, hlater, htu⟩ := execAll_grownFrom hit hct hkeep
  have hfound : Found data u := htu.found (execPut_found hi.store_wf hc hput)
  obtain ⟨v, hquery, hout⟩ := execQuery_of_found (htu.inv hit) (htu.cfg.trans hct) hfound
  exact ⟨u, v, hlater, hquery, hout⟩

end Sys2Proof
end

section
/-! PROOFS. R131 and R133 of spec/60_exceptions.md: every error is precise, and one status is reported in the fixed
order. Which status the order selects for a command, that each command answers with the selected one, that a filter
lets every command answer, and the two obligations. -/

namespace Sys2Proof.Machine

/-! ### The status the order selects -/

/-- A command needs a filter and there is none (R135). -/
def LacksFilter (s : State) (i : Instr) : Prop := NeedsFilter i ∧ s.cfg = false

/-- The status that the order of R133 selects for a packet that decodes to `i`. -/
inductive Selects (s : State) (i : Instr) : Status → Prop where
  | notConfigured (hlacks : LacksFilter s i) : Selects s i .notConfigured
  | invalidParam (hhas : ¬ LacksFilter s i) (hbad : InvalidParam i) : Selects s i .invalidParam
  | capacity (hhas : ¬ LacksFilter s i) (hgood : ¬ InvalidParam i) (hover : OverCapacity i) : Selects s i .capacity
  | ok (hhas : ¬ LacksFilter s i) (hgood : ¬ InvalidParam i) (hfits : ¬ OverCapacity i) : Selects s i .ok

variable {s t u : State} {i : Instr} {op : Opcode} {st : Status}

/-- The four clauses of R133, each on the condition that those before it do not hold. -/
theorem Selects.code (h : Selects s i st) :
    (LacksFilter s i → st.code.toNat = 3) ∧
    (¬ LacksFilter s i → InvalidParam i → st.code.toNat = 2) ∧
    (¬ LacksFilter s i → ¬ InvalidParam i → OverCapacity i → st.code.toNat = 4) ∧
    (¬ LacksFilter s i → ¬ InvalidParam i → ¬ OverCapacity i → st.code.toNat = 0) := by
  cases h with
  | notConfigured hlacks =>
    exact ⟨fun _ => rfl, fun h => absurd hlacks h, fun h => absurd hlacks h, fun h => absurd hlacks h⟩
  | invalidParam hhas hbad =>
    exact ⟨fun h => absurd h hhas, fun _ _ => rfl, fun _ h => absurd hbad h, fun _ h => absurd hbad h⟩
  | capacity hhas hgood hover =>
    exact ⟨fun h => absurd h hhas, fun _ h => absurd h hgood, fun _ _ _ => rfl, fun _ _ h => absurd hover h⟩
  | ok hhas hgood hfits =>
    exact ⟨fun h => absurd h hhas, fun _ h => absurd h hgood, fun _ _ h => absurd h hfits, fun _ _ _ => rfl⟩

theorem fitsCapacity_eq_false_iff (m : Nat) : fitsCapacity m = false ↔ Config.mMax < m := by
  rw [← Bool.not_eq_true, fitsCapacity_iff, Nat.not_le]

/-! ### No primitive request under an error -/

theorem portTrace_of_lacksFilter (h : LacksFilter s i) : portTrace i s = [] := by
  obtain ⟨hneeds, hc⟩ := h
  have hcfg : ¬ s.cfg = true := by rw [hc]; decide
  cases i
  case setStrategy => rfl
  case put => exact if_neg hcfg
  case query => exact if_neg hcfg
  case readM => rfl
  case readK => rfl
  case exportBits => exact if_neg hcfg
  all_goals exact hneeds.elim

theorem portTrace_of_invalidParam (h : InvalidParam i) : portTrace i s = [] := by
  cases i
  case config => exact if_pos (h.imp_right (·.imp_right .inl))
  case reconstruct => exact if_pos (h.imp_right (·.imp_right .inl))
  case setStrategy => rfl
  all_goals exact h.elim

theorem portTrace_of_overCapacity (h : OverCapacity i) : portTrace i s = [] := by
  cases i
  case config => exact if_pos (.inr (.inr (.inr ((fitsCapacity_eq_false_iff _).mpr h))))
  case reconstruct => exact if_pos (.inr (.inr (.inr ((fitsCapacity_eq_false_iff _).mpr h))))
  all_goals exact h.elim

/-- A command for which an error is selected issues no primitive request (R131). -/
theorem Selects.portTrace_eq_nil (h : Selects s i st) (hst : st ≠ .ok) : portTrace i s = [] := by
  cases h with
  | notConfigured hlacks => exact portTrace_of_lacksFilter hlacks
  | invalidParam _ hbad => exact portTrace_of_invalidParam hbad
  | capacity _ _ hover => exact portTrace_of_overCapacity hover
  | ok => exact absurd rfl hst

/-! ### Each command answers with the selected status -/

/-- `t` is `s` after one response to `i`, whose header carries the selected status. -/
def AnsweredAsSelected (op : Opcode) (i : Instr) (s t : State) : Prop :=
  ∃ st payload, Selects s i st ∧ t.outbox = s.outbox ++ [responseHeader op.code st :: payload]

theorem AnsweredAsSelected.of_error (hsel : Selects s i st) (h : raise op st s = .next t) :
    AnsweredAsSelected op i s t := by
  cases h
  exact ⟨st, [], hsel, rfl⟩

theorem AnsweredAsSelected.of_ok {payload : List Word} (hsel : Selects s i .ok)
    (h : .next (u.respondOk op payload) = (.next t : Host.Outcome State Fault Refusal)) (hout : u.outbox = s.outbox) :
    AnsweredAsSelected op i s t := by
  cases h
  exact ⟨.ok, payload, hsel, by rw [State.respondOk_outbox, hout]⟩

/-- A command that needs a filter makes that check first (R135). -/
theorem AnsweredAsSelected.of_whenConfigured {run : Host.Outcome State Fault Refusal} (hneeds : NeedsFilter i)
    (h : whenConfigured op s run = .next t)
    (hrun : ¬ LacksFilter s i → run = .next t → AnsweredAsSelected op i s t) : AnsweredAsSelected op i s t := by
  obtain ⟨hc, rfl⟩ | ⟨hc, hnext⟩ := whenConfigured_cases h
  · exact .of_error (.notConfigured ⟨hneeds, hc⟩) rfl
  · refine hrun (fun hlacks => ?_) hnext
    rw [hlacks.2] at hc
    cases hc

/-- The checks of CONFIG and RECONSTRUCT, in their order (R134, R136). -/
theorem AnsweredAsSelected.of_createChecks {invalid : Prop} [Decidable invalid] {m : Nat}
    (h : (if invalid then raise op .invalidParam s
      else if fitsCapacity m then .next (u.respondOk op []) else raise op .capacity s) = .next t)
    (hneeds : ¬ NeedsFilter i) (hparam : InvalidParam i ↔ invalid) (hcap : OverCapacity i ↔ Config.mMax < m)
    (hout : u.outbox = s.outbox) : AnsweredAsSelected op i s t := by
  have hhas : ¬ LacksFilter s i := fun hlacks => hneeds hlacks.1
  split at h
  case isTrue hbad => exact .of_error (.invalidParam hhas (hparam.mpr hbad)) h
  case isFalse hgood =>
    rw [← hparam] at hgood
    split at h
    case isTrue hfits =>
      rw [fitsCapacity_iff, ← Nat.not_lt, ← hcap] at hfits
      exact .of_ok (.ok hhas hgood hfits) h hout
    case isFalse hover =>
      rw [Bool.not_eq_true, fitsCapacity_eq_false_iff, ← hcap] at hover
      exact .of_error (.capacity hhas hgood hover) h

/-- The run of PUT and QUERY on their indices is answered OK (R103, R104). -/
theorem AnsweredAsSelected.of_withIndexes {data : List Byte} {after : List Word → State}
    {payload : List Word → List Word} (hsel : Selects s i .ok)
    (h : withIndexes data s (fun idx => .next ((after idx).respondOk op (payload idx))) = .next t)
    (hout : ∀ idx, (after idx).outbox = s.outbox) : AnsweredAsSelected op i s t := by
  obtain ⟨idx, -, -, hnext⟩ := withIndexes_cases h
  exact .of_ok hsel hnext (hout idx)

theorem execSetStrategy_asSelected {sid : BitVec 8} (h : execSetStrategy sid s = .next t) :
    AnsweredAsSelected .setStrategy (.setStrategy sid) s t := by
  refine .of_whenConfigured trivial h fun hhas hrun => ?_
  split at hrun
  case isTrue himp => exact .of_ok (.ok hhas (by rw [InvalidParam, himp]; decide) id) hrun rfl
  case isFalse habs => exact .of_error (.invalidParam hhas (Bool.eq_false_of_not_eq_true habs)) hrun

theorem execExport_asSelected (h : execExport s = .next t) : AnsweredAsSelected .exportBits .exportBits s t := by
  refine .of_whenConfigured trivial h fun hhas hrun => ?_
  split at hrun
  · exact .of_ok (.ok hhas id id) hrun rfl
  · cases hrun

theorem exec_asSelected (hop : i.opcode = some op) (h : exec i s = .next t) : AnsweredAsSelected op i s t := by
  cases i <;> cases hop
  case config => exact .of_createChecks h id Iff.rfl Iff.rfl rfl
  case reconstruct => exact .of_createChecks h id Iff.rfl Iff.rfl rfl
  case setStrategy => exact execSetStrategy_asSelected h
  case put =>
    exact .of_whenConfigured trivial h fun hhas hrun => .of_withIndexes (.ok hhas id id) hrun fun _ => rfl
  case query =>
    exact .of_whenConfigured trivial h fun hhas hrun => .of_withIndexes (.ok hhas id id) hrun fun _ => rfl
  case readM => exact .of_whenConfigured trivial h fun hhas hrun => .of_ok (.ok hhas id id) hrun rfl
  case readK => exact .of_whenConfigured trivial h fun hhas hrun => .of_ok (.ok hhas id id) hrun rfl
  case exportBits => exact execExport_asSelected h

/-- The status in the response to a command is the selected one. -/
theorem exec_status {r0 : Word} {payload : List Word} (hop : i.opcode = some op) (h : exec i s = .next t)
    (hout : t.outbox = s.outbox ++ [r0 :: payload]) : ∃ st, Selects s i st ∧ statusOf r0 = st.code.toNat := by
  obtain ⟨st, payload', hsel, hout'⟩ := exec_asSelected hop h
  have hresp : [r0 :: payload] = [responseHeader op.code st :: payload'] :=
    List.append_cancel_left (hout.symm.trans hout')
  cases hresp
  exact ⟨st, hsel, statusOf_responseHeader _ _⟩

/-! ### Every command is answered -/

theorem whenConfigured_next {run : Host.Outcome State Fault Refusal} (hrun : s.cfg = true → ∃ t, run = .next t) :
    ∃ t, whenConfigured op s run = .next t := by
  cases hc : s.cfg with
  | false => exact ⟨_, whenConfigured_of_not hc run⟩
  | true => rw [whenConfigured_of hc]; exact hrun hc

/-- On a state that meets the invariant a command stops with no fault (R23, R34). -/
theorem exec_next_of_inv (hi : EngineInv s) (hop : i.opcode = some op) : ∃ t, exec i s = .next t := by
  cases i <;> cases hop
  case config =>
    rw [exec, execConfig, raise, raise]
    split_ifs <;> exact ⟨_, rfl⟩
  case reconstruct =>
    rw [exec, execReconstruct, raise, raise]
    split_ifs <;> exact ⟨_, rfl⟩
  case setStrategy =>
    refine whenConfigured_next fun _ => ?_
    rw [raise]
    split_ifs <;> exact ⟨_, rfl⟩
  case put data =>
    refine whenConfigured_next fun hc => ?_
    obtain ⟨idx, -, -, -, -, -, hrun⟩ := withIndexes_of_inv hi hc data
    exact ⟨_, hrun _⟩
  case query data =>
    refine whenConfigured_next fun hc => ?_
    obtain ⟨idx, -, -, -, -, -, hrun⟩ := withIndexes_of_inv hi hc data
    exact ⟨_, hrun _⟩
  case readM => exact whenConfigured_next fun _ => ⟨_, rfl⟩
  case readK => exact whenConfigured_next fun _ => ⟨_, rfl⟩
  case exportBits =>
    refine whenConfigured_next fun hc => ?_
    obtain ⟨-, -, -, -, -, hlen⟩ := hi.configured hc
    exact ⟨_, if_pos hlen.ge⟩

end Sys2Proof.Machine

namespace Sys2Proof

open Sys2Proof.Machine

/-- On a state that meets the invariant every packet is answered. -/
theorem acceptPacket_next_of_inv {s : State} (hi : EngineInv s) (ws : List Word) :
    ∃ t, acceptPacket ws s = .next t := by
  by_cases hm : Malformed ws
  · exact ⟨_, acceptPacket_of_malformed hm s⟩
  · obtain ⟨i, hd⟩ := decodePacket_isOk_of_not_malformed hm
    obtain ⟨op, hop, -⟩ := opcode_of_decodePacket hd
    rw [acceptPacket_of_decodePacket hd]
    exact exec_next_of_inv hi hop

/-- The status in the response to a packet that decodes is the selected one. -/
theorem acceptPacket_status {ws : List Word} {s t : State} {i : Instr} {r0 : Word} {payload : List Word}
    (h : acceptPacket ws s = .next t) (hout : t.outbox = s.outbox ++ [r0 :: payload])
    (hd : decode (.command ws) = .ok i) : ∃ st, Selects s i st ∧ statusOf r0 = st.code.toNat := by
  obtain ⟨op, hop, -⟩ := opcode_of_decodePacket hd
  rw [acceptPacket_of_decodePacket hd] at h
  exact exec_status hop h hout

/-- The status in the response to a malformed packet (R132). -/
theorem acceptPacket_status_of_malformed {ws : List Word} {s t : State} {r0 : Word} {payload : List Word}
    (h : acceptPacket ws s = .next t) (hout : t.outbox = s.outbox ++ [r0 :: payload]) (hm : Malformed ws) :
    statusOf r0 = 1 := by
  rw [acceptPacket_of_malformed hm] at h
  cases h
  have hresp : [responseHeader (opcEcho ws) .malformed] = r0 :: payload :=
    List.singleton_inj.mp (List.append_cancel_left hout)
  cases hresp
  exact statusOf_responseHeader _ _

/-- What a packet can be answered, as far as an error goes: the ports are as they were, and an error response is the
header alone and changes no architectural state (R131). -/
theorem acceptPacket_precise {ws : List Word} {s t : State} (h : acceptPacket ws s = .next t) :
    ∃ r0 payload, t.outbox = s.outbox ++ [r0 :: payload] ∧ SamePorts s t ∧
      (statusOf r0 ≠ 0 → payload = [] ∧ SameFilter s t) := by
  obtain ⟨-, rfl⟩ | ⟨i, op, -, -, -, hans⟩ := acceptPacket_cases h
  · exact ⟨_, [], rfl, ⟨rfl, rfl, rfl⟩, fun _ => ⟨rfl, rfl, rfl, rfl, rfl, rfl⟩⟩
  · cases hans with
    | error st hst => exact ⟨_, [], rfl, ⟨rfl, rfl, rfl⟩, fun _ => ⟨rfl, rfl, rfl, rfl, rfl, rfl⟩⟩
    | ok u payload hports hout =>
      exact ⟨_, payload, by rw [State.respondOk_outbox, hout], hports,
        fun hne => absurd (statusOf_responseHeader op.code .ok) hne⟩

/-- Settles O13: an error response is the header alone over an unchanged filter, and the status is not 0 only where
the order of R133 selects an error, under which no request is issued. -/
theorem errorsArePrecise : Obligations.ErrorsArePrecise := by
  intro ws s t h
  obtain ⟨r0, payload, hout, hports, herr⟩ := acceptPacket_precise h
  refine ⟨r0, payload, hout, hports, fun hne => ?_⟩
  obtain ⟨hpayload, hsame⟩ := herr hne
  refine ⟨hpayload, hsame, fun i hd => ?_⟩
  obtain ⟨st, hsel, hst⟩ := acceptPacket_status h hout hd
  rw [hst, ne_eq, Status.code_eq_zero_iff] at hne
  exact hsel.portTrace_eq_nil hne

/-- Settles O14: a packet is always answered, a malformed one with `ERR_MALFORMED`, any other with the status the
order of R133 selects for its command. -/
theorem errorPriority : Obligations.ErrorPriority := by
  intro ws s hi
  obtain ⟨t, h⟩ := acceptPacket_next_of_inv hi ws
  obtain ⟨r0, payload, hout, -, -⟩ := acceptPacket_precise h
  refine ⟨t, r0, payload, h, hout, acceptPacket_status_of_malformed h hout, fun i hd => ?_⟩
  obtain ⟨st, hsel, hst⟩ := acceptPacket_status h hout hd
  rw [hst]
  exact hsel.code

end Sys2Proof
end

section
/-! PROOFS. R151 of spec/70_reset_and_hazards.md: the state after reset, at the start and after the reset event. -/

namespace Sys2Proof

open Sys2Proof.Machine

/-- With no primitive request pending, the host's reset event is taken as its next event (R150). -/
theorem step_reset {s : State} {rest : List HostEvent} (hreq : s.requests = []) (hin : s.inbox = .reset :: rest) :
    step s = .next (s.setInbox rest).resetEvent := by
  simp only [step, hreq, hin, acceptHostEvent]

/-- Settles O7: the start has the values of R151, and the step on a reset event ends in `resetEvent`, which has them. -/
theorem stateAfterReset : Obligations.StateAfterReset := by
  refine ⟨⟨rfl, rfl, rfl, rfl, rfl⟩, fun s rest hreq hin => ?_⟩
  refine ⟨_, step_reset hreq hin, State.resetEvent_cfg _, State.resetEvent_m _, State.resetEvent_k _,
    State.resetEvent_sid _, ?_⟩
  rw [State.resetEvent_bits, BitStore.empty]

end Sys2Proof
end

section
/-! PROOFS. The encoding of spec/30_encoding.md R51 to R57: the three header fields determine the header word, the
decoder undoes the encoder, a packet that decodes is the one its command encodes to, and the header meets one row of
Table R56. -/

namespace Sys2Proof

open Sys2Proof.Machine

/-! ### The header word (R51) -/

/-- The three fields cover the whole header. -/
theorem word_eq_of_header {v w : Word} (hopc : headerOpc v = headerOpc w) (hsid : headerSid v = headerSid w)
    (hrsv : headerRsv v = headerRsv w) : v = w := by
  have h1 := congrArg BitVec.toNat hopc
  have h2 := congrArg BitVec.toNat hsid
  have h3 := congrArg BitVec.toNat hrsv
  simp only [headerOpc_toNat, headerSid_toNat, headerRsv_toNat] at h1 h2 h3
  exact BitVec.eq_of_toNat_eq (by omega)

/-- A header with reserved bits 0 and the opcode of `op` is the header made for `op` and its own `sid`. -/
theorem eq_commandHeader {w0 : Word} {op : Opcode} (hrsv : headerRsv w0 = 0) (hopc : headerOpc w0 = op.code) :
    w0 = commandHeader op (headerSid w0) := by
  obtain ⟨h1, h2, h3⟩ := commandHeader_fields op (headerSid w0)
  exact word_eq_of_header (hopc.trans h1.symm) h2.symm (hrsv.trans h3.symm)

theorem commandHeader_inj {op op' : Opcode} {sid sid' : BitVec 8} :
    commandHeader op sid = commandHeader op' sid' ↔ op = op' ∧ sid = sid' := by
  refine ⟨fun h => ?_, fun ⟨h1, h2⟩ => by rw [h1, h2]⟩
  obtain ⟨h1, h2, -⟩ := commandHeader_fields op sid
  obtain ⟨h1', h2', -⟩ := commandHeader_fields op' sid'
  rw [h] at h1 h2
  have hcode := ofCode_code op
  rw [← h1, h1', ofCode_code] at hcode
  exact ⟨(Option.some.inj hcode).symm, h2.symm.trans h2'⟩

/-! ### Decode after encode -/

/-- A header that was made selects its command, whose operands are then decoded. -/
theorem decodePacket_commandHeader {op : Opcode} {sid : BitVec 8} {ws : List Word} {i : Instr}
    (hsid : op.usesSid = true ∨ sid = 0) (h : decodeOperands op sid ws = .ok i) :
    decodePacket (commandHeader op sid :: ws) = .ok i := by
  obtain ⟨hopc, hs, hrsv⟩ := commandHeader_fields op sid
  rw [decodePacket_cons_eq_ok_iff, hs]
  refine ⟨hrsv, op, hopc, fun ⟨hno, hne⟩ => ?_, h⟩
  obtain huses | h0 := hsid
  · rw [huses] at hno
    cases hno
  · exact hne h0

/-- A count that fits its 64-bit word is read back from it (R52). -/
theorem toNat_ofNat_of_fitsCountWord {n : Nat} (h : fitsCountWord n = true) : (BitVec.ofNat 64 n).toNat = n := by
  rw [BitVec.toNat_ofNat]
  exact Nat.mod_eq_of_lt (of_decide_eq_true h)

/-- Settles O1: the header selects the command again, and each operand format is read back. -/
theorem decodeEncodeRoundTrip : Obligations.DecodeEncodeRoundTrip := by
  intro i hwf
  cases i
  case config => exact decodePacket_commandHeader (.inl rfl) rfl
  case reconstruct sid k words =>
    exact decodePacket_commandHeader (.inl rfl)
      (decodeFW_eq_ok_iff.mpr ⟨_, k, words, rfl, (toNat_ofNat_of_fitsCountWord hwf).symm, rfl⟩)
  case setStrategy => exact decodePacket_commandHeader (.inl rfl) rfl
  case put data =>
    exact decodePacket_commandHeader (op := .put) (.inr rfl)
      (exceptMap_eq_ok_iff.mpr ⟨data, decodeBytes_encodeBytes (of_decide_eq_true hwf), rfl⟩)
  case query data =>
    exact decodePacket_commandHeader (op := .query) (.inr rfl)
      (exceptMap_eq_ok_iff.mpr ⟨data, decodeBytes_encodeBytes (of_decide_eq_true hwf), rfl⟩)
  case readM => exact decodePacket_commandHeader (op := .readM) (ws := []) (.inr rfl) rfl
  case readK => exact decodePacket_commandHeader (op := .readK) (ws := []) (.inr rfl) rfl
  case exportBits => exact decodePacket_commandHeader (op := .exportBits) (ws := []) (.inr rfl) rfl
  all_goals rfl

/-! ### Encode after decode -/

/-- The operands of a command are the packing of what they decode to, under the header of the command. -/
theorem encode_of_decodeOperands {op : Opcode} {sid : BitVec 8} {ws : List Word} {i : Instr}
    (hsid : ¬ (op.usesSid = false ∧ sid ≠ 0)) (h : decodeOperands op sid ws = .ok i) :
    WellFormed i = true ∧ encode i = .command (commandHeader op sid :: ws) := by
  have hzero : op.usesSid = false → sid = 0 := fun hno => not_not.mp fun hne => hsid ⟨hno, hne⟩
  cases op with
  | config =>
    obtain ⟨mRaw, k, rfl, rfl⟩ := decodeF2_eq_ok_iff.mp h
    exact ⟨rfl, rfl⟩
  | reconstruct =>
    obtain ⟨w, k, words, rfl, hlen, rfl⟩ := decodeFW_eq_ok_iff.mp h
    exact ⟨decide_eq_true (hlen ▸ w.isLt), by rw [encode, hlen, BitVec.ofNat_toNat, BitVec.setWidth_eq]⟩
  | put | query =>
    obtain ⟨data, hdata, rfl⟩ := exceptMap_eq_ok_iff.mp h
    obtain ⟨henc, hlen⟩ := encodeBytes_of_decodeBytes hdata
    exact ⟨decide_eq_true hlen, by rw [encode, henc, hzero rfl]⟩
  | setStrategy =>
    obtain ⟨rfl, rfl⟩ := decodeF0_eq_ok_iff.mp h
    exact ⟨rfl, rfl⟩
  | readM | readK | exportBits =>
    obtain ⟨rfl, rfl⟩ := decodeF0_eq_ok_iff.mp h
    exact ⟨rfl, by rw [encode, hzero rfl]⟩

/-- Settles O2: the header is the one made for the command, and the operands are the packing of what they decode to. -/
theorem packetEncodingIsCanonical : Obligations.PacketEncodingIsCanonical := by
  intro ws i h
  cases ws with
  | nil => cases h
  | cons w0 ws =>
    obtain ⟨hrsv, op, hopc, hsid, hops⟩ := decodePacket_cons_eq_ok_iff.mp h
    obtain ⟨hwf, henc⟩ := encode_of_decodeOperands hsid hops
    exact ⟨hwf, by rw [henc, ← eq_commandHeader hrsv hopc]⟩

/-! ### Table R56 -/

/-- The mask of the commands that use `sid` clears that field and keeps the two others. -/
theorem commandHeader_and_clearSid (op : Opcode) (sid : BitVec 8) :
    commandHeader op sid &&& 0xFFFFFFFFFFFF00FF = commandHeader op 0 := by
  obtain ⟨hopc, -, hrsv⟩ := commandHeader_fields op sid
  obtain ⟨hopc', hsid', hrsv'⟩ := commandHeader_fields op 0
  refine word_eq_of_header (BitVec.extractLsb'_and.trans ?_) (BitVec.extractLsb'_and.trans ?_)
    (BitVec.extractLsb'_and.trans ?_)
  · rw [← headerOpc, ← headerOpc, hopc, hopc']
    exact BitVec.and_allOnes
  · rw [hsid']
    exact BitVec.and_zero
  · rw [← headerRsv, ← headerRsv, hrsv, hrsv']
    exact BitVec.zero_and

/-- The `mask` column keeps the `sid` field where the command does not use it, and leaves it out where it does. -/
theorem commandHeader_and_mask (op op' : Opcode) (sid : BitVec 8) :
    commandHeader op' sid &&& op.mask = commandHeader op' (if op.usesSid then 0 else sid) := by
  have hmask : op.mask = if op.usesSid then 0xFFFFFFFFFFFF00FF else BitVec.allOnes 64 := by cases op <;> rfl
  rw [hmask]
  cases op.usesSid with
  | false => exact BitVec.and_allOnes
  | true => exact commandHeader_and_clearSid op' sid

/-- The `match` column is the header of the command with `sid` 0. -/
theorem matchWord_eq_commandHeader (op : Opcode) : op.matchWord = commandHeader op 0 := by cases op <;> decide

/-- Settles O5: under a row's mask the header is the match word exactly when the row is the one decoded. -/
theorem headerSelectsOneRow : Obligations.HeaderSelectsOneRow := by
  intro w0 ws i h op
  obtain ⟨hrsv, op', hopc, hsid, hops⟩ := decodePacket_cons_eq_ok_iff.mp h
  rw [opcode_of_decodeOperands hops, eq_commandHeader hrsv hopc, commandHeader_and_mask, matchWord_eq_commandHeader,
    commandHeader_inj, Option.some.injEq]
  refine and_iff_left_of_imp fun hop => ?_
  subst hop
  split
  case isTrue => rfl
  case isFalse hno => exact not_not.mp fun hne => hsid ⟨Bool.eq_false_of_not_eq_true hno, hne⟩

/-- Settles O3, by evaluating the decoder on the nine closed messages. -/
theorem specWordsDecode : Obligations.SpecWordsDecode := by
  unfold Obligations.SpecWordsDecode
  decide

end Sys2Proof
end

section
/-! PROOFS. The bit store of spec/41_bitstore.md. The sets of one command as one OR mask a word, from which follow the
laws R86, that the order of the sets does not matter (20_memory.md R36), and that parallel sets and tests are the
sequential ones (70_reset_and_hazards.md R156; 43_filter_ops.md R105); and the operations of the primitive ports. -/

namespace Sys2Proof.Machine

/-! ### The sets of a command, word by word -/

theorem groupMask_cons (j : Nat) (b : Word) (bs : List Word) :
    groupMask j (b :: bs) = (if b.toNat / 64 = j then bitMask b.toNat else 0) ||| groupMask j bs := by
  rw [groupMask]
  split
  · rfl
  · exact BitVec.zero_or.symm

theorem groupMask_append (j : Nat) (bs cs : List Word) :
    groupMask j (bs ++ cs) = groupMask j bs ||| groupMask j cs := by
  induction bs with
  | nil => exact BitVec.zero_or.symm
  | cons b bs ih => rw [List.cons_append, groupMask_cons, groupMask_cons, ih, BitVec.or_assoc]

/-- The OR mask of a word no set falls in is 0. -/
theorem groupMask_eq_zero {j : Nat} {bs : List Word} (h : ∀ b ∈ bs, b.toNat / 64 ≠ j) : groupMask j bs = 0 := by
  induction bs with
  | nil => rfl
  | cons b bs ih =>
    obtain ⟨hb, hbs⟩ := List.forall_mem_cons.mp h
    rw [groupMask, if_neg hb, ih hbs]

/-- The OR mask does not depend on the order of the sets. -/
theorem groupMask_perm (j : Nat) {bs cs : List Word} (h : bs.Perm cs) : groupMask j bs = groupMask j cs := by
  induction h with
  | nil => rfl
  | cons b _ ih => rw [groupMask_cons, groupMask_cons, ih]
  | swap a b bs =>
    rw [groupMask_cons, groupMask_cons, groupMask_cons, groupMask_cons, ← BitVec.or_assoc, ← BitVec.or_assoc,
      BitVec.or_comm (if b.toNat / 64 = j then bitMask b.toNat else 0)]
  | trans _ _ ih1 ih2 => exact ih1.trans ih2

/-- One set as an OR into every word, by 0 but for its own (R81). -/
theorem BitStore.wordRead_bitSet_or {st : BitStore} (h : st.wf = true) (b i : Nat) :
    (st.bitSet b).wordRead i = st.wordRead i ||| (if b / 64 = i then bitMask b else 0) := by
  rw [wordRead_bitSet h]
  by_cases hi : b / 64 = i
  · rw [if_pos hi.symm, if_pos hi, hi]
  · rw [if_neg (Ne.symm hi), if_neg hi]
    exact BitVec.or_zero.symm

/-- The sets of one command OR one mask into each word (R103). -/
theorem BitStore.wordRead_setAll {st : BitStore} (h : st.wf = true) {bs : List Word}
    (hbs : ∀ b ∈ bs, b.toNat < 64 * st.len) (i : Nat) :
    (st.setAll bs).wordRead i = st.wordRead i ||| groupMask i bs := by
  induction bs generalizing st with
  | nil => exact BitVec.or_zero.symm
  | cons b bs ih =>
    obtain ⟨hb, hbs⟩ := List.forall_mem_cons.mp hbs
    rw [setAll, ih (bitSet_wf h hb) hbs, wordRead_bitSet_or h, groupMask_cons, BitVec.or_assoc]

/-- Two sequences of sets with equal OR masks give the same store. -/
theorem BitStore.setAll_congr {st : BitStore} (h : st.wf = true) {bs cs : List Word}
    (hbs : ∀ b ∈ bs, b.toNat < 64 * st.len) (hcs : ∀ b ∈ cs, b.toNat < 64 * st.len)
    (hmask : ∀ i, groupMask i bs = groupMask i cs) : st.setAll bs = st.setAll cs :=
  ext_wordRead (setAll_wf bs h hbs) (setAll_wf cs h hcs) (by rw [setAll_len, setAll_len]) fun i _ => by
    rw [wordRead_setAll h hbs, wordRead_setAll h hcs, hmask]

theorem BitStore.setAll_append (st : BitStore) (bs cs : List Word) :
    st.setAll (bs ++ cs) = (st.setAll bs).setAll cs := by
  induction bs generalizing st with
  | nil => rfl
  | cons b bs ih => exact ih (st.bitSet b.toNat)

/-! ### Bits of words and stores -/

/-- Two bits that are 1 together are equal. -/
theorem BitStore.bitTest_congr {s1 s2 : BitStore} {b c : Nat} (h : s1.bitTest b = 1 ↔ s2.bitTest c = 1) :
    s1.bitTest b = s2.bitTest c := by
  rw [bitTest_eq_one_iff, bitTest_eq_one_iff] at h
  simp only [bitTest_eq, h]

/-- Canonical stores of one length with the same 1 bits are equal. -/
theorem BitStore.ext_bitTest {s1 s2 : BitStore} (h1 : s1.wf = true) (h2 : s2.wf = true) (hl : s1.len = s2.len)
    (hb : ∀ c, s1.bitTest c = 1 ↔ s2.bitTest c = 1) : s1 = s2 := by
  refine ext_wordRead h1 h2 hl fun i _ => BitVec.eq_of_getLsbD_eq fun t ht => ?_
  have hc := hb (64 * i + t)
  rw [bitTest_eq_one_iff, bitTest_eq_one_iff, Nat.mul_add_div (by decide), Nat.mul_add_mod, Nat.div_eq_of_lt ht,
    Nat.mod_eq_of_lt ht, Nat.add_zero] at hc
  exact Bool.eq_iff_iff.mpr hc

@[simp] theorem BitStore.bitTest_alloc (m b : Nat) : (BitStore.alloc m).bitTest b = 0 := by
  rw [bitTest_eq, wordRead_alloc]
  simp

/-- A number below `2^n` is the sum of its bits times their powers of two. -/
theorem mod_two_pow_eq_sum_bits (x n : Nat) :
    x % 2 ^ n = ((List.range n).map fun t => x / 2 ^ t % 2 * 2 ^ t).sum := by
  induction n with
  | zero => exact Nat.mod_one x
  | succ n ih =>
    rw [List.range_succ, List.map_append, List.sum_append, ← ih, Nat.mod_pow_succ, List.map_singleton,
      List.sum_singleton, Nat.mul_comm (2 ^ n)]

/-- Bit `t` of word `j` as a number, at bit address `64 * j + t` (R31). -/
theorem BitStore.toNat_bitTest (st : BitStore) (j : Nat) {t : Nat} (ht : t < 64) :
    (st.bitTest (64 * j + t)).toNat = (st.wordRead j).toNat / 2 ^ t % 2 := by
  rw [bitTest_eq_ofNat, Nat.mul_add_div (by decide), Nat.mul_add_mod, Nat.div_eq_of_lt ht, Nat.mod_eq_of_lt ht,
    Nat.add_zero, BitVec.toNat_ofNat]
  omega

/-! ### Parallel evaluation (R105, R156) -/

/-- The words touched by a group get their whole mask over the store all the reads see; the others are kept. -/
theorem wordRead_setGroupFrom {before : BitStore} {group bs : List Word} {st : BitStore} (h : st.wf = true)
    (hbs : ∀ b ∈ bs, b.toNat < 64 * st.len) (i : Nat) :
    (setGroupFrom before group bs st).wordRead i =
      if ∃ b ∈ bs, b.toNat / 64 = i then before.wordRead i ||| groupMask i group else st.wordRead i := by
  induction bs generalizing st with
  | nil => simp [setGroupFrom]
  | cons b bs ih =>
    obtain ⟨hb, hbs⟩ := List.forall_mem_cons.mp hbs
    rw [setGroupFrom, ih (BitStore.wordWrite_wf h (by omega) _) hbs, BitStore.wordRead_wordWrite h]
    simp only [List.mem_cons, exists_eq_or_imp]
    by_cases hlater : ∃ b ∈ bs, b.toNat / 64 = i
    · rw [if_pos hlater, if_pos (.inr hlater)]
    · by_cases hbi : b.toNat / 64 = i
      · rw [if_neg hlater, if_pos hbi.symm, if_pos (.inl hbi), hbi]
      · rw [if_neg hlater, if_neg (Ne.symm hbi), if_neg (not_or.mpr ⟨hbi, hlater⟩)]

theorem setGroupFrom_wf_len {before : BitStore} {group bs : List Word} {st : BitStore} (h : st.wf = true)
    (hbs : ∀ b ∈ bs, b.toNat < 64 * st.len) :
    (setGroupFrom before group bs st).wf = true ∧ (setGroupFrom before group bs st).len = st.len := by
  induction bs generalizing st with
  | nil => exact ⟨h, rfl⟩
  | cons b bs ih =>
    obtain ⟨hb, hbs⟩ := List.forall_mem_cons.mp hbs
    exact ih (BitStore.wordWrite_wf h (by omega) _) hbs

/-- One parallel step of sets is its sets one by one. -/
theorem setGroup_eq_setAll {st : BitStore} (h : st.wf = true) {group : List Word}
    (hg : ∀ b ∈ group, b.toNat < 64 * st.len) : setGroup st group = st.setAll group := by
  obtain ⟨hwf, hlen⟩ := setGroupFrom_wf_len (before := st) (group := group) h hg
  refine BitStore.ext_wordRead hwf (BitStore.setAll_wf group h hg) (by rw [setGroup, hlen, BitStore.setAll_len])
    fun i _ => ?_
  rw [setGroup, wordRead_setGroupFrom h hg, BitStore.wordRead_setAll h hg]
  split
  case isTrue => rfl
  case isFalse hno =>
    rw [groupMask_eq_zero fun b hb hbi => hno ⟨b, hb, hbi⟩]
    exact BitVec.or_zero.symm

theorem setGroups_eq_setAll {st : BitStore} (h : st.wf = true) {gs : List (List Word)}
    (hgs : ∀ b ∈ gs.flatten, b.toNat < 64 * st.len) : setGroups st gs = st.setAll gs.flatten := by
  induction gs generalizing st with
  | nil => rfl
  | cons g gs ih =>
    rw [List.flatten_cons] at hgs ⊢
    obtain ⟨hg, hgs⟩ := List.forall_mem_append.mp hgs
    rw [setGroups, setGroup_eq_setAll h hg, ih (BitStore.setAll_wf g h hg) (by rwa [BitStore.setAll_len]),
      BitStore.setAll_append]

/-- With enough fuel, cutting into groups of at least one loses nothing and keeps the order. -/
theorem flatten_groupsFuel {par : Nat} (hpar : 1 ≤ par) {fuel : Nat} {idx : List Word} (hfuel : idx.length ≤ fuel) :
    (groupsFuel par fuel idx).flatten = idx := by
  induction fuel generalizing idx with
  | zero => rw [List.length_eq_zero_iff.mp (Nat.le_zero.mp hfuel)]; rfl
  | succ fuel ih =>
    cases idx with
    | nil => rfl
    | cons b bs =>
      rw [groupsFuel, List.flatten_cons, ih, List.take_append_drop]
      rw [List.length_drop]
      omega

theorem flatten_groups {par : Nat} (hpar : 1 ≤ par) (idx : List Word) : (groups par idx).flatten = idx :=
  flatten_groupsFuel hpar (Nat.le_refl _)

/-- Tests beyond the first 0 do not change the answer, since a test has no side effect (R105). -/
theorem accOfGroups_eq_accOf (st : BitStore) (gs : List (List Word)) : accOfGroups st gs = accOf st gs.flatten := by
  induction gs with
  | nil => rfl
  | cons g gs ih =>
    rw [Bool.eq_iff_iff, accOf_eq_true_iff, List.flatten_cons, List.forall_mem_append, ← accOf_eq_true_iff st g,
      ← accOf_eq_true_iff st gs.flatten, ← ih, accOfGroups]
    have hany : (g.any fun b => st.bitTest b.toNat == 0) = true ↔ ¬ accOf st g = true := by
      rw [accOf_eq_true_iff]
      simp only [List.any_eq_true, beq_iff_eq, not_forall, exists_prop, bitTest_eq]
      refine exists_congr fun b => and_congr_right fun _ => ?_
      split <;> simp
    by_cases hg : accOf st g = true
    · rw [if_neg fun h => hany.mp h hg]
      simp [hg]
    · rw [if_pos (hany.mpr hg)]
      simp [hg]

/-! ### The port operations -/

theorem exec_bsWrWord_of_lt {s : State} {j : Word} (hj : j.toNat < s.bits.len) (w : Word) :
    exec (.bsWrWord j w) s = .next ((s.setBits (s.bits.wordWrite j.toNat w)).answer .done) :=
  if_pos (decide_eq_true hj)

theorem exec_bsAlloc_of_contract {s : State} {m : Word} (h64 : m.toNat % 64 = 0) (hle : 64 ≤ m.toNat)
    (hmax : m.toNat ≤ Config.mMax) :
    exec (.bsAlloc m) s = .next ((s.setBits (BitStore.alloc m.toNat)).answer .done) :=
  if_pos ⟨h64, hle, (fitsCapacity_iff _).mpr hmax⟩

theorem exec_bsAlloc_of_not_contract {s : State} {m : Word}
    (h : ¬ (m.toNat % 64 = 0 ∧ 64 ≤ m.toNat ∧ m.toNat ≤ Config.mMax)) :
    exec (.bsAlloc m) s = .fault .allocOutOfContract :=
  if_neg fun ⟨h64, hle, hfits⟩ => h ⟨h64, hle, (fitsCapacity_iff _).mp hfits⟩

end Sys2Proof.Machine

namespace Sys2Proof

open Sys2Proof.Machine

/-! ### The laws of the store (R84, R86) -/

/-- Settles O33: each law by the bits that are 1 after the sets. -/
theorem bitSetLaws : Obligations.BitSetLaws := by
  intro st a b hwf ha hb
  have hwfa : (st.bitSet a).wf = true := BitStore.bitSet_wf hwf ha
  have hwfb : (st.bitSet b).wf = true := BitStore.bitSet_wf hwf hb
  refine ⟨(BitStore.bitTest_bitSet hwf a a).mpr (.inr rfl), fun hne => BitStore.bitTest_congr ?_,
    BitStore.ext_bitTest (BitStore.bitSet_wf hwfa hb) (BitStore.bitSet_wf hwfb ha) rfl fun c => ?_,
    BitStore.ext_bitTest (BitStore.bitSet_wf hwfa ha) hwfa rfl fun c => ?_⟩
  · rw [BitStore.bitTest_bitSet hwf, or_iff_left hne]
  · rw [BitStore.bitTest_bitSet hwfa, BitStore.bitTest_bitSet hwfb, BitStore.bitTest_bitSet hwf,
      BitStore.bitTest_bitSet hwf, or_right_comm]
  · rw [BitStore.bitTest_bitSet hwfa, BitStore.bitTest_bitSet hwf, or_assoc, or_self]

/-- Settles O34: a bit test reads one bit of a word, and a word below `2^64` is the sum of its bits. -/
theorem wordAndBitLaws : Obligations.WordAndBitLaws := by
  intro st j w hwf _
  refine ⟨fun m b _ => BitStore.bitTest_alloc m b, fun t ht => ?_, ?_⟩
  · rw [bitTest_eq, Nat.mul_add_div (by decide), Nat.mul_add_mod, Nat.div_eq_of_lt ht, Nat.mod_eq_of_lt ht,
      Nat.add_zero, BitStore.wordRead_wordWrite hwf, if_pos rfl]
  · calc (st.wordRead j).toNat
      _ = (st.wordRead j).toNat % 2 ^ 64 := (Nat.mod_eq_of_lt (st.wordRead j).isLt).symm
      _ = _ := mod_two_pow_eq_sum_bits _ 64
      _ = _ := congrArg List.sum (List.map_congr_left fun t ht => by
        rw [BitStore.toNat_bitTest st j (List.mem_range.mp ht)])

/-- Settles O35: word `j` of the store is element `j` of the sequence. -/
theorem importThenExport : Obligations.ImportThenExport := by
  intro ws
  refine ⟨BitStore.importWords_len ws, List.ext_getElem (by simp) fun j hj hj' => ?_⟩
  rw [BitStore.length_exportWords] at hj
  refine Option.some.inj ?_
  rw [← List.getElem?_eq_getElem, BitStore.getElem?_exportWords _ hj, BitStore.wordRead_importWords,
    List.getD_eq_getElem _ _ hj']

/-- Settles O49: permuted sets have the same OR mask in every word. -/
theorem setOrderIrrelevant : Obligations.SetOrderIrrelevant := fun _ _ _ hwf hidx hperm =>
  BitStore.setAll_congr hwf hidx (fun b hb => hidx b (hperm.mem_iff.mpr hb)) fun i => groupMask_perm i hperm

/-- Settles O50: each group of sets is its sets one by one, and the groups in order are the whole sequence. -/
theorem parallelPutEqualsSequential : Obligations.ParallelPutEqualsSequential := by
  intro par st idx hpar hwf hidx
  have hflat := flatten_groups hpar idx
  rw [parallelPut, setGroups_eq_setAll hwf (by rwa [hflat]), hflat]

/-- Settles O51: the answer over groups is the conjunction over the whole sequence. -/
theorem parallelQueryEqualsSequential : Obligations.ParallelQueryEqualsSequential := by
  intro par st idx hpar
  rw [parallelQuery, accOfGroups_eq_accOf, flatten_groups hpar]

/-! ### The primitive ports -/

/-- Settles O36: inside its contract BS_ALLOC replaces the store by the empty cells of the new length. -/
theorem bsAllocClearsStore : Obligations.BsAllocClearsStore := fun _ m _ h64 hle hmax =>
  ⟨rfl, _, exec_bsAlloc_of_contract h64 hle hmax, rfl, fun j _ => BitStore.wordRead_alloc m.toNat j, rfl⟩

/-- Settles O40: a word written reads back, and every other word reads as before. -/
theorem bsWrWordReplacesWord : Obligations.BsWrWordReplacesWord := by
  intro s j w hwf hj
  have hread := BitStore.wordRead_wordWrite hwf j.toNat w
  exact ⟨rfl, _, exec_bsWrWord_of_lt hj w, rfl, (hread _).trans (if_pos rfl),
    fun i hi => (hread i).trans (if_neg hi), rfl⟩

/-- Settles O41: the HASH port has one operation, which answers the pair. -/
theorem hash128AnswersPair : Obligations.Hash128AnswersPair := fun _ _ => ⟨rfl, rfl⟩

/-- Settles O42: each operation checks its address, or its length, before it acts. -/
theorem outOfContractPortOpsFault : Obligations.OutOfContractPortOpsFault := by
  intro s a w
  refine ⟨exec_bsAlloc_of_not_contract, fun h => ?_, fun h => ?_⟩
  · have hbit : ¬ s.bits.hasBit a.toNat = true := fun hin => absurd (of_decide_eq_true hin) (Nat.not_lt.mpr h)
    exact ⟨if_neg hbit, if_neg hbit⟩
  · have hword : ¬ s.bits.hasWord a.toNat = true := fun hin => absurd (of_decide_eq_true hin) (Nat.not_lt.mpr h)
    exact ⟨if_neg hword, if_neg hword⟩

end Sys2Proof
end

section
/-! PROOFS. The closed form of the reference index and the law of smaller counts (spec/42_index_generation.md section 3,
R96). -/

namespace Sys2Proof.Machine

/-- The running value in closed form: `h1 + i * h2` modulo 2^64 (R94). -/
theorem referenceAfter_c_toNat (data : List Byte) (i : Nat) :
    (referenceAfter data i).c.toNat = ((Config.h128 data).1.toNat + i * (Config.h128 data).2.toNat) % 2 ^ 64 := by
  induction i with
  | zero => rw [referenceAfter_zero_c, Nat.zero_mul, Nat.add_zero, Nat.mod_eq_of_lt (BitVec.isLt _)]
  | succ i ih => rw [referenceAfter_succ_c_toNat, ih, Nat.mod_add_mod, Nat.succ_mul, Nat.add_assoc]

/-- Clearing bit 63 is the remainder modulo 2^63 (R93). -/
theorem and_mask63_toNat (c : Word) : (c &&& mask63).toNat = c.toNat % 2 ^ 63 := by
  rw [BitVec.toNat_and]
  exact Nat.and_two_pow_sub_one_eq_mod c.toNat 63

/-- The index at a position does not depend on the count (R92). -/
theorem referenceIndexes_take (data : List Byte) (m : Word) {k k' : Word} (h : k'.toNat ≤ k.toNat) :
    (referenceIndexes data m k).take k'.toNat = referenceIndexes data m k' := by
  refine List.ext_getElem? fun i => ?_
  rcases Nat.lt_or_ge i k'.toNat with hi | hi
  · rw [List.getElem?_take_of_lt hi, referenceIndexes_getElem? data m k (hi.trans_le h),
      referenceIndexes_getElem? data m k' hi]
  · rw [List.getElem?_eq_none ((List.length_take_le ..).trans hi),
      List.getElem?_eq_none ((length_referenceIndexes data m k').le.trans hi)]

end Sys2Proof.Machine

namespace Sys2Proof

open Sys2Proof.Machine

/-- Settles O30: the running value before iteration `i`, modulo 2^63, modulo `m`. -/
theorem referenceIndexClosedForm : Obligations.ReferenceIndexClosedForm := by
  intro data m k i hi
  refine ⟨_, _, indexes_zero data m k, referenceIndexes_getElem? data m k hi, ?_⟩
  rw [Work.index_toNat, and_mask63_toNat, referenceAfter_c_toNat, Nat.mod_mod_of_dvd _ (Nat.pow_dvd_pow 2 (by decide))]

/-- Settles O32: the generator makes the same index at a position, whatever the count. -/
theorem smallerCountGivesPrefix : Obligations.SmallerCountGivesPrefix := by
  intro data m k k' hle
  exact ⟨_, indexes_zero data m k, by rw [referenceIndexes_take data m hle, indexes_zero]⟩

end Sys2Proof
end

section
/-! PROOFS. The commands that use a filter (spec/43_filter_ops.md sections 2 and 3; spec/44_serialize.md R120): what
PUT, QUERY, READ_M, READ_K and EXPORT do on a filter and without one, and what they leave alone. -/

namespace Sys2Proof.Machine

variable {s t : State} {data : List Byte}

/-! ### A filter, whatever is pending at the ports -/

/-- `s` holds a filter that meets the invariant, requests at the primitive ports set aside: no command reads them. -/
structure HoldsFilter (s : State) : Prop where
  cfg : s.cfg = true
  inv : EngineInv (s.setRequests [])

theorem HoldsFilter.of_inv (hi : EngineInv s) (hc : s.cfg = true) : HoldsFilter s :=
  ⟨hc, hi.store_wf, rfl, hi.unconfigured, hi.configured⟩

/-- On a filter QUERY runs on the `K` indices of the selected strategy (R104). -/
theorem HoldsFilter.execQuery (hf : HoldsFilter s) (data : List Byte) :
    ∃ idx, indexes s.sid data s.m s.k = some idx ∧ idx.length = s.k.toNat ∧ (∀ b ∈ idx, b.toNat < s.m.toNat) ∧
      execQuery data s =
        .next ((s.setWork { workAfter s.sid data s.m s.k s.work with acc := accOf s.bits idx }).respondOk .query
          [accWord (accOf s.bits idx)]) := by
  obtain ⟨idx, hidx, hlen, hlt, -, -, hrun⟩ := withIndexes_of_inv hf.inv hf.cfg data
  exact ⟨idx, hidx, hlen, hlt, (whenConfigured_of hf.cfg _).trans (hrun _)⟩

/-! ### What the readers can answer -/

/-- QUERY writes working registers and delivers one response (R104). -/
theorem execQuery_delivers (h : execQuery data s = .next t) : ∃ w r, t = (s.setWork w).deliver r := by
  obtain ⟨-, rfl⟩ | ⟨-, hrun⟩ := whenConfigured_cases h
  · exact ⟨s.work, _, rfl⟩
  · obtain ⟨idx, -, -, hnext⟩ := withIndexes_cases hrun
    cases hnext
    exact ⟨_, _, rfl⟩

/-- A command that needs a filter delivers one response and writes nothing if its own run does. -/
theorem delivers_of_whenConfigured {op : Opcode} {run : Host.Outcome State Fault Refusal}
    (h : whenConfigured op s run = .next t) (hrun : run = .next t → ∃ r, t = s.deliver r) : ∃ r, t = s.deliver r := by
  obtain ⟨-, rfl⟩ | ⟨-, hnext⟩ := whenConfigured_cases h
  · exact ⟨_, rfl⟩
  · exact hrun hnext

/-- READ_M, READ_K and EXPORT deliver one response and write nothing (R106, R107, R120). -/
theorem exec_delivers {i : Instr} (hi : i = .readM ∨ i = .readK ∨ i = .exportBits) (h : exec i s = .next t) :
    ∃ r, t = s.deliver r := by
  obtain rfl | rfl | rfl := hi
  · exact delivers_of_whenConfigured h fun hrun => by cases hrun; exact ⟨_, rfl⟩
  · exact delivers_of_whenConfigured h fun hrun => by cases hrun; exact ⟨_, rfl⟩
  · refine delivers_of_whenConfigured h fun hrun => ?_
    split at hrun <;> cases hrun
    exact ⟨_, rfl⟩

/-! ### `ACC` (R12) -/

/-- The generator's loop does not write `ACC`. -/
theorem generate_acc (m : Word) (n : Nat) (w : Work) : (generate m n w).2.acc = w.acc := by
  induction n generalizing w with
  | zero => rfl
  | succ n ih => exact ih w.advance

/-- Making the indices does not write `ACC`. -/
theorem workAfter_acc (sid : BitVec 8) (data : List Byte) (m k : Word) (w : Work) :
    (workAfter sid data m k w).acc = w.acc := by
  rw [workAfter]
  split
  · exact generate_acc m k.toNat _
  · rfl

end Sys2Proof.Machine

namespace Sys2Proof

open Sys2Proof.Machine

/-- Settles O19: the sets of a PUT make exactly the indexed bits 1. -/
theorem putSetsIndexedBits : Obligations.PutSetsIndexedBits := by
  refine fun s data => ⟨fun hc => whenConfigured_of_not hc _, fun hi hc => ?_⟩
  obtain ⟨idx, hidx, hlen, hlt, hbit, -, hrun⟩ := withIndexes_of_inv hi hc data
  refine ⟨idx, _, hidx, hlen, hlt, (whenConfigured_of hc _).trans (hrun _), fun b _ => ?_,
    BitStore.setAll_len idx s.bits, rfl, rfl, rfl, rfl, rfl, rfl, rfl, rfl⟩
  exact BitStore.bitTest_setAll hi.store_wf hbit b

/-- Settles O20: `ACC` is the conjunction of the tests of the `K` indices. -/
theorem queryAnswersConjunction : Obligations.QueryAnswersConjunction := by
  refine fun s data => ⟨fun hc => whenConfigured_of_not hc _, fun hi hc => ?_⟩
  obtain ⟨idx, hidx, hlen, -, hnext⟩ := (HoldsFilter.of_inv hi hc).execQuery data
  exact ⟨idx, accOf s.bits idx, _, hidx, hlen, accOf_eq_true_iff s.bits idx, hnext, rfl, rfl,
    ⟨rfl, rfl, rfl, rfl, rfl⟩, rfl, rfl, rfl⟩

/-- Settles O26: the configured check decides which of the two responses READ_M gives. -/
theorem readMAnswersM : Obligations.ReadMAnswersM := fun _ =>
  ⟨fun hc => whenConfigured_of_not hc _, fun hc => whenConfigured_of hc _⟩

/-- Settles O27: the configured check decides which of the two responses READ_K gives. -/
theorem readKAnswersK : Obligations.ReadKAnswersK := fun _ =>
  ⟨fun hc => whenConfigured_of_not hc _, fun hc => whenConfigured_of hc _⟩

/-- Settles O28: on a filter the store has the `M div 64` words that EXPORT lists. -/
theorem exportAnswersStore : Obligations.ExportAnswersStore := fun s =>
  ⟨fun hc => whenConfigured_of_not hc _, fun hi hc =>
    ⟨_, execExport_of_inv hi hc, s.bits.length_exportWords _, fun _ hj => s.bits.getElem?_exportWords hj⟩⟩

/-- Settles O43: the four readers deliver a response, and QUERY alone writes beside it, the working registers. -/
theorem readersFrame : Obligations.ReadersFrame := by
  rintro i s t (⟨data, rfl⟩ | hread) h
  · obtain ⟨w, r, rfl⟩ := execQuery_delivers h
    exact ⟨⟨rfl, rfl, rfl, rfl, rfl⟩, ⟨rfl, rfl, rfl⟩, fun _ => rfl, ⟨r, rfl⟩, nofun⟩
  · obtain ⟨r, rfl⟩ := exec_delivers hread h
    exact ⟨⟨rfl, rfl, rfl, rfl, rfl⟩, ⟨rfl, rfl, rfl⟩, fun _ => rfl, ⟨r, rfl⟩, fun _ => rfl⟩

/-- Settles O44: a word in which no indexed bit lies is ORed with 0. -/
theorem putFrame : Obligations.PutFrame := by
  intro s t data hwf h
  obtain ⟨-, rfl⟩ | ⟨-, idx, hidx, hbit, rfl⟩ := execPut_cases h
  · exact ⟨rfl, rfl, rfl, rfl, rfl, ⟨rfl, rfl, rfl⟩, rfl, ⟨_, rfl⟩, fun _ _ => rfl⟩
  · refine ⟨rfl, rfl, rfl, rfl, BitStore.setAll_len idx s.bits, ⟨rfl, rfl, rfl⟩, workAfter_acc .., ⟨_, rfl⟩,
      fun j hj => ?_⟩
    rw [indexList, hidx, Option.getD_some] at hj
    rw [State.respondOk_bits, State.setWork_bits, State.setBits_bits, BitStore.wordRead_setAll hwf hbit,
      groupMask_eq_zero hj]
    exact BitVec.or_zero

end Sys2Proof
end

section
/-! PROOFS. CONFIG, RECONSTRUCT and SET_STRATEGY (spec/43_filter_ops.md section 1): each answer as an equation, the
filter a creator makes, what they leave alone, and what QUERY answers on the empty filter, on the saturated one, and on
one made again with a smaller count (spec/70_reset_and_hazards.md R157). -/

namespace Sys2Proof.Machine

variable {s t u : State} {sid : BitVec 8} {mRaw k : Word} {words : List Word} {data : List Byte}

/-! ### The answers of the creators, in the order of R133 -/

theorem execConfig_of_invalid (hbad : InvalidParam (.config sid mRaw k)) :
    execConfig sid mRaw k s = raise .config .invalidParam s := if_pos hbad

theorem execConfig_of_over (hgood : ¬ InvalidParam (.config sid mRaw k)) (hover : OverCapacity (.config sid mRaw k)) :
    execConfig sid mRaw k s = raise .config .capacity s :=
  (if_neg hgood).trans (if_neg fun hfits => absurd ((fitsCapacity_iff _).mp hfits) (Nat.not_le.mpr hover))

theorem execConfig_of_fits (hgood : ¬ InvalidParam (.config sid mRaw k)) (hfits : configCapacity mRaw ≤ Config.mMax) :
    execConfig sid mRaw k s = .next ((s.install (BitStore.alloc (configCapacity mRaw))
      (BitVec.ofNat 64 (configCapacity mRaw)) k sid).respondOk .config []) :=
  (if_neg hgood).trans (if_pos ((fitsCapacity_iff _).mpr hfits))

theorem execReconstruct_of_invalid (hbad : InvalidParam (.reconstruct sid k words)) :
    execReconstruct sid k words s = raise .reconstruct .invalidParam s := if_pos hbad

theorem execReconstruct_of_over (hgood : ¬ InvalidParam (.reconstruct sid k words))
    (hover : OverCapacity (.reconstruct sid k words)) :
    execReconstruct sid k words s = raise .reconstruct .capacity s :=
  (if_neg hgood).trans (if_neg fun hfits => absurd ((fitsCapacity_iff _).mp hfits) (Nat.not_le.mpr hover))

theorem execReconstruct_of_fits (hgood : ¬ InvalidParam (.reconstruct sid k words))
    (hfits : wordsCapacity words ≤ Config.mMax) :
    execReconstruct sid k words s = .next ((s.install (BitStore.importWords words)
      (BitVec.ofNat 64 (wordsCapacity words)) k sid).respondOk .reconstruct []) :=
  (if_neg hgood).trans (if_pos ((fitsCapacity_iff _).mpr hfits))

/-- What CONFIG can answer: an error and no change, or a new filter. -/
theorem execConfig_cases (h : execConfig sid mRaw k s = .next t) :
    (∃ st, st ≠ .ok ∧ (InvalidParam (.config sid mRaw k) ∨ OverCapacity (.config sid mRaw k)) ∧
      t = s.respondError Opcode.config.code st) ∨
    (¬ InvalidParam (.config sid mRaw k) ∧ configCapacity mRaw ≤ Config.mMax ∧
      t = (s.install (BitStore.alloc (configCapacity mRaw)) (BitVec.ofNat 64 (configCapacity mRaw)) k sid).respondOk
        .config []) := by
  by_cases hbad : InvalidParam (.config sid mRaw k)
  · cases (execConfig_of_invalid hbad).symm.trans h
    exact .inl ⟨_, by decide, .inl hbad, rfl⟩
  · rcases Nat.lt_or_ge Config.mMax (configCapacity mRaw) with hover | hfits
    · cases (execConfig_of_over hbad hover).symm.trans h
      exact .inl ⟨_, by decide, .inr hover, rfl⟩
    · cases (execConfig_of_fits hbad hfits).symm.trans h
      exact .inr ⟨hbad, hfits, rfl⟩

/-- What RECONSTRUCT can answer: an error and no change, or a new filter. -/
theorem execReconstruct_cases (h : execReconstruct sid k words s = .next t) :
    (∃ st, st ≠ .ok ∧ (InvalidParam (.reconstruct sid k words) ∨ OverCapacity (.reconstruct sid k words)) ∧
      t = s.respondError Opcode.reconstruct.code st) ∨
    (¬ InvalidParam (.reconstruct sid k words) ∧ wordsCapacity words ≤ Config.mMax ∧
      t = (s.install (BitStore.importWords words) (BitVec.ofNat 64 (wordsCapacity words)) k sid).respondOk
        .reconstruct []) := by
  by_cases hbad : InvalidParam (.reconstruct sid k words)
  · cases (execReconstruct_of_invalid hbad).symm.trans h
    exact .inl ⟨_, by decide, .inl hbad, rfl⟩
  · rcases Nat.lt_or_ge Config.mMax (wordsCapacity words) with hover | hfits
    · cases (execReconstruct_of_over hbad hover).symm.trans h
      exact .inl ⟨_, by decide, .inr hover, rfl⟩
    · cases (execReconstruct_of_fits hbad hfits).symm.trans h
      exact .inr ⟨hbad, hfits, rfl⟩

/-- What SET_STRATEGY can answer: an error and no change, or `SID` written (R102). -/
theorem execSetStrategy_cases (h : execSetStrategy sid s = .next t) :
    (∃ st, st ≠ .ok ∧ t = s.respondError Opcode.setStrategy.code st) ∨
    (s.cfg = true ∧ implemented sid = true ∧ t = (s.setSid sid).respondOk .setStrategy []) := by
  obtain ⟨-, rfl⟩ | ⟨hc, hrun⟩ := whenConfigured_cases h
  · exact .inl ⟨_, by decide, rfl⟩
  · split at hrun
    case isTrue himp =>
      cases hrun
      exact .inr ⟨hc, himp, rfl⟩
    case isFalse =>
      cases hrun
      exact .inl ⟨_, by decide, rfl⟩

/-! ### The filter a creator makes -/

theorem one_le_toNat_of_ne_zero {w : Word} (h : w ≠ 0) : 1 ≤ w.toNat :=
  Nat.one_le_iff_ne_zero.mpr fun h0 => h (BitVec.eq_of_toNat_eq h0)

theorem ofNat_ne_zero {n : Nat} (hn : (BitVec.ofNat 64 n).toNat = n) (h1 : 1 ≤ n) : BitVec.ofNat 64 n ≠ 0 := by
  intro h0
  rw [h0] at hn
  change 0 = n at hn
  omega

/-- Whether a state holds a filter depends on its architectural state alone. -/
theorem HoldsFilter.congr (hf : HoldsFilter s) (h : SameFilter s t) : HoldsFilter t := by
  obtain ⟨hcfg, hm, hk, hsid, hbits⟩ := h
  refine ⟨hcfg.trans hf.cfg, (congrArg BitStore.wf hbits).trans hf.inv.store_wf, rfl, ?_, ?_⟩
  · rw [State.setRequests_cfg, hcfg, hf.cfg]
    exact nofun
  · have hinv := hf.inv.configured
    simp only [State.setRequests_cfg, State.setRequests_m, State.setRequests_k, State.setRequests_sid,
      State.setRequests_bits] at hinv ⊢
    rwa [hcfg, hm, hk, hsid, hbits]

/-- What R23 asks of a filter, of the values a creator writes. -/
theorem HoldsFilter.of_install {st : BitStore} {m : Nat} (hwf : st.wf = true) (h64 : m % 64 = 0) (hle : 64 ≤ m)
    (hmax : m ≤ Config.mMax) (hk : k ≠ 0) (himp : implemented sid = true) (hlen : st.len = m / 64) :
    HoldsFilter (s.install st (BitVec.ofNat 64 m) k sid) := by
  refine ⟨rfl, hwf, rfl, nofun, fun _ => ?_⟩
  rw [State.setRequests_m, State.install_m, toNat_ofNat_of_fits hmax]
  exact ⟨h64, hle, hmax, one_le_toNat_of_ne_zero hk, himp, hlen⟩

theorem sameFilter_respondOk (s : State) (op : Opcode) (payload : List Word) : SameFilter s (s.respondOk op payload) :=
  ⟨rfl, rfl, rfl, rfl, rfl⟩

/-- The operands of CONFIG that R134 accepts. -/
theorem not_invalidParam_config_iff :
    ¬ InvalidParam (.config sid mRaw k) ↔ mRaw ≠ 0 ∧ k ≠ 0 ∧ implemented sid = true := by
  rw [InvalidParam, not_or, not_or, Bool.not_eq_false]

/-- The operands of RECONSTRUCT that R134 accepts. -/
theorem not_invalidParam_reconstruct_iff :
    ¬ InvalidParam (.reconstruct sid k words) ↔ words.length ≠ 0 ∧ k ≠ 0 ∧ implemented sid = true := by
  rw [InvalidParam, not_or, not_or, Bool.not_eq_false]

/-- An accepted CONFIG makes a filter (R100). -/
theorem HoldsFilter.of_config (hgood : ¬ InvalidParam (.config sid mRaw k))
    (hfits : configCapacity mRaw ≤ Config.mMax) :
    HoldsFilter ((s.install (BitStore.alloc (configCapacity mRaw)) (BitVec.ofNat 64 (configCapacity mRaw)) k
      sid).respondOk .config []) := by
  obtain ⟨hm, hk, himp⟩ := not_invalidParam_config_iff.mp hgood
  obtain ⟨h64, hle, -⟩ := pad64_spec mRaw.toNat
  have hpos := one_le_toNat_of_ne_zero hm
  have hle64 : 64 ≤ pad64 mRaw.toNat := by omega
  exact (of_install (BitStore.alloc_wf _) h64 hle64 hfits hk himp rfl).congr (sameFilter_respondOk _ _ _)

/-- An accepted RECONSTRUCT makes a filter (R101). -/
theorem HoldsFilter.of_reconstruct (hgood : ¬ InvalidParam (.reconstruct sid k words))
    (hfits : wordsCapacity words ≤ Config.mMax) :
    HoldsFilter ((s.install (BitStore.importWords words) (BitVec.ofNat 64 (wordsCapacity words)) k sid).respondOk
      .reconstruct []) := by
  obtain ⟨hlen, hk, himp⟩ := not_invalidParam_reconstruct_iff.mp hgood
  refine (of_install (BitStore.importWords_wf words) ?_ ?_ hfits hk himp ?_).congr (sameFilter_respondOk _ _ _)
  · exact Nat.mul_mod_right 64 _
  · rw [wordsCapacity]
    omega
  · rw [BitStore.importWords_len, wordsCapacity, Nat.mul_div_cancel_left _ (by decide)]

/-- `importWords` undoes `exportWords` on a canonical store (R84). -/
theorem BitStore.importWords_exportWords {st : BitStore} (h : st.wf = true) :
    BitStore.importWords (st.exportWords st.len) = st := by
  refine ext_wordRead (importWords_wf _) h (by simp) fun i hi => ?_
  rw [importWords_len, length_exportWords] at hi
  rw [wordRead_importWords, List.getD_eq_getElem?_getD, getElem?_exportWords st hi, Option.getD_some]

/-- RECONSTRUCT of a filter's own words makes its store and capacity again, in any engine (R101). -/
theorem execReconstruct_exportWords (hi : EngineInv s) (hc : s.cfg = true) (hk : k ≠ 0)
    (himp : implemented sid = true) (u : State) :
    execReconstruct sid k (s.bits.exportWords (s.m.toNat / 64)) u =
      .next ((u.install s.bits s.m k sid).respondOk .reconstruct []) := by
  obtain ⟨h64, hle, hmax, -, -, hlen⟩ := hi.configured hc
  have hcap : wordsCapacity (s.bits.exportWords (s.m.toNat / 64)) = s.m.toNat := by
    rw [wordsCapacity, BitStore.length_exportWords]
    omega
  have hgood : ¬ InvalidParam (.reconstruct sid k (s.bits.exportWords (s.m.toNat / 64))) :=
    not_invalidParam_reconstruct_iff.mpr ⟨by rw [BitStore.length_exportWords]; omega, hk, himp⟩
  rw [execReconstruct_of_fits hgood (hcap.le.trans hmax), hcap, BitVec.ofNat_toNat, BitVec.setWidth_eq, ← hlen,
    BitStore.importWords_exportWords hi.store_wf]

/-! ### What a creator leaves alone -/

/-- The frame of a creator's answer: the working registers and the ports; the filter on an error; all of it but `SID`
for SET_STRATEGY. -/
def CreatorFrame (i : Instr) (s t : State) : Prop :=
  ∃ r0, t.outbox = s.outbox ++ [[r0]] ∧ SamePorts s t ∧ t.work = s.work ∧ (statusOf r0 ≠ 0 → SameFilter s t) ∧
    ((∃ sid, i = .setStrategy sid) → t.cfg = s.cfg ∧ t.m = s.m ∧ t.k = s.k ∧ t.bits = s.bits)

theorem CreatorFrame.of_error {i : Instr} {echo : BitVec 8} {st : Status} : CreatorFrame i s (s.respondError echo st) :=
  ⟨_, rfl, ⟨rfl, rfl, rfl⟩, rfl, fun _ => ⟨rfl, rfl, rfl, rfl, rfl⟩, fun _ => ⟨rfl, rfl, rfl, rfl⟩⟩

theorem CreatorFrame.of_ok {i : Instr} {op : Opcode} (u : State) (hout : u.outbox = s.outbox) (hports : SamePorts s u)
    (hwork : u.work = s.work)
    (hset : (∃ sid, i = .setStrategy sid) → u.cfg = s.cfg ∧ u.m = s.m ∧ u.k = s.k ∧ u.bits = s.bits) :
    CreatorFrame i s (u.respondOk op []) :=
  ⟨_, by rw [State.respondOk_outbox, hout], hports, hwork, fun hne => absurd (statusOf_responseHeader op.code .ok) hne,
    hset⟩

/-! ### QUERY on a filter just made -/

/-- QUERY answers 1 on a filter where the data is found, whatever is pending at the ports. -/
theorem HoldsFilter.execQuery_of_found (hf : HoldsFilter s) (hfound : Found data s) :
    ∃ t, Machine.execQuery data s = .next t ∧ t.outbox = s.outbox ++ [[0x5, 1]] := by
  obtain ⟨idx, hidx, hset⟩ := hfound
  obtain ⟨idx', hidx', -, -, hnext⟩ := hf.execQuery data
  cases hidx.symm.trans hidx'
  rw [(accOf_eq_true_iff s.bits idx).mpr hset] at hnext
  exact ⟨_, hnext, rfl⟩

/-- The first test on an empty store answers 0. -/
theorem accOf_alloc (m : Nat) {idx : List Word} (h : 1 ≤ idx.length) : accOf (BitStore.alloc m) idx = false := by
  cases idx with
  | nil => cases h
  | cons b bs => exact if_pos (BitStore.bitTest_alloc m b.toNat)

/-- Every bit of all-ones words is 1. -/
theorem BitStore.bitTest_importWords_ones {n b : Nat} (h : b < 64 * n) :
    (BitStore.importWords (List.replicate n 0xFFFFFFFFFFFFFFFF)).bitTest b = 1 := by
  have hbit : b % 64 < 64 := Nat.mod_lt b (by decide)
  have hones : (0xFFFFFFFFFFFFFFFF : Word) = BitVec.allOnes 64 := by decide
  rw [bitTest_eq_one_iff, wordRead_importWords, List.getD_replicate _ (by omega), hones, BitVec.getLsbD_allOnes]
  exact decide_eq_true hbit

/-- Zero words make the empty store (R101, corner cases). -/
theorem BitStore.importWords_zeros (n : Nat) : BitStore.importWords (List.replicate n 0) = BitStore.alloc (64 * n) := by
  refine ext_wordRead (importWords_wf _) (alloc_wf _) (by simp) fun i hi => ?_
  rw [importWords_len, List.length_replicate] at hi
  rw [wordRead_importWords, List.getD_replicate _ hi, wordRead_alloc]

end Sys2Proof.Machine

namespace Sys2Proof

open Sys2Proof.Machine

/-- Settles O15: the three answers of CONFIG, and `pad64` as the least multiple of 64 not below `m_raw`. -/
theorem configCreatesEmptyFilter : Obligations.ConfigCreatesEmptyFilter := by
  intro s sid mRaw k
  refine ⟨execConfig_of_invalid, execConfig_of_over, fun hgood hfits => ?_⟩
  obtain ⟨h64, hle, hlt⟩ := pad64_spec mRaw.toNat
  refine ⟨_, execConfig_of_fits hgood hfits, rfl, rfl, rfl, ?_⟩
  simp only [State.respondOk_m, State.install_m, State.respondOk_bits, State.install_bits,
    toNat_ofNat_of_fits (m := configCapacity mRaw) hfits]
  exact ⟨h64, hle, hlt, rfl, fun b _ => BitStore.bitTest_alloc _ b, rfl, ⟨rfl, rfl, rfl⟩, rfl⟩

/-- Settles O16: the three answers of RECONSTRUCT, and the words read back from the store. -/
theorem reconstructLoadsWords : Obligations.ReconstructLoadsWords := by
  intro s sid k words
  refine ⟨execReconstruct_of_invalid, execReconstruct_of_over, fun hgood hfits => ?_⟩
  refine ⟨_, execReconstruct_of_fits hgood hfits, rfl, rfl, rfl, toNat_ofNat_of_fits hfits,
    BitStore.importWords_len words, fun j hj => ?_, rfl, ⟨rfl, rfl, rfl⟩, rfl⟩
  rw [State.respondOk_bits, State.install_bits, BitStore.wordRead_importWords, List.getD_eq_getElem _ _ hj,
    List.getElem?_eq_getElem hj]

/-- Settles O17: the configured check comes first, then the check of the strategy. -/
theorem setStrategyWritesSid : Obligations.SetStrategyWritesSid := by
  refine fun s sid => ⟨fun hc => whenConfigured_of_not hc _, fun hc habs => ?_, fun hc himp => ?_⟩
  · exact (whenConfigured_of hc _).trans (if_neg (by rw [habs]; decide))
  · exact (whenConfigured_of hc _).trans (if_pos himp)

/-- Settles O18: both commands install the empty store of `n` words. -/
theorem zeroWordsEqualConfig : Obligations.ZeroWordsEqualConfig := by
  intro s sid k n hn hk himp hfits
  have hn64 : (BitVec.ofNat 64 (64 * n)).toNat = 64 * n := toNat_ofNat_of_fits hfits
  have hwords : wordsCapacity (List.replicate n 0) = 64 * n := by rw [wordsCapacity, List.length_replicate]
  have hconf : configCapacity (BitVec.ofNat 64 (64 * n)) = 64 * n := by
    rw [configCapacity, hn64, pad64]
    omega
  have hgoodR : ¬ InvalidParam (.reconstruct sid k (List.replicate n 0)) :=
    not_invalidParam_reconstruct_iff.mpr ⟨by rw [List.length_replicate]; omega, hk, himp⟩
  have hgoodC : ¬ InvalidParam (.config sid (BitVec.ofNat 64 (64 * n)) k) :=
    not_invalidParam_config_iff.mpr ⟨ofNat_ne_zero hn64 (by omega), hk, himp⟩
  refine ⟨_, _, execReconstruct_of_fits hgoodR (hwords.le.trans hfits),
    execConfig_of_fits hgoodC (hconf.le.trans hfits), rfl, rfl, rfl, ?_, fun b _ => ?_, rfl, ?_, rfl, rfl, ?_⟩
  · rw [State.respondOk_m, State.install_m, hwords, hn64]
  · rw [State.respondOk_bits, State.install_bits, BitStore.importWords_zeros, BitStore.bitTest_alloc]
  · rw [State.respondOk_m, State.respondOk_m, State.install_m, State.install_m, hwords, hconf]
  · rw [State.respondOk_bits, State.respondOk_bits, State.install_bits, State.install_bits,
      BitStore.importWords_zeros, hconf]

/-- Settles O45: an error response changes nothing else; an accepted creator writes the filter, SET_STRATEGY `SID`
alone. -/
theorem creatorsFrame : Obligations.CreatorsFrame := by
  intro i s t hi h
  change CreatorFrame i s t
  obtain ⟨sid, mRaw, k, rfl⟩ | ⟨sid, k, words, rfl⟩ | ⟨sid, rfl⟩ := hi
  · obtain ⟨st, -, -, rfl⟩ | ⟨-, -, rfl⟩ := execConfig_cases h
    · exact .of_error
    · exact .of_ok (s.install _ _ k sid) rfl ⟨rfl, rfl, rfl⟩ rfl nofun
  · obtain ⟨st, -, -, rfl⟩ | ⟨-, -, rfl⟩ := execReconstruct_cases h
    · exact .of_error
    · exact .of_ok (s.install _ _ k sid) rfl ⟨rfl, rfl, rfl⟩ rfl nofun
  · obtain ⟨st, -, rfl⟩ | ⟨-, -, rfl⟩ := execSetStrategy_cases h
    · exact .of_error
    · exact .of_ok (s.setSid sid) rfl ⟨rfl, rfl, rfl⟩ rfl fun _ => ⟨rfl, rfl, rfl, rfl⟩

/-! ### QUERY after a creator -/

/-- Settles O22: an OK answer means the filter is the empty one, where the first test answers 0. -/
theorem emptyFilterAnswersZero : Obligations.EmptyFilterAnswersZero := by
  intro s t sid mRaw k data h hout
  obtain ⟨st, hst, -, rfl⟩ | ⟨hgood, hfits, rfl⟩ := execConfig_cases h
  · have hresp : [responseHeader Opcode.config.code st] = [0x1] := List.singleton_inj.mp (List.append_cancel_left hout)
    have hstatus := statusOf_responseHeader Opcode.config.code st
    rw [List.singleton_inj.mp hresp] at hstatus
    exact absurd ((Status.code_eq_zero_iff st).mp hstatus.symm) hst
  · have hf : HoldsFilter _ := .of_config (s := s) hgood hfits
    obtain ⟨idx, -, hlen, -, hnext⟩ := hf.execQuery data
    obtain ⟨-, hk, -⟩ := not_invalidParam_config_iff.mp hgood
    have hacc : accOf (BitStore.alloc (configCapacity mRaw)) idx = false :=
      accOf_alloc _ (hlen ▸ one_le_toNat_of_ne_zero hk)
    refine ⟨_, hnext, ?_⟩
    rw [State.respondOk_outbox, State.respondOk_bits, State.install_bits, hacc]
    rfl

/-- Settles O23: every index is a bit of the store, and every bit is 1. -/
theorem saturatedFilterAnswersOne : Obligations.SaturatedFilterAnswersOne := by
  intro s sid k n data hn hk himp hfits
  have hcap : wordsCapacity (List.replicate n 0xFFFFFFFFFFFFFFFF) = 64 * n := by
    rw [wordsCapacity, List.length_replicate]
  have hgood : ¬ InvalidParam (.reconstruct sid k (List.replicate n 0xFFFFFFFFFFFFFFFF)) :=
    not_invalidParam_reconstruct_iff.mpr ⟨by rw [List.length_replicate]; omega, hk, himp⟩
  have hmax := hcap.le.trans hfits
  have hf : HoldsFilter _ := .of_reconstruct (s := s) hgood hmax
  obtain ⟨idx, hidx, -, hlt, -⟩ := hf.execQuery data
  rw [State.respondOk_m, State.install_m, toNat_ofNat_of_fits hmax, hcap] at hlt
  have hfound : Found data _ := ⟨idx, hidx, fun b hb => BitStore.bitTest_importWords_ones (hlt b hb)⟩
  obtain ⟨u, hquery, hout⟩ := hf.execQuery_of_found hfound
  exact ⟨_, u, execReconstruct_of_fits hgood hmax, hquery, hout⟩

/-- Settles O25: the words are those PUT left, and the indices for the smaller count are the first of those it set. -/
theorem smallerCountStillFinds : Obligations.SmallerCountStillFinds := by
  intro s t u v data k hi hc hsid hput hk hle hrec
  have hgrown : GrownFrom s t := execPut_grownFrom hi.store_wf hput
  have hit : EngineInv t := hgrown.inv hi
  have hct : t.cfg = true := hgrown.cfg.trans hc
  obtain ⟨idx, hidx, hset⟩ := execPut_found hi.store_wf hc hput
  rw [hgrown.sid, hsid, indexes_zero, hgrown.k] at hidx
  obtain ⟨h64, hle64, hmax, -, -, hlen⟩ := hit.configured hct
  cases (execReconstruct_exportWords hit hct hk implemented_zero u).symm.trans hrec
  have hf : HoldsFilter ((u.install t.bits t.m k 0).respondOk .reconstruct []) :=
    ⟨rfl, hit.store_wf, rfl, nofun, fun _ =>
      ⟨h64, hle64, hmax, one_le_toNat_of_ne_zero hk, implemented_zero, hlen⟩⟩
  refine hf.execQuery_of_found ⟨idx.take k.toNat, ?_, fun b hb => hset b (List.mem_of_mem_take hb)⟩
  rw [← Option.some.inj hidx, referenceIndexes_take data t.m hle]
  exact indexes_zero data t.m k

end Sys2Proof
end

section
/-! PROOFS. The step (spec/00_scope.md R6; spec/10_state.md section 9): what it does with a packet, a request and
nothing, that it keeps the invariant, and that from the invariant it answers every packet. -/

namespace Sys2Proof.Machine

variable {s t : State}

/-! ### What a step can do -/

theorem step_request {r : PortRequest} {rs : List PortRequest} (hreq : s.requests = r :: rs) :
    step s = serveRequest r (s.setRequests rs) := by
  simp only [step, hreq]

theorem serveRequest_of_decodeRequest {r : PortRequest} {i : Instr} (h : decodeRequest r = .ok i) (s : State) :
    serveRequest r s = exec i s := by
  simp only [serveRequest, decode, h]

theorem step_idle (hreq : s.requests = []) (hin : s.inbox = []) : step s = .next s := by
  simp only [step, hreq, hin]

/-- What a step can do while no primitive request is pending: wait, reset, or accept a packet (R40, R150). -/
theorem step_cases (hreq : s.requests = []) (h : step s = .next t) :
    t = s ∨ (∃ rest, t = (s.setInbox rest).resetEvent) ∨
      ∃ ws rest, acceptPacket ws (s.setInbox rest) = .next t := by
  match hin : s.inbox with
  | [] => exact .inl (Host.Outcome.next.inj (h.symm.trans (step_idle hreq hin)))
  | .reset :: rest => exact .inr (.inl ⟨rest, Host.Outcome.next.inj (h.symm.trans (step_reset hreq hin))⟩)
  | .packet ws :: rest => exact .inr (.inr ⟨ws, rest, (step_packet hreq hin).symm.trans h⟩)

/-! ### The invariant -/

/-- The invariant speaks of the filter and of the pending requests only. -/
theorem inv_of_sameFilter (hi : EngineInv s) (hsame : SameFilter s t) (hreq : t.requests = s.requests) : EngineInv t :=
  (GrownFrom.of_sameFilter hi.store_wf hsame hreq).inv hi

/-- With no request pending, a filter meets the invariant. -/
theorem HoldsFilter.inv_of_no_request (hf : HoldsFilter t) (hreq : t.requests = []) : EngineInv t :=
  ⟨hf.inv.store_wf, hreq, hf.inv.unconfigured, hf.inv.configured⟩

theorem resetEvent_inv (s : State) : EngineInv s.resetEvent where
  store_wf := BitStore.empty_wf
  no_request := rfl
  unconfigured := fun _ => ⟨rfl, rfl, rfl, rfl⟩
  configured := nofun

/-- A late change of strategy leaves a filter (R102, R157). -/
theorem HoldsFilter.setSid (hf : HoldsFilter s) {sid : BitVec 8} (himp : implemented sid = true) :
    HoldsFilter (s.setSid sid) := by
  obtain ⟨h64, hle, hmax, hk, -, hlen⟩ := hf.inv.configured hf.cfg
  have hcfg : ¬ s.cfg = false := by rw [hf.cfg]; decide
  exact ⟨hf.cfg, hf.inv.store_wf, rfl, fun hc => absurd hc hcfg, fun _ => ⟨h64, hle, hmax, hk, himp, hlen⟩⟩

/-- An error response keeps the invariant (R131). -/
theorem respondError_inv (hi : EngineInv s) (echo : BitVec 8) (st : Status) : EngineInv (s.respondError echo st) :=
  inv_of_sameFilter hi ⟨rfl, rfl, rfl, rfl, rfl⟩ rfl

/-- Every command keeps the invariant: a creator answers an error or makes a filter, PUT lets one grow, and the readers
leave it alone. -/
theorem exec_inv {i : Instr} {op : Opcode} (hi : EngineInv s) (hop : i.opcode = some op) (h : exec i s = .next t) :
    EngineInv t := by
  have hreq := hi.no_request
  cases i <;> cases hop
  case config =>
    obtain ⟨st, -, -, rfl⟩ | ⟨hgood, hfits, rfl⟩ := execConfig_cases h
    · exact respondError_inv hi _ st
    · exact (HoldsFilter.of_config hgood hfits).inv_of_no_request hreq
  case reconstruct =>
    obtain ⟨st, -, -, rfl⟩ | ⟨hgood, hfits, rfl⟩ := execReconstruct_cases h
    · exact respondError_inv hi _ st
    · exact (HoldsFilter.of_reconstruct hgood hfits).inv_of_no_request hreq
  case setStrategy sid =>
    obtain ⟨st, -, rfl⟩ | ⟨hc, himp, rfl⟩ := execSetStrategy_cases h
    · exact respondError_inv hi _ st
    · have hf : HoldsFilter (s.setSid sid) := (HoldsFilter.of_inv hi hc).setSid himp
      exact (hf.congr (sameFilter_respondOk _ _ _)).inv_of_no_request hreq
  case put => exact (execPut_grownFrom hi.store_wf h).inv hi
  case query =>
    obtain ⟨w, r, rfl⟩ := execQuery_delivers h
    exact inv_of_sameFilter hi ⟨rfl, rfl, rfl, rfl, rfl⟩ rfl
  case readM =>
    obtain ⟨r, rfl⟩ := exec_delivers (.inl rfl) h
    exact inv_of_sameFilter hi ⟨rfl, rfl, rfl, rfl, rfl⟩ rfl
  case readK =>
    obtain ⟨r, rfl⟩ := exec_delivers (.inr (.inl rfl)) h
    exact inv_of_sameFilter hi ⟨rfl, rfl, rfl, rfl, rfl⟩ rfl
  case exportBits =>
    obtain ⟨r, rfl⟩ := exec_delivers (.inr (.inr rfl)) h
    exact inv_of_sameFilter hi ⟨rfl, rfl, rfl, rfl, rfl⟩ rfl

theorem acceptPacket_inv {ws : List Word} (hi : EngineInv s) (h : acceptPacket ws s = .next t) : EngineInv t := by
  by_cases hm : Malformed ws
  · cases (acceptPacket_of_malformed hm s).symm.trans h
    exact respondError_inv hi _ _
  · obtain ⟨i, hd⟩ := decodePacket_isOk_of_not_malformed hm
    obtain ⟨op, hop, -⟩ := opcode_of_decodePacket hd
    exact exec_inv hi hop ((acceptPacket_of_decodePacket hd s).symm.trans h)

theorem setInbox_inv (hi : EngineInv s) (rest : List HostEvent) : EngineInv (s.setInbox rest) :=
  inv_of_sameFilter hi ⟨rfl, rfl, rfl, rfl, rfl⟩ rfl

/-- From the invariant, a step that takes a packet answers it. -/
theorem step_packet_answers {ws : List Word} {rest : List HostEvent} (hi : EngineInv s)
    (hin : s.inbox = .packet ws :: rest) :
    ∃ t r0 payload, step s = .next t ∧ t.outbox = s.outbox ++ [r0 :: payload] ∧ t.inbox = rest := by
  obtain ⟨t, ht⟩ := acceptPacket_next_of_inv (setInbox_inv hi rest) ws
  obtain ⟨r0, payload, hout, ⟨hrest, -, -⟩, -⟩ := acceptPacket_precise ht
  exact ⟨t, r0, payload, (step_packet hi.no_request hin).trans ht, hout, hrest⟩

end Sys2Proof.Machine

namespace Sys2Proof

open Sys2Proof.Machine

/-- Settles O10: a step waits, resets, or accepts a packet, and each of them keeps the invariant. -/
theorem stepKeepsInvariant : Obligations.StepKeepsInvariant := by
  intro s t hi h
  obtain rfl | ⟨rest, rfl⟩ | ⟨ws, rest, hpacket⟩ := step_cases hi.no_request h
  · exact hi
  · exact resetEvent_inv _
  · exact acceptPacket_inv (setInbox_inv hi rest) hpacket

/-- Settles O11: with nothing to take the engine waits, a reset always ends, and a packet is always answered. -/
theorem everyCommandIsAnswered : Obligations.EveryCommandIsAnswered := by
  refine fun s hi => ⟨?_, fun ws rest hin => step_packet_answers hi hin⟩
  match hin : s.inbox with
  | [] => exact ⟨s, step_idle hi.no_request hin⟩
  | .reset :: rest => exact ⟨_, step_reset hi.no_request hin⟩
  | .packet ws :: rest =>
    obtain ⟨t, -, -, ht, -, -⟩ := step_packet_answers hi hin
    exact ⟨t, ht⟩

/-- Settles O6: a packet or request that decodes is executed as its instruction. -/
theorem stepRunsDecodedInstruction : Obligations.StepRunsDecodedInstruction :=
  ⟨fun _ _ _ _ hreq hin hd => (step_packet hreq hin).trans (acceptPacket_of_decodePacket hd _),
    fun _ _ _ _ hreq hd => (step_request hreq).trans (serveRequest_of_decodeRequest hd _)⟩

/-- Settles O8: neither queue has anything to take. -/
theorem idleEngineWaits : Obligations.IdleEngineWaits := fun _ hreq hin => step_idle hreq hin

/-- Settles O9: the state after reset is what the reset event makes of it. -/
theorem resetMeetsInvariant : Obligations.ResetMeetsInvariant := resetEvent_inv State.reset

end Sys2Proof
end

section
/-! PROOFS. R22 of spec/10_state.md: what the working registers hold does not matter. The property is closed under the
checks the commands make, so each instruction has it. -/

namespace Sys2Proof.Machine

/-- From other working registers `f` answers the same state, but for the working registers. -/
def IgnoresWork (f : State → Host.Outcome State Fault Refusal) : Prop :=
  ∀ s t w, f s = .next t → ∃ w', f (s.setWork w) = .next (t.setWork w')

variable {f g : State → Host.Outcome State Fault Refusal}

theorem IgnoresWork.next {next : State → State} (h : ∀ s w, ∃ w', next (s.setWork w) = (next s).setWork w') :
    IgnoresWork fun s => .next (next s) := by
  intro s t w hnext
  obtain ⟨w', hw'⟩ := h s w
  cases hnext
  exact ⟨w', congrArg Host.Outcome.next hw'⟩

theorem IgnoresWork.fault (r : Fault) : IgnoresWork fun _ => .fault r := fun _ _ _ h => nomatch h

theorem IgnoresWork.raise (op : Opcode) (st : Status) : IgnoresWork (Machine.raise op st) :=
  .next fun _ w => ⟨w, rfl⟩

/-- A check of anything but the working registers. -/
theorem IgnoresWork.ite {c : State → Prop} [∀ s, Decidable (c s)] (hc : ∀ s w, c (s.setWork w) ↔ c s)
    (hf : IgnoresWork f) (hg : IgnoresWork g) : IgnoresWork fun s => if c s then f s else g s := by
  intro s t w h
  by_cases hcs : c s
  · obtain ⟨w', hw'⟩ := hf s t w ((if_pos hcs).symm.trans h)
    exact ⟨w', (if_pos ((hc s w).mpr hcs)).trans hw'⟩
  · obtain ⟨w', hw'⟩ := hg s t w ((if_neg hcs).symm.trans h)
    exact ⟨w', (if_neg fun hcw => hcs ((hc s w).mp hcw)).trans hw'⟩

theorem IgnoresWork.whenConfigured (op : Opcode) (hf : IgnoresWork f) :
    IgnoresWork fun s => Machine.whenConfigured op s (f s) :=
  .ite (c := fun s => s.cfg = true) (fun _ _ => Iff.rfl) hf (.raise op .notConfigured)

/-- The indices depend on `SID`, `M`, `K` and the store alone (R90). -/
theorem IgnoresWork.withIndexes (data : List Byte) {run : State → List Word → Host.Outcome State Fault Refusal}
    (hrun : ∀ idx, IgnoresWork (run · idx)) : IgnoresWork fun s => Machine.withIndexes data s (run s) := by
  intro s t w h
  obtain ⟨idx, hidx, hbit, hnext⟩ := withIndexes_cases h
  obtain ⟨w', hw'⟩ := hrun idx s t w hnext
  have hall : (idx.all fun b => s.bits.hasBit b.toNat) = true :=
    List.all_eq_true.mpr fun b hb => decide_eq_true (hbit b hb)
  refine ⟨w', ?_⟩
  simp only [Machine.withIndexes, State.setWork_sid, State.setWork_m, State.setWork_k, State.setWork_bits, hidx, hall,
    if_true, hw']

/-- No instruction reads what an earlier one left in the working registers (R22). -/
theorem exec_ignoresWork (i : Instr) : IgnoresWork (exec i) := by
  cases i
  case config =>
    exact .ite (fun _ _ => Iff.rfl) (.raise _ _) (.ite (fun _ _ => Iff.rfl) (.next fun _ w => ⟨w, rfl⟩) (.raise _ _))
  case reconstruct =>
    exact .ite (fun _ _ => Iff.rfl) (.raise _ _) (.ite (fun _ _ => Iff.rfl) (.next fun _ w => ⟨w, rfl⟩) (.raise _ _))
  case setStrategy =>
    exact .whenConfigured _ (.ite (fun _ _ => Iff.rfl) (.next fun _ w => ⟨w, rfl⟩) (.raise _ _))
  case put data => exact .whenConfigured _ (.withIndexes data fun _ => .next fun _ _ => ⟨_, rfl⟩)
  case query data => exact .whenConfigured _ (.withIndexes data fun _ => .next fun _ _ => ⟨_, rfl⟩)
  case readM => exact .whenConfigured _ (.next fun _ w => ⟨w, rfl⟩)
  case readK => exact .whenConfigured _ (.next fun _ w => ⟨w, rfl⟩)
  case exportBits =>
    exact .whenConfigured _ (.ite (fun _ _ => Iff.rfl) (.next fun _ w => ⟨w, rfl⟩) (.fault _))
  case bsAlloc => exact .ite (fun _ _ => Iff.rfl) (.next fun _ w => ⟨w, rfl⟩) (.fault _)
  case bsSet => exact .ite (fun _ _ => Iff.rfl) (.next fun _ w => ⟨w, rfl⟩) (.fault _)
  case bsTest => exact .ite (fun _ _ => Iff.rfl) (.next fun _ w => ⟨w, rfl⟩) (.fault _)
  case bsRdWord => exact .ite (fun _ _ => Iff.rfl) (.next fun _ w => ⟨w, rfl⟩) (.fault _)
  case bsWrWord => exact .ite (fun _ _ => Iff.rfl) (.next fun _ w => ⟨w, rfl⟩) (.fault _)
  case hash128 => exact .next fun _ w => ⟨w, rfl⟩

end Sys2Proof.Machine

namespace Sys2Proof

open Sys2Proof.Machine

/-- Settles O46: the two next states differ in the working registers at most. -/
theorem workingRegistersDoNotMatter : Obligations.WorkingRegistersDoNotMatter := by
  intro i s t w h
  obtain ⟨w', hw'⟩ := exec_ignoresWork i s t w h
  exact ⟨_, hw', ⟨rfl, rfl, rfl, rfl, rfl⟩, ⟨rfl, rfl, rfl⟩, rfl⟩

end Sys2Proof
end

section
/-! PROOFS. Level P (spec/00_scope.md R6; spec/70_reset_and_hazards.md R161): what each primitive request does to the
store, what a sequence of requests does, the requests each command issues, and that serving them leaves the store as
the command leaves it. -/

namespace Sys2Proof.Machine

/-! ### Serving requests -/

/-- From a store `st`, whatever the rest of the state, the request is answered `a` and leaves the store `st'`. -/
def Answers (r : PortRequest) (st : BitStore) (a : PortAnswer) (st' : BitStore) : Prop :=
  ∀ s : State, s.bits = st → serveRequest r s = .next ((s.setBits st').answer a)

/-- Served one after another from a store `st`, the requests are answered `got` and leave the store `st'`. -/
inductive Serves : List PortRequest → BitStore → List PortAnswer → BitStore → Prop where
  | nil (st : BitStore) : Serves [] st [] st
  | cons {r : PortRequest} {rs : List PortRequest} {st st' st'' : BitStore} {a : PortAnswer} {got : List PortAnswer}
    (hr : Answers r st a st') (hrs : Serves rs st' got st'') : Serves (r :: rs) st (a :: got) st''

theorem run_succ_of_step {s t : State} (h : step s = .next t) (n : Nat) :
    Host.Core.run core (n + 1) s = Host.Core.run core n t := by
  have hcore : core.step s = .next t := h
  simp only [Host.Core.run, hcore]

theorem setRequests_nil {s : State} (h : s.requests = []) : s.setRequests [] = s := by
  rw [State.setRequests, ← h]

variable {rs : List PortRequest} {st st' : BitStore} {got : List PortAnswer}

theorem Serves.length_eq (h : Serves rs st got st') : got.length = rs.length := by
  induction h with
  | nil => rfl
  | cons _ _ ih => rw [List.length_cons, List.length_cons, ih]

/-- The machine serves pending requests one a step, and changes the store and the answers alone (R57). -/
theorem Serves.run (h : Serves rs st got st') {s : State} (hs : s.bits = st) :
    Host.Core.run core rs.length (s.setRequests rs) =
      .next (((s.setRequests []).setBits st').setAnswers (s.answers ++ got)) := by
  induction h generalizing s with
  | nil st =>
    subst hs
    rw [List.append_nil]
    rfl
  | @cons r rs st st' st'' a got hr _ ih =>
    have hstep : step (s.setRequests (r :: rs)) = .next (((s.setBits st').answer a).setRequests rs) :=
      (step_request rfl).trans (hr (s.setRequests rs) hs)
    rw [List.length_cons, run_succ_of_step hstep, ih rfl, State.answer_answers, State.setBits_answers,
      List.append_assoc]
    rfl

/-! ### The single requests (Table R57) -/

variable {b : Word} {j m : Nat}

theorem answers_allocRequest (h64 : m % 64 = 0) (hle : 64 ≤ m) (hmax : m ≤ Config.mMax) :
    Answers (allocRequest m) st .done (BitStore.alloc m) := by
  intro s _
  have hm := toNat_ofNat_of_fits hmax
  have hexec := exec_bsAlloc_of_contract (s := s) (m := BitVec.ofNat 64 m) (by rwa [hm]) (by rwa [hm])
    (by rwa [hm])
  rw [hm] at hexec
  exact hexec

theorem answers_setRequest (hb : b.toNat < 64 * st.len) : Answers (setRequest b) st .done (st.bitSet b.toNat) := by
  intro s hs
  subst hs
  exact exec_bsSet_of_lt hb

theorem answers_testRequest (hb : b.toNat < 64 * st.len) :
    Answers (testRequest b) st (.rdata (st.bitTest b.toNat)) st := by
  intro s hs
  subst hs
  exact exec_bsTest_of_lt hb

theorem answers_readRequest (hj : j < st.len) (hlen : st.len ≤ 2 ^ 64) :
    Answers (readRequest j) st (.rdata (st.wordRead j)) st := by
  intro s hs
  subst hs
  have htoNat : (BitVec.ofNat 64 j).toNat = j := Nat.mod_eq_of_lt (hj.trans_le hlen)
  have hexec := exec_bsRdWord_of_lt (s := s) (j := BitVec.ofNat 64 j) (htoNat.symm ▸ hj)
  rw [htoNat] at hexec
  exact hexec

theorem answers_writeRequest (hj : j < st.len) (hlen : st.len ≤ 2 ^ 64) (w : Word) :
    Answers (writeRequest j w) st .done (st.wordWrite j w) := by
  intro s hs
  subst hs
  have htoNat : (BitVec.ofNat 64 j).toNat = j := Nat.mod_eq_of_lt (hj.trans_le hlen)
  have hexec := exec_bsWrWord_of_lt (s := s) (j := BitVec.ofNat 64 j) (htoNat.symm ▸ hj) w
  rw [htoNat] at hexec
  exact hexec

theorem answers_hash (data : List Byte) :
    Answers (.hash data) st (.hash (Config.h128 data).1 (Config.h128 data).2) st := by
  intro s hs
  subst hs
  rfl

/-! ### The sequences of requests -/

variable {idx ws : List Word}

/-- The word writes of RECONSTRUCT import the sequence (R84, R101). -/
theorem serves_writeTrace (hj : j + ws.length ≤ st.len) (hlen : st.len ≤ 2 ^ 64) :
    ∃ got, Serves (writeTrace j ws) st got (st.writeFrom j ws) := by
  induction ws generalizing st j with
  | nil => exact ⟨[], .nil st⟩
  | cons w ws ih =>
    rw [List.length_cons] at hj
    obtain ⟨got, hgot⟩ := ih (st := st.wordWrite j w) (j := j + 1) (by rw [BitStore.wordWrite_len]; omega) hlen
    exact ⟨.done :: got, .cons (answers_writeRequest (by omega) hlen w) hgot⟩

/-- The sets of PUT, in order (R103). -/
theorem serves_sets (hidx : ∀ b ∈ idx, b.toNat < 64 * st.len) :
    ∃ got, Serves (idx.map setRequest) st got (st.setAll idx) := by
  induction idx generalizing st with
  | nil => exact ⟨[], .nil st⟩
  | cons b bs ih =>
    obtain ⟨hb, hbs⟩ := List.forall_mem_cons.mp hidx
    obtain ⟨got, hgot⟩ := ih (st := st.bitSet b.toNat) hbs
    exact ⟨.done :: got, .cons (answers_setRequest hb) hgot⟩

theorem accOfAnswers_rdata (w : Word) (got : List PortAnswer) :
    accOfAnswers (.rdata w :: got) = (w != 0 && accOfAnswers got) := rfl

/-- The tests of QUERY, up to the first that answers 0 (R104). -/
theorem serves_testTrace (hidx : ∀ b ∈ idx, b.toNat < 64 * st.len) :
    ∃ got, Serves (testTrace st idx) st got st ∧ accOfAnswers got = accOf st idx := by
  induction idx with
  | nil => exact ⟨[], .nil st, rfl⟩
  | cons b bs ih =>
    obtain ⟨hb, hbs⟩ := List.forall_mem_cons.mp hidx
    rw [testTrace, accOf]
    by_cases h0 : st.bitTest b.toNat = 0
    · rw [if_pos h0, if_pos h0]
      exact ⟨_, .cons (answers_testRequest hb) (.nil st), by rw [accOfAnswers_rdata, h0]; rfl⟩
    · rw [if_neg h0, if_neg h0]
      obtain ⟨got, hgot, hacc⟩ := ih hbs
      exact ⟨_, .cons (answers_testRequest hb) hgot, by rw [accOfAnswers_rdata, hacc, bne_iff_ne.mpr h0, Bool.true_and]⟩

/-- The word reads of EXPORT, in the order given (R83, R120). -/
theorem serves_reads {js : List Nat} (hjs : ∀ j ∈ js, j < st.len) (hlen : st.len ≤ 2 ^ 64) :
    Serves (js.map readRequest) st (js.map fun j => .rdata (st.wordRead j)) st := by
  induction js with
  | nil => exact .nil st
  | cons j js ih =>
    obtain ⟨hj, hjs⟩ := List.forall_mem_cons.mp hjs
    exact .cons (answers_readRequest hj hlen) (ih hjs)

theorem rdataWords_map_rdata (js : List Nat) (read : Nat → Word) :
    rdataWords (js.map fun j => .rdata (read j)) = js.map read := by
  induction js with
  | nil => rfl
  | cons j js ih => exact congrArg (read j :: ·) ih

/-- The hash request, where the strategy makes one, leaves the store alone and answers no `rdata` (R91). -/
theorem serves_hashTrace_append (sid : BitVec 8) (data : List Byte) (h : Serves rs st got st') :
    ∃ got', Serves (hashTrace sid data ++ rs) st got' st' ∧ rdataWords got' = rdataWords got := by
  rw [hashTrace]
  split
  · exact ⟨_, .cons (answers_hash data) h, rfl⟩
  · exact ⟨got, h, rfl⟩

/-! ### The traces of the commands -/

theorem portTrace_config_of_fits {sid : BitVec 8} {mRaw k : Word} (s : State)
    (hgood : ¬ InvalidParam (.config sid mRaw k)) (hfits : configCapacity mRaw ≤ Config.mMax) :
    portTrace (.config sid mRaw k) s = [allocRequest (configCapacity mRaw)] := by
  obtain ⟨hm, hk, himp⟩ := not_invalidParam_config_iff.mp hgood
  refine if_neg ?_
  rw [(fitsCapacity_iff _).mpr hfits, himp]
  simp only [hm, hk, Bool.true_eq_false, or_self, not_false_eq_true]

theorem portTrace_reconstruct_of_fits {sid : BitVec 8} {k : Word} (s : State)
    (hgood : ¬ InvalidParam (.reconstruct sid k ws)) (hfits : wordsCapacity ws ≤ Config.mMax) :
    portTrace (.reconstruct sid k ws) s = allocRequest (wordsCapacity ws) :: writeTrace 0 ws := by
  obtain ⟨hlen, hk, himp⟩ := not_invalidParam_reconstruct_iff.mp hgood
  refine if_neg ?_
  rw [(fitsCapacity_iff _).mpr hfits, himp]
  simp only [hlen, hk, Bool.true_eq_false, or_self, not_false_eq_true]

theorem portTrace_put {s : State} (hc : s.cfg = true) {data : List Byte}
    (hidx : indexes s.sid data s.m s.k = some idx) :
    portTrace (.put data) s = hashTrace s.sid data ++ idx.map setRequest := by
  rw [portTrace, if_pos hc, indexList, hidx, Option.getD_some]

theorem portTrace_query {s : State} (hc : s.cfg = true) {data : List Byte}
    (hidx : indexes s.sid data s.m s.k = some idx) :
    portTrace (.query data) s = hashTrace s.sid data ++ testTrace s.bits idx := by
  rw [portTrace, if_pos hc, indexList, hidx, Option.getD_some]

theorem portTrace_exportBits {s : State} (hc : s.cfg = true) :
    portTrace .exportBits s = (List.range (s.m.toNat / 64)).map readRequest := if_pos hc

/-! ### Level P against level T -/

variable {s t : State} {data : List Byte}

/-- Served from the store of `s`, the requests leave the store of `t`. -/
def ServedAs (rs : List PortRequest) (s t : State) : Prop := ∃ got, Serves rs s.bits got t.bits

theorem ServedAs.of_nil (h : rs = []) (hbits : t.bits = s.bits) : ServedAs rs s t :=
  ⟨[], by rw [h, hbits]; exact .nil _⟩

theorem execConfig_servedAs {sid : BitVec 8} {mRaw k : Word} (h : execConfig sid mRaw k s = .next t) :
    ServedAs (portTrace (.config sid mRaw k) s) s t := by
  obtain ⟨st, -, herr, rfl⟩ | ⟨hgood, hfits, rfl⟩ := execConfig_cases h
  · exact .of_nil (herr.elim portTrace_of_invalidParam portTrace_of_overCapacity) rfl
  · rw [portTrace_config_of_fits s hgood hfits]
    obtain ⟨hm, -, -⟩ := not_invalidParam_config_iff.mp hgood
    obtain ⟨h64, hle, -⟩ := pad64_spec mRaw.toNat
    have hpos := one_le_toNat_of_ne_zero hm
    have hle64 : 64 ≤ pad64 mRaw.toNat := by omega
    exact ⟨_, .cons (answers_allocRequest h64 hle64 hfits) (.nil _)⟩

theorem execReconstruct_servedAs {sid : BitVec 8} {k : Word} (h : execReconstruct sid k ws s = .next t) :
    ServedAs (portTrace (.reconstruct sid k ws) s) s t := by
  obtain ⟨st, -, herr, rfl⟩ | ⟨hgood, hfits, rfl⟩ := execReconstruct_cases h
  · exact .of_nil (herr.elim portTrace_of_invalidParam portTrace_of_overCapacity) rfl
  · rw [portTrace_reconstruct_of_fits s hgood hfits]
    obtain ⟨hlen, -, -⟩ := not_invalidParam_reconstruct_iff.mp hgood
    obtain ⟨-, -, hmax⟩ := mMax_bounds
    have hcap : wordsCapacity ws = 64 * ws.length := rfl
    obtain ⟨got, hgot⟩ := serves_writeTrace (st := BitStore.alloc (wordsCapacity ws)) (j := 0) (ws := ws)
      (by rw [BitStore.alloc_len]; omega) (by rw [BitStore.alloc_len]; omega)
    exact ⟨_, .cons (answers_allocRequest (by omega) (by omega) hfits) hgot⟩

theorem execPut_servedAs (h : execPut data s = .next t) : ServedAs (portTrace (.put data) s) s t := by
  obtain ⟨hc, rfl⟩ | ⟨hc, idx, hidx, hbit, rfl⟩ := execPut_cases h
  · exact .of_nil (portTrace_of_lacksFilter ⟨trivial, hc⟩) rfl
  · rw [portTrace_put hc hidx]
    obtain ⟨got, hgot⟩ := serves_sets hbit
    obtain ⟨got', hgot', -⟩ := serves_hashTrace_append s.sid data hgot
    exact ⟨got', hgot'⟩

/-- On a filter the answers to QUERY's requests give its payload (R104). -/
theorem execQuery_served (hi : EngineInv s) (h : execQuery data s = .next t) :
    ∃ got, Serves (portTrace (.query data) s) s.bits got t.bits ∧
      (s.cfg = true → t.outbox = s.outbox ++ [[0x5, accWord (accOfAnswers got)]]) := by
  cases hc : s.cfg with
  | false =>
    rw [portTrace_of_lacksFilter (i := .query data) ⟨trivial, hc⟩, execQuery_bits h]
    exact ⟨[], .nil _, nofun⟩
  | true =>
    obtain ⟨idx, hidx, -, -, hbit, -, -⟩ := withIndexes_of_inv hi hc data
    obtain ⟨idx', hidx', hnext⟩ := execQuery_of_inv hi hc data
    cases hidx.symm.trans hidx'
    cases hnext.symm.trans h
    obtain ⟨got, hgot, hacc⟩ := serves_testTrace hbit
    obtain ⟨got', hgot', hrdata⟩ := serves_hashTrace_append s.sid data hgot
    rw [portTrace_query hc hidx]
    refine ⟨got', hgot', fun _ => ?_⟩
    rw [accOfAnswers, hrdata, ← accOfAnswers, hacc]
    rfl

/-- On a filter the answers to EXPORT's requests are its payload (R120). -/
theorem execExport_served (hi : EngineInv s) (h : execExport s = .next t) :
    ∃ got, Serves (portTrace .exportBits s) s.bits got t.bits ∧
      (s.cfg = true → t.outbox = s.outbox ++ [0x8 :: rdataWords got]) := by
  cases hc : s.cfg with
  | false =>
    rw [portTrace_of_lacksFilter (i := .exportBits) ⟨trivial, hc⟩, execExport_bits h]
    exact ⟨[], .nil _, nofun⟩
  | true =>
    cases (execExport_of_inv hi hc).symm.trans h
    obtain ⟨-, -, hmax, -, -, hlen⟩ := hi.configured hc
    obtain ⟨-, -, hbound⟩ := mMax_bounds
    rw [portTrace_exportBits hc]
    refine ⟨_, serves_reads (fun j hj => hlen ▸ List.mem_range.mp hj) (by omega), fun _ => ?_⟩
    rw [rdataWords_map_rdata]
    rfl

/-- On a filter the answers `got` make the payload of QUERY and of EXPORT (R104, R120). -/
def MakesPayload (i : Instr) (s t : State) (got : List PortAnswer) : Prop :=
  (s.cfg = true → ∀ data, i = .query data → t.outbox = s.outbox ++ [[0x5, accWord (accOfAnswers got)]]) ∧
  (s.cfg = true → i = .exportBits → t.outbox = s.outbox ++ [0x8 :: rdataWords got])

theorem ServedAs.makesPayload {i : Instr} (hquery : ∀ data, i ≠ .query data) (hexport : i ≠ .exportBits)
    (h : ServedAs rs s t) : ∃ got, Serves rs s.bits got t.bits ∧ MakesPayload i s t got := by
  obtain ⟨got, hgot⟩ := h
  exact ⟨got, hgot, fun _ data hi => absurd hi (hquery data), fun _ hi => absurd hi hexport⟩

/-- Serving the trace of a command leaves the store as the command leaves it, and its answers make the payloads. -/
theorem exec_served {i : Instr} {op : Opcode} (hi : EngineInv s) (hop : i.opcode = some op) (h : exec i s = .next t) :
    ∃ got, Serves (portTrace i s) s.bits got t.bits ∧ MakesPayload i s t got := by
  cases i <;> cases hop
  case config => exact ServedAs.makesPayload nofun nofun (execConfig_servedAs h)
  case reconstruct => exact ServedAs.makesPayload nofun nofun (execReconstruct_servedAs h)
  case setStrategy => exact ServedAs.makesPayload nofun nofun (.of_nil rfl (execSetStrategy_bits h))
  case put => exact ServedAs.makesPayload nofun nofun (execPut_servedAs h)
  case readM => exact ServedAs.makesPayload nofun nofun (.of_nil rfl (execReadM_bits h))
  case readK => exact ServedAs.makesPayload nofun nofun (.of_nil rfl (execReadK_bits h))
  case query =>
    obtain ⟨got, hgot, hout⟩ := execQuery_served hi h
    exact ⟨got, hgot, fun hc _ _ => hout hc, fun _ => nofun⟩
  case exportBits =>
    obtain ⟨got, hgot, hout⟩ := execExport_served hi h
    exact ⟨got, hgot, fun _ => nofun, fun hc _ => hout hc⟩

/-! ### The traces as lists -/

theorem length_writeTrace (j : Nat) (ws : List Word) : (writeTrace j ws).length = ws.length := by
  induction ws generalizing j with
  | nil => rfl
  | cons w ws ih => rw [writeTrace, List.length_cons, List.length_cons, ih]

/-- Write `i` of a trace that starts at address `j` is word `i` to address `j + i`. -/
theorem getElem?_writeTrace (j : Nat) (ws : List Word) (i : Nat) :
    (writeTrace j ws)[i]? = ws[i]?.map (writeRequest (j + i)) := by
  induction ws generalizing i j with
  | nil => rfl
  | cons w ws ih =>
    cases i with
    | zero => rfl
    | succ i => rw [writeTrace, List.getElem?_cons_succ, List.getElem?_cons_succ, ih, Nat.succ_add_eq_add_succ]

/-- QUERY tests the first of its indices: all but the last test read 1, and the last reads 0 unless it is the last index
(R104). -/
theorem testTrace_eq_take (st : BitStore) (idx : List Word) :
    ∃ n, testTrace st idx = (idx.take n).map testRequest ∧ n ≤ idx.length ∧
      (∀ i b, i + 1 < n → idx[i]? = some b → st.bitTest b.toNat = 1) ∧
      (n < idx.length → ∃ i b, n = i + 1 ∧ idx[i]? = some b ∧ st.bitTest b.toNat = 0) := by
  induction idx with
  | nil => exact ⟨0, rfl, Nat.le_refl 0, nofun, nofun⟩
  | cons b bs ih =>
    rw [testTrace]
    by_cases h0 : st.bitTest b.toNat = 0
    · rw [if_pos h0]
      exact ⟨1, rfl, Nat.succ_pos _, fun i _ hi => by omega, fun _ => ⟨0, b, rfl, rfl, h0⟩⟩
    · rw [if_neg h0]
      have h1 : st.bitTest b.toNat = 1 := by
        rw [bitTest_eq] at h0 ⊢
        exact if_pos (by_contra fun hno => h0 (if_neg hno))
      obtain ⟨n, htrace, hle, hones, hlast⟩ := ih
      refine ⟨n + 1, by rw [htrace]; rfl, Nat.succ_le_succ hle, fun i c hi hc => ?_, fun hlt => ?_⟩
      · cases i with
        | zero =>
          cases hc
          exact h1
        | succ i => exact hones i c (Nat.lt_of_succ_lt_succ hi) hc
      · obtain ⟨i, c, hi, hc, hzero⟩ := hlast (Nat.lt_of_succ_lt_succ hlt)
        exact ⟨i + 1, c, congrArg Nat.succ hi, hc, hzero⟩

end Sys2Proof.Machine

namespace Sys2Proof

open Sys2Proof.Machine

/-- Settles O47: a step serves one request, so the run over the trace makes the store and the answers that serving the
requests makes. -/
theorem portTraceRefinesCommand : Obligations.PortTraceRefinesCommand := by
  intro i s t hi hcommand h
  rw [isCommand_eq_isSome_opcode] at hcommand
  obtain ⟨op, hop⟩ := Option.isSome_iff_exists.mp hcommand
  obtain ⟨got, hgot, hpayload⟩ := exec_served hi hop h
  have hrun := hgot.run (s := s) rfl
  rw [setRequests_nil hi.no_request] at hrun
  exact ⟨_, got, hrun, rfl, hgot.length_eq, hpayload⟩

/-- Settles O48: the trace of each command, read off its definition; QUERY's ends at its first 0. -/
theorem portTracesAsListed : Obligations.PortTracesAsListed := by
  refine ⟨fun s sid mRaw k hgood hfits => portTrace_config_of_fits s hgood (Nat.not_lt.mp hfits),
    fun s sid k words hgood hfits => ?_, fun s data hc hsid => ?_, fun s hc => portTrace_exportBits hc,
    fun s sid => ⟨rfl, rfl, rfl⟩, fun s data hc => ?_⟩
  · refine ⟨_, portTrace_reconstruct_of_fits s hgood (Nat.not_lt.mp hfits), length_writeTrace 0 words, fun j hj => ?_⟩
    refine ⟨words[j], List.getElem?_eq_getElem hj, ?_⟩
    rw [getElem?_writeTrace, List.getElem?_eq_getElem hj, Option.map_some, Nat.zero_add]
  · have hidx : indexes s.sid data s.m s.k = some (referenceIndexes data s.m s.k) := by rw [hsid]; rfl
    have hhash : hashTrace s.sid data = [.hash data] := if_pos hsid
    have hlen := length_referenceIndexes data s.m s.k
    obtain ⟨n, htrace, hle, hones, hlast⟩ := testTrace_eq_take s.bits (referenceIndexes data s.m s.k)
    rw [hlen] at hle hlast
    refine ⟨_, n, indexes_zero data s.m s.k, hlen, ?_, ?_, hle, hones, hlast⟩
    · rw [portTrace_put hc hidx, hhash]
      rfl
    · rw [portTrace_query hc hidx, hhash, htrace]
      rfl
  · exact ⟨portTrace_of_lacksFilter ⟨trivial, hc⟩, portTrace_of_lacksFilter ⟨trivial, hc⟩,
      portTrace_of_lacksFilter ⟨trivial, hc⟩⟩

end Sys2Proof
end

section
/-! PROOFS. SERIALIZE and DESERIALIZE (spec/44_serialize.md R121 to R126): the record of a filter, the command a record
is sent as, and the round trip. -/

namespace Sys2Proof.Machine

variable {s : State}

/-! ### SERIALIZE -/

/-- The record of a filter (R121). -/
def recordOf (s : State) : Record where
  m := s.m.toNat
  k := s.k.toNat
  bits := (s.bits.exportWords (s.m.toNat / 64)).map BitVec.toNat

/-- On a filter the three commands of SERIALIZE deliver `M`, `K` and the words (R122). -/
theorem execAll_serializeCommands (hi : EngineInv s) (hc : s.cfg = true) :
    execAll serializeCommands s = .next (((s.respondOk .readM [s.m]).respondOk .readK [s.k]).respondOk .exportBits
      (s.bits.exportWords (s.m.toNat / 64))) := by
  have hreadM : exec .readM s = .next (s.respondOk .readM [s.m]) := whenConfigured_of hc _
  have hreadK : exec .readK (s.respondOk .readM [s.m]) = .next ((s.respondOk .readM [s.m]).respondOk .readK [s.k]) :=
    whenConfigured_of (s := s.respondOk .readM [s.m]) hc _
  have hi' : EngineInv ((s.respondOk .readM [s.m]).respondOk .readK [s.k]) :=
    inv_of_sameFilter hi ⟨rfl, rfl, rfl, rfl, rfl⟩ rfl
  have hexport : exec .exportBits ((s.respondOk .readM [s.m]).respondOk .readK [s.k]) = _ := execExport_of_inv hi' hc
  rw [serializeCommands, execAll_cons_of_next hreadM, execAll_cons_of_next hreadK, execAll_cons_of_next hexport]
  rfl

theorem serialize_of_inv (hi : EngineInv s) (hc : s.cfg = true) : serialize s = .ok (recordOf s) := by
  simp only [serialize, execAll_serializeCommands hi hc, State.respondOk_outbox, List.append_assoc, List.drop_left]
  rfl

theorem ofNat_toNat_self (w : Word) : BitVec.ofNat 64 w.toNat = w := by rw [BitVec.ofNat_toNat, BitVec.setWidth_eq]

/-- The words of the record are those of the store. -/
theorem recordOf_words (s : State) : (recordOf s).bits.map (BitVec.ofNat 64) = s.bits.exportWords (s.m.toNat / 64) := by
  rw [recordOf, List.map_map]
  exact (List.map_congr_left fun w _ => ofNat_toNat_self w).trans (List.map_id _)

/-! ### DESERIALIZE -/

theorem wordOfNat_eq_some_iff {n : Nat} {w : Word} : wordOfNat n = some w ↔ n < 2 ^ 64 ∧ BitVec.ofNat 64 n = w := by
  rw [wordOfNat]
  split
  case isTrue hn => rw [Option.some.injEq, and_iff_right hn]
  case isFalse hn => exact ⟨nofun, fun ⟨hlt, _⟩ => absurd hlt hn⟩

/-- The elements are read as words when each is an unsigned integer below 2^64 (R125). -/
theorem wordsOfSeq_map_some {ns : List Nat} (h : ∀ n ∈ ns, n < 2 ^ 64) :
    wordsOfSeq (ns.map some) = some (ns.map (BitVec.ofNat 64)) := by
  induction ns with
  | nil => rfl
  | cons n ns ih =>
    obtain ⟨hn, hns⟩ := List.forall_mem_cons.mp h
    simp only [List.map_cons, wordsOfSeq, wordOfNat_eq_some_iff.mpr ⟨hn, rfl⟩, ih hns]

theorem elements_of_wordsOfSeq {es : List (Option Nat)} {ws : List Word} (h : wordsOfSeq es = some ws) :
    ∀ e ∈ es, ∃ n, e = some n ∧ n < 2 ^ 64 := by
  induction es generalizing ws with
  | nil => exact nofun
  | cons e es ih =>
    cases e with
    | none => cases h
    | some n =>
      rw [wordsOfSeq] at h
      split at h
      case h_1 w ws' hn hes =>
        exact List.forall_mem_cons.mpr ⟨⟨n, rfl, (wordOfNat_eq_some_iff.mp hn).1⟩, ih hes⟩
      case h_2 => cases h

/-- A record that parses is of the expected shape (R125). -/
theorem wellShaped_of_parseRecord {r : RawRecord} {kb : Word × List Word} (h : parseRecord r = .ok kb) :
    WellShaped r := by
  obtain ⟨rm, rk, rbits⟩ := r
  rw [parseRecord] at h
  split at h
  case h_1 m k elements hm hk hbits =>
    cases hm
    cases hk
    cases hbits
    split at h
    case h_1 w ws hk hws => exact ⟨m, k, elements, rfl, (wordOfNat_eq_some_iff.mp hk).1, elements_of_wordsOfSeq hws⟩
    case h_2 => cases h
  case h_2 => cases h

/-- The only error of the parser (R125). -/
theorem parseRecord_error {r : RawRecord} {e : HostError} (h : parseRecord r = .error e) :
    e = .malformedSerializedInput := by
  rw [parseRecord] at h
  split at h
  case h_1 =>
    split at h
    case h_1 => cases h
    case h_2 =>
      cases h
      rfl
  case h_2 =>
    cases h
    rfl

theorem deserialize_raw {r : Record} (hk : r.k < 2 ^ 64) (hbits : ∀ n ∈ r.bits, n < 2 ^ 64) :
    deserialize r.raw = .ok (fromWords (r.bits.map (BitVec.ofNat 64)) (BitVec.ofNat 64 r.k)) := by
  simp only [deserialize, parseRecord, Record.raw, wordOfNat_eq_some_iff.mpr ⟨hk, rfl⟩, wordsOfSeq_map_some hbits,
    Except.map]

theorem deserialize_of_not_wellShaped {r : RawRecord} (h : ¬ WellShaped r) :
    deserialize r = .error .malformedSerializedInput := by
  rw [deserialize]
  cases hp : parseRecord r with
  | ok kb => exact absurd (wellShaped_of_parseRecord hp) h
  | error e => rw [parseRecord_error hp, Except.map]

/-! ### The round trip -/

/-- FROM_S of a filter's own record makes the filter again, in any engine (R126). -/
theorem execAll_fromWithStrategy_record (hi : EngineInv s) (hc : s.cfg = true) (u : State) :
    ∃ t, execAll (fromWithStrategy ((recordOf s).bits.map (BitVec.ofNat 64)) (BitVec.ofNat 64 (recordOf s).k) s.sid) u =
      .next t ∧ SameFilter s t := by
  obtain ⟨-, -, -, hk, himp, -⟩ := hi.configured hc
  have hk0 : s.k ≠ 0 := fun h => by rw [h] at hk; exact absurd hk (by decide)
  have hkey : BitVec.ofNat 64 (recordOf s).k = s.k := ofNat_toNat_self s.k
  have hexec : exec (.reconstruct s.sid s.k (s.bits.exportWords (s.m.toNat / 64))) u = _ :=
    execReconstruct_exportWords hi hc hk0 himp u
  rw [recordOf_words, hkey]
  exact ⟨_, execAll_cons_of_next hexec [], hc.symm, rfl, rfl, rfl, rfl⟩

end Sys2Proof.Machine

namespace Sys2Proof

open Sys2Proof.Machine

/-- Settles O52: the record is made of the three payloads, and the store has `M div 64` words. -/
theorem serializeBuildsRecord : Obligations.SerializeBuildsRecord := by
  intro s hi hc
  obtain ⟨h64, -⟩ := hi.configured hc
  refine ⟨recordOf s, serialize_of_inv hi hc, rfl, rfl, ?_, fun j hj => ?_⟩
  · change s.m.toNat = 64 * ((s.bits.exportWords (s.m.toNat / 64)).map BitVec.toNat).length
    rw [List.length_map, BitStore.length_exportWords]
    omega
  · rw [recordOf, List.getElem?_map, BitStore.getElem?_exportWords _ hj, Option.map_some]

/-- Settles O53: a record of the expected shape parses to its words, and only such a record parses. -/
theorem deserializeSendsReconstruct : Obligations.DeserializeSendsReconstruct := by
  refine fun r => ⟨fun m k bits hr hk hbits => ?_, deserialize_of_not_wellShaped⟩
  rw [hr]
  exact deserialize_raw hk hbits

/-- Settles O54: the record keeps `K` and the words, of which RECONSTRUCT makes the filter again; DESERIALIZE sends it
with `sid` 0. -/
theorem serializeRoundTrip : Obligations.SerializeRoundTrip := by
  intro s u hi hc
  obtain ⟨t, hfrom, hsame⟩ := execAll_fromWithStrategy_record hi hc u
  refine ⟨recordOf s, serialize_of_inv hi hc, fun hsid => ?_, t, hfrom, hsame⟩
  rw [hsid] at hfrom
  refine ⟨_, t, deserialize_raw s.k.isLt fun n hn => ?_, hfrom, hsame⟩
  obtain ⟨w, -, rfl⟩ := List.mem_map.mp hn
  exact w.isLt

end Sys2Proof
end

section
/-! PROOFS. The estimator of spec/40_estimate.md: what it refuses (R73), the filter NEW makes (30_encoding.md R62), that
`EST` agrees with the normative estimate away from the boundaries and is a neighbour at them (R74), and the fixtures of
Table R76 under both. -/

namespace Sys2Proof.Machine

variable {n : ℤ} {p : ℝ}

/-! ### Refusals, and the filter NEW makes -/

theorem estimate_of_refused {q : Option ℝ}
    (h : n < 1 ∨ q = none ∨ ∃ p, q = some p ∧ (p ≤ 0 ∨ 1 ≤ p ∨ 2 ^ 64 ≤ bitCount n p)) :
    estimate n q = .error .invalidParameter := by
  cases q with
  | none => rfl
  | some p =>
    refine if_neg fun ⟨hn, hp0, hp1, hfits⟩ => ?_
    obtain hn' | hnone | ⟨p', hp', hp⟩ := h
    · omega
    · cases hnone
    · cases hp'
      obtain hp | hp | hbig := hp
      · exact absurd hp0 hp.not_gt
      · exact absurd hp1 hp.not_gt
      · exact absurd hfits hbig.not_gt

theorem estimate_of_accepted (hn : 1 ≤ n) (hp0 : 0 < p) (hp1 : p < 1) (hfits : bitCount n p < 2 ^ 64) :
    estimate n (some p) = .ok (bitCount n p, hashCount n (bitCount n p)) := if_pos ⟨hn, hp0, hp1, hfits⟩

/-- `k` is at most `m_raw`: `y` is at most `m_raw * ln 2`, and `ln 2` is below 1 (R72). -/
theorem hashCount_le (hn : 1 ≤ n) {mRaw : ℕ} (hm : 1 ≤ mRaw) : hashCount n mRaw ≤ mRaw := by
  have hn' : (1 : ℝ) ≤ n := by exact_mod_cast hn
  have hlog0 : 0 ≤ Real.log 2 := by linarith [half_lt_log_two]
  have hy : estimateY n mRaw ≤ mRaw := calc
    (mRaw : ℝ) / n * Real.log 2
    _ ≤ mRaw * Real.log 2 := mul_le_mul_of_nonneg_right (div_le_self (Nat.cast_nonneg _) hn') hlog0
    _ ≤ mRaw := mul_le_of_le_one_right (Nat.cast_nonneg _) log_two_lt_one.le
  refine max_le hm (Nat.lt_add_one_iff.mp ((Nat.floor_lt' (Nat.succ_ne_zero _)).mpr ?_))
  push_cast
  linarith

/-! ### `EST` away from the boundaries and at them (R74) -/

/-- Where `z` is not within `err` of an integer, a value within `err` of `z` is on the same side of every integer. -/
theorem lt_iff_lt_of_not_nearInteger {z v err : ℝ} (hnear : ¬ NearInteger z err) (hv : |v - z| ≤ err) (c : ℤ) :
    ((c : ℝ) < v ↔ (c : ℝ) < z) ∧ (v < c ↔ z < c) := by
  rcases (abs_nonneg (v - z)).eq_or_lt with h0 | hpos
  · rw [sub_eq_zero.mp (abs_eq_zero.mp h0.symm)]
    exact ⟨Iff.rfl, Iff.rfl⟩
  · have hfar : err < |z - c| :=
      (not_le.mp fun hle => hnear ⟨hpos.trans_le hv, hle⟩).trans_le (round_le z c)
    obtain ⟨hlo, hhi⟩ := abs_le.mp hv
    rcases lt_or_ge (c : ℝ) z with hc | hc
    · rw [abs_of_pos (sub_pos.mpr hc)] at hfar
      have hcv : (c : ℝ) < v := by linarith
      exact ⟨iff_of_true hcv hc, iff_of_false hcv.not_gt hc.not_gt⟩
    · rw [abs_of_nonpos (sub_nonpos.mpr hc)] at hfar
      have hvc : v < c := by linarith
      have hzc : z < c := by linarith
      exact ⟨iff_of_false hvc.not_gt hzc.not_gt, iff_of_true hvc hzc⟩

/-- Its ceiling is that of `z`. -/
theorem ceil_eq_of_not_nearInteger {z v err : ℝ} (hnear : ¬ NearInteger z err) (hv : |v - z| ≤ err) :
    ⌈v⌉₊ = ⌈z⌉₊ := by
  rw [← Int.ceil_toNat, ← Int.ceil_toNat]
  refine congrArg Int.toNat (eq_of_forall_ge_iff fun c => ?_)
  rw [Int.ceil_le, Int.ceil_le, ← not_lt, ← not_lt, (lt_iff_lt_of_not_nearInteger hnear hv c).1]

/-- Its floor is that of `z`. -/
theorem floor_eq_of_not_nearInteger {z v err : ℝ} (hnear : ¬ NearInteger z err) (hv : |v - z| ≤ err) :
    ⌊v⌋₊ = ⌊z⌋₊ := by
  rw [← Int.floor_toNat, ← Int.floor_toNat]
  refine congrArg Int.toNat (eq_of_forall_le_iff fun c => ?_)
  rw [Int.le_floor, Int.le_floor, ← not_lt, ← not_lt, (lt_iff_lt_of_not_nearInteger hnear hv c).2]

/-- The integer nearest to a number that is not negative, as a natural number. -/
theorem exists_nat_nearest {z : ℝ} (hz : 0 ≤ z) : ∃ r : ℕ, round z = r ∧ |z - r| ≤ 1 / 2 := by
  have hround : 0 ≤ round z := by
    rw [round_eq]
    exact Int.floor_nonneg.mpr (by linarith)
  obtain ⟨r, hr⟩ := Int.eq_ofNat_of_zero_le hround
  refine ⟨r, hr, ?_⟩
  have h := abs_sub_round z
  rw [hr] at h
  exact_mod_cast h

/-- The ceiling is the nearest integer or the one above it. -/
theorem ceil_eq_nearest {z : ℝ} {r : ℕ} (hr : |z - r| ≤ 1 / 2) : ⌈z⌉₊ = r ∨ ⌈z⌉₊ = r + 1 := by
  obtain ⟨hlo, hhi⟩ := abs_le.mp hr
  have hle : ⌈z⌉₊ ≤ r + 1 := Nat.ceil_le.mpr (by push_cast; linarith)
  have hge : r ≤ ⌈z⌉₊ := by
    have hlt : (r : ℝ) < ⌈z⌉₊ + 1 := by linarith [Nat.le_ceil z]
    exact Nat.lt_add_one_iff.mp (by exact_mod_cast hlt)
  omega

/-- The floor is the nearest integer or the one below it. -/
theorem floor_eq_nearest {z : ℝ} (hz : 0 ≤ z) {r : ℕ} (hr : |z - r| ≤ 1 / 2) : ⌊z⌋₊ = r - 1 ∨ ⌊z⌋₊ = r := by
  obtain ⟨hlo, hhi⟩ := abs_le.mp hr
  have hle : ⌊z⌋₊ ≤ r := by
    have hlt : (⌊z⌋₊ : ℝ) < r + 1 := by linarith [Nat.floor_le hz]
    exact Nat.lt_add_one_iff.mp (by exact_mod_cast hlt)
  have hge : r < ⌊z⌋₊ + 2 := by
    have hlt : (r : ℝ) < ⌊z⌋₊ + 2 := by linarith [Nat.lt_floor_add_one z]
    exact_mod_cast hlt
  omega

theorem estBitCount_of_not_near (h : ¬ NearInteger (estimateX n p) (estXError n p)) : estBitCount n p = bitCount n p :=
  if_neg h

theorem estHashCount_of_not_near {mRaw : ℕ} (h : ¬ NearInteger (1 / 2 + estimateY n mRaw) (estYError n mRaw)) :
    estHashCount n mRaw = hashCount n mRaw := if_neg h

/-- `EST`'s bit count is one of the two neighbours of `x` (R74, U8). -/
theorem estBitCount_eq_nearest {r : ℕ} (hround : round (estimateX n p) = r) (hr : |estimateX n p - r| ≤ 1 / 2) :
    estBitCount n p = r ∨ estBitCount n p = r + 1 := by
  by_cases hnear : NearInteger (estimateX n p) (estXError n p)
  · rw [estBitCount, if_pos hnear, hround]
    split
    · exact .inr rfl
    · exact .inl rfl
  · rw [estBitCount_of_not_near hnear]
    exact ceil_eq_nearest hr

/-- `EST`'s hash count is one of the two neighbours of `0.5 + y`, not below 1 (R74, U8). -/
theorem estHashCount_eq_nearest {mRaw r : ℕ} (hy : 0 ≤ 1 / 2 + estimateY n mRaw)
    (hround : round (1 / 2 + estimateY n mRaw) = r) (hr : |1 / 2 + estimateY n mRaw - r| ≤ 1 / 2) :
    estHashCount n mRaw = max 1 (r - 1) ∨ estHashCount n mRaw = max 1 r := by
  by_cases hnear : NearInteger (1 / 2 + estimateY n mRaw) (estYError n mRaw)
  · rw [estHashCount, if_pos hnear, hround]
    split
    · exact .inr rfl
    · exact .inl (congrArg (max 1) (Int.toNat_sub r 1))
  · rw [estHashCount_of_not_near hnear]
    exact (floor_eq_nearest hy hr).imp (congrArg (max 1)) (congrArg (max 1))

theorem estimateY_nonneg (hn : 1 ≤ n) (mRaw : ℕ) : 0 ≤ estimateY n mRaw := by
  have hn' : (0 : ℝ) ≤ n := by exact_mod_cast (by omega : (0 : ℤ) ≤ n)
  exact mul_nonneg (div_nonneg (Nat.cast_nonneg _) hn') (by linarith [half_lt_log_two])

/-- The two parts of `estYError` bound the distance of the binary64 `0.5 + y` from the real one. -/
theorem abs_binary64_half_add_estY_sub (n : ℤ) (mRaw : ℕ) :
    |binary64 (1 / 2 + estY n mRaw) - (1 / 2 + estimateY n mRaw)| ≤ estYError n mRaw := by
  have h := abs_add_le (estY n mRaw - estimateY n mRaw) (binary64 (1 / 2 + estY n mRaw) - (1 / 2 + estY n mRaw))
  refine le_trans (le_of_eq (congrArg abs ?_)) h
  ring

end Sys2Proof.Machine

namespace Sys2Proof

open Sys2Proof.Machine

/-- Settles O56: each refusal of R73 fails one of the estimator's conditions, and no estimate means no command. -/
theorem estimateRefusesOutside : Obligations.EstimateRefusesOutside := by
  intro n p sid h
  have hrefused := estimate_of_refused h
  exact ⟨hrefused, by rw [newWithStrategy, hrefused, Except.map]⟩

/-- Settles O57: `m_raw` and `k` are at least 1 and fit their words, so the CONFIG that NEW sends is accepted. -/
theorem newBuildsEstimatedFilter : Obligations.NewBuildsEstimatedFilter := by
  intro n p s hn hp0 hp1 hfits
  obtain ⟨-, hpad, -⟩ := pad64_spec (bitCount n p)
  obtain ⟨-, -, hbound⟩ := mMax_bounds
  have hm1 := one_le_bitCount hn hp0 hp1
  have hk1 := one_le_hashCount n (bitCount n p)
  have hk := hashCount_le hn hm1
  have hm64 : (BitVec.ofNat 64 (bitCount n p)).toNat = bitCount n p := Nat.mod_eq_of_lt (by omega)
  have hk64 : (BitVec.ofNat 64 (hashCount n (bitCount n p))).toNat = hashCount n (bitCount n p) :=
    Nat.mod_eq_of_lt (by omega)
  have hcap : configCapacity (BitVec.ofNat 64 (bitCount n p)) = pad64 (bitCount n p) := by rw [configCapacity, hm64]
  have hgood : ¬ InvalidParam (.config 0 (BitVec.ofNat 64 (bitCount n p))
      (BitVec.ofNat 64 (hashCount n (bitCount n p)))) :=
    not_invalidParam_config_iff.mpr ⟨ofNat_ne_zero hm64 hm1, ofNat_ne_zero hk64 hk1, implemented_zero⟩
  have hexec : exec (.config 0 (BitVec.ofNat 64 (bitCount n p)) (BitVec.ofNat 64 (hashCount n (bitCount n p)))) s = _ :=
    execConfig_of_fits hgood (hcap.le.trans hfits)
  refine ⟨_, _, ?_, execAll_cons_of_next hexec [], rfl, rfl, ?_, hk64⟩
  · rw [newFilter, newWithStrategy, estimate_of_accepted hn hp0 hp1 (by omega), Except.map]
  · rw [State.respondOk_m, State.install_m, hcap, toNat_ofNat_of_fits hfits]

/-- Settles O59: away from the boundaries a value within the rounding error has the ceiling and floor of the real one;
everywhere the counts are neighbours of the nearest integer. -/
theorem estAgreesAwayFromBoundaries : Obligations.EstAgreesAwayFromBoundaries := by
  intro n p hn hp0 hp1
  refine ⟨fun hnear => ⟨estBitCount_of_not_near hnear, ceil_eq_of_not_nearInteger hnear le_rfl⟩, ?_,
    fun mRaw => ⟨?_, ?_⟩⟩
  · obtain ⟨r, hround, hr⟩ := exists_nat_nearest (estimateX_pos hn hp0 hp1).le
    exact ⟨r, hr, estBitCount_eq_nearest hround hr, ceil_eq_nearest hr⟩
  · intro hnear
    refine ⟨estHashCount_of_not_near hnear, congrArg (max 1) ?_⟩
    exact floor_eq_of_not_nearInteger hnear (abs_binary64_half_add_estY_sub n mRaw)
  · have hy : 0 ≤ 1 / 2 + estimateY n mRaw := by linarith [estimateY_nonneg hn mRaw]
    obtain ⟨r, hround, hr⟩ := exists_nat_nearest hy
    exact ⟨r, hr, estHashCount_eq_nearest hy hround hr,
      (floor_eq_nearest hy hr).imp (congrArg (max 1)) (congrArg (max 1))⟩

end Sys2Proof
end

section
/-! PROOFS. The fixtures of Table R76 (spec/40_estimate.md): bounds of the logarithms put `x` and `0.5 + y` at least
1/100 away from every integer, so the normative estimate and `EST` both give the table's counts. -/

namespace Sys2Proof.Machine

/-- `x` lies at least 1/100 inside the unit interval that ends in `m_raw`, and `0.5 + y` inside the one that starts in
`k`. -/
structure WellInside (n : ℤ) (p : ℝ) (mRaw k : ℕ) : Prop where
  x_lo : (mRaw : ℝ) - 1 + 1 / 100 ≤ estimateX n p
  x_hi : estimateX n p ≤ mRaw - 1 / 100
  y_lo : (k : ℝ) + 1 / 100 ≤ 1 / 2 + estimateY n mRaw
  y_hi : 1 / 2 + estimateY n mRaw ≤ k + 1 - 1 / 100

variable {n : ℤ} {p : ℝ} {mRaw k : ℕ}

theorem WellInside.bitCount_eq (h : WellInside n p mRaw k) (hm : 1 ≤ mRaw) : bitCount n p = mRaw := by
  have hlo := h.x_lo
  have hhi := h.x_hi
  rw [bitCount, Nat.ceil_eq_iff (by omega), Nat.cast_sub hm, Nat.cast_one]
  constructor <;> linarith

theorem WellInside.hashCount_eq (h : WellInside n p mRaw k) (hk : 1 ≤ k) : hashCount n mRaw = k := by
  have hlo := h.y_lo
  have hhi := h.y_hi
  have hfloor : ⌊1 / 2 + estimateY n mRaw⌋₊ = k :=
    (Nat.floor_eq_iff' (by omega)).mpr ⟨by linarith, by linarith⟩
  rw [hashCount, hfloor, max_eq_right hk]

/-- The rounding error of `x` is far below 1/100. -/
theorem WellInside.x_not_near (h : WellInside n p mRaw k) (hn : 1 ≤ n) (hm1 : 1 ≤ mRaw) (hm : mRaw ≤ 1000000)
    (hlog : Real.log p ≤ -1) : ¬ NearInteger (estimateX n p) (estXError n p) := by
  have hlo := h.x_lo
  have hhi := h.x_hi
  have hm1' : (1 : ℝ) ≤ mRaw := by exact_mod_cast hm1
  have hm' : (mRaw : ℝ) ≤ 1000000 := by exact_mod_cast hm
  have hmin := minNormal_le
  have herr := estXError_le (p := p) hn (by rw [abs_of_nonpos (by linarith)]; linarith)
  rw [abs_of_nonneg (by linarith)] at herr
  refine not_nearInteger (d := 1 / 100) ((mRaw : ℤ) - 1) ?_ ?_ ?_
  · push_cast
    linarith
  · push_cast
    linarith
  · linarith

/-- The rounding error of `0.5 + y` is far below 1/100. -/
theorem WellInside.y_not_near (h : WellInside n p mRaw k) (hn : 1 ≤ n) (hk1 : 1 ≤ k) (hk : k ≤ 1000000) :
    ¬ NearInteger (1 / 2 + estimateY n mRaw) (estYError n mRaw) := by
  have hlo := h.y_lo
  have hhi := h.y_hi
  have hk1' : (1 : ℝ) ≤ k := by exact_mod_cast hk1
  have hk' : (k : ℝ) ≤ 1000000 := by exact_mod_cast hk
  have hmin := minNormal_le
  have hn' : (0 : ℝ) ≤ n := by exact_mod_cast (by omega : (0 : ℤ) ≤ n)
  have hquot : 0 ≤ (mRaw : ℝ) / n := div_nonneg (Nat.cast_nonneg _) hn'
  have hle : estimateY n mRaw ≤ (mRaw : ℝ) / n := mul_le_of_le_one_right hquot log_two_lt_one.le
  have herr := estYError_le (n := n) (m := mRaw) (by linarith)
  refine not_nearInteger (d := 1 / 100) (k : ℤ) ?_ ?_ ?_
  · push_cast
    linarith
  · push_cast
    linarith
  · linarith

/-- Inside its precondition, and away from the boundaries, ESTIMATE gives `m_raw` and `k`, and so does `EST`. -/
theorem WellInside.estimate_eq (h : WellInside n p mRaw k) (hn : 1 ≤ n) (hp0 : 0 < p) (hlog : Real.log p ≤ -1)
    (hm1 : 1 ≤ mRaw) (hm : mRaw ≤ 1000000) (hk1 : 1 ≤ k) (hk : k ≤ 1000000) :
    estimate n (some p) = .ok (mRaw, k) ∧ estimateEst n (some p) = .ok (mRaw, k) := by
  have hp1 : p < 1 := (Real.log_neg_iff hp0).mp (by linarith)
  have hbits := h.bitCount_eq hm1
  have hcount := h.hashCount_eq hk1
  have hest : estBitCount n p = mRaw := (estBitCount_of_not_near (h.x_not_near hn hm1 hm hlog)).trans hbits
  have hestCount : estHashCount n mRaw = k := (estHashCount_of_not_near (h.y_not_near hn hk1 hk)).trans hcount
  constructor
  · rw [estimate_of_accepted hn hp0 hp1 (by omega), hbits, hcount]
  · refine (if_pos ⟨hn, hp0, hp1, by omega⟩).trans ?_
    rw [hest, hestCount]

/-! ### The logarithms of the fixtures -/

/-- `-ln 0.01`, which is `2 ln 2 + 2 ln 5`. -/
theorem neg_log_hundredth_mem : 4.60517018 ≤ -Real.log 0.01 ∧ -Real.log 0.01 ≤ 4.60517019 := by
  have h2 := Real.log_two_gt_d9
  have h2' := Real.log_two_lt_d9
  have h5 := Real.log_five_gt_d9
  have h5' := Real.log_five_lt_d9
  have hfactors : (0.01 : ℝ) = (2 ^ 2 * 5 ^ 2)⁻¹ := by norm_num
  rw [hfactors, Real.log_inv, neg_neg, Real.log_mul (by norm_num) (by norm_num), Real.log_pow, Real.log_pow]
  push_cast
  constructor <;> linarith

/-- `-ln 0.03`, which is `-ln 0.01 - ln 3`. -/
theorem neg_log_three_hundredths_mem : 3.50655789 ≤ -Real.log 0.03 ∧ -Real.log 0.03 ≤ 3.50655791 := by
  have h3 := Real.log_three_gt_d9
  have h3' := Real.log_three_lt_d9
  obtain ⟨hlo, hhi⟩ := neg_log_hundredth_mem
  have hfactors : (0.03 : ℝ) = 3 * 0.01 := by norm_num
  rw [hfactors, Real.log_mul (by norm_num) (by norm_num)]
  constructor <;> linarith

/-- `(ln 2)^2`, to nine digits. -/
theorem log_two_sq_mem : 0.480453013 ≤ Real.log 2 ^ 2 ∧ Real.log 2 ^ 2 ≤ 0.480453015 := by
  have h1 := Real.log_two_gt_d9
  have h2 := Real.log_two_lt_d9
  constructor <;> nlinarith

/-- From bounds of `ln p`, and those of `ln 2`, the position of `x` and `0.5 + y` is a matter of decimals. -/
theorem WellInside.of_log_mem {lo hi : ℝ} (hlog : lo ≤ -Real.log p ∧ -Real.log p ≤ hi) (hn : 0 ≤ n) (hm : 1 ≤ mRaw)
    (hxlo : ((mRaw : ℝ) - 1 + 1 / 100) * 0.480453015 ≤ n * lo) (hxhi : n * hi ≤ ((mRaw : ℝ) - 1 / 100) * 0.480453013)
    (hylo : (k : ℝ) + 1 / 100 ≤ 1 / 2 + mRaw / n * 0.6931471803)
    (hyhi : 1 / 2 + (mRaw : ℝ) / n * 0.6931471808 ≤ k + 1 - 1 / 100) : WellInside n p mRaw k := by
  obtain ⟨hlo, hhi⟩ := hlog
  obtain ⟨hsq, hsq'⟩ := log_two_sq_mem
  have hpos : 0 < Real.log 2 ^ 2 := by linarith
  have hn' : (0 : ℝ) ≤ n := by exact_mod_cast hn
  have hm' : (1 : ℝ) ≤ mRaw := by exact_mod_cast hm
  have hquot : 0 ≤ (mRaw : ℝ) / n := div_nonneg (Nat.cast_nonneg _) hn'
  have hx : estimateX n p = n * -Real.log p / Real.log 2 ^ 2 := by rw [estimateX, neg_mul_comm]
  constructor
  · rw [hx, le_div_iff₀ hpos]
    calc ((mRaw : ℝ) - 1 + 1 / 100) * Real.log 2 ^ 2
      _ ≤ ((mRaw : ℝ) - 1 + 1 / 100) * 0.480453015 := mul_le_mul_of_nonneg_left hsq' (by linarith)
      _ ≤ n * lo := hxlo
      _ ≤ n * -Real.log p := mul_le_mul_of_nonneg_left hlo hn'
  · rw [hx, div_le_iff₀ hpos]
    calc n * -Real.log p
      _ ≤ n * hi := mul_le_mul_of_nonneg_left hhi hn'
      _ ≤ ((mRaw : ℝ) - 1 / 100) * 0.480453013 := hxhi
      _ ≤ ((mRaw : ℝ) - 1 / 100) * Real.log 2 ^ 2 := mul_le_mul_of_nonneg_left hsq (by linarith)
  · have hy := mul_le_mul_of_nonneg_left Real.log_two_gt_d9.le hquot
    rw [estimateY]
    linarith
  · have hy := mul_le_mul_of_nonneg_left Real.log_two_lt_d9.le hquot
    rw [estimateY]
    linarith

/-- The first row of Table R76. -/
theorem estimate_1000 :
    estimate 1000 (some 0.01) = .ok (9586, 7) ∧ estimateEst 1000 (some 0.01) = .ok (9586, 7) := by
  have hin : WellInside 1000 0.01 9586 7 := .of_log_mem neg_log_hundredth_mem (by norm_num) (by norm_num) (by norm_num)
    (by norm_num) (by norm_num) (by norm_num)
  exact hin.estimate_eq (by norm_num) (by norm_num) (by linarith [neg_log_hundredth_mem.1]) (by norm_num) (by norm_num)
    (by norm_num) (by norm_num)

/-- The second row of Table R76. -/
theorem estimate_10000 :
    estimate 10000 (some 0.03) = .ok (72985, 5) ∧ estimateEst 10000 (some 0.03) = .ok (72985, 5) := by
  have hin : WellInside 10000 0.03 72985 5 := .of_log_mem neg_log_three_hundredths_mem (by norm_num) (by norm_num)
    (by norm_num) (by norm_num) (by norm_num) (by norm_num)
  exact hin.estimate_eq (by norm_num) (by norm_num) (by linarith [neg_log_three_hundredths_mem.1]) (by norm_num)
    (by norm_num) (by norm_num) (by norm_num)

/-- The third row of Table R76. -/
theorem estimate_100 : estimate 100 (some 0.01) = .ok (959, 7) ∧ estimateEst 100 (some 0.01) = .ok (959, 7) := by
  have hin : WellInside 100 0.01 959 7 := .of_log_mem neg_log_hundredth_mem (by norm_num) (by norm_num) (by norm_num)
    (by norm_num) (by norm_num) (by norm_num)
  exact hin.estimate_eq (by norm_num) (by norm_num) (by linarith [neg_log_hundredth_mem.1]) (by norm_num) (by norm_num)
    (by norm_num) (by norm_num)

end Sys2Proof.Machine

namespace Sys2Proof

open Sys2Proof.Machine

/-- Settles O58: in each row `x` and `0.5 + y` are well inside the intervals that give the table's counts. -/
theorem estimatorFixtures : Obligations.EstimatorFixtures :=
  ⟨estimate_1000.1, rfl, estimate_10000.1, rfl, estimate_100.1, rfl⟩

/-- Settles O60: in each row `x` and `0.5 + y` are further from every integer than their rounding errors. -/
theorem estAgreesOnFixtures : Obligations.EstAgreesOnFixtures :=
  ⟨estimate_1000.2, estimate_10000.2, estimate_100.2⟩

end Sys2Proof
end
